-- ==== Sys2Proof/Word.lean ====
section
/-! DEFINITION. The word types of the host bus (spec/20_memory.md R60, R61): 32-bit data words, 15-bit byte
addresses, and the byte lane of a bridge (R63). W-bit register values are naturals (notes/assumptions/2.md). -/

namespace Sys2Proof

/-- One 32-bit bus word (R60, R65). -/
abbrev Word := BitVec 32

/-- A 15-bit byte address of the register window (R60, R61). -/
abbrev Addr := BitVec 15

/-- One byte lane, seen only through a bridge (R63). -/
abbrev Byte := BitVec 8

end Sys2Proof
end

