-- ==== Sys2Proof/Syntax.lean ====
section
/-! DEFINITION. The command set MXE-1 (spec/30_encoding.md R92): one constructor per row of spec/opcode_table.json. -/

namespace Sys2Proof

/-- The five commands. None carries an operand: every operand is the value of a fixed register (R93). -/
inductive Instr where
  | modexp
  | mrtest
  | modinv
  | egcd
  | gcd
  deriving DecidableEq, Repr

end Sys2Proof
end

