-- ==== Sys2Proof/WellFormed.lean ====
section
/-! DEFINITION. Which commands and command words are well formed. A command has no operand, so every one is
(spec/30_encoding.md R93); a command word is when `ZERO` is 0 and `OP` names a row (R90, R92, R95). -/

namespace Sys2Proof

/-- R93: no command carries a field that could be out of range. -/
def Instr.wellFormed : Instr → Bool
  | .modexp => true
  | .mrtest => true
  | .modinv => true
  | .egcd => true
  | .gcd => true

/-- R90: `ZERO` "must be 0 in every legal command word". -/
def zeroFieldClear (c : Word) : Bool :=
  c.toNat / 16 == 0

/-- R92: the opcodes that name a command are 1 to 5. -/
def opcodeNamed (c : Word) : Bool :=
  1 ≤ c.toNat % 16 && c.toNat % 16 ≤ 5

/-- R95: every command word that fails one of the two checks is illegal. -/
def legalWord (c : Word) : Bool :=
  zeroFieldClear c && opcodeNamed c

end Sys2Proof
end

