-- ==== Sys2Proof/Decode.lean ====
section
/-! DEFINITION. Decoding of a command word (spec/30_encoding.md R90, R91) and the encoder written from the opcode
map (R92). Decoding is total: every word is a command or is rejected by name. -/

namespace Sys2Proof

/-- Why a word is illegal (R91, R95). START reports both as ILLEGAL_CMD. -/
inductive DecodeError where
  /-- one of bits 31:4 is set -/
  | zeroFieldSet
  /-- bits 31:4 are 0 and `OP` has no row in R92 -/
  | noSuchOpcode (op : Nat)
  deriving DecidableEq, Repr

/-- `OP`, bits 3:0 (R90). -/
def opField (c : Word) : Nat :=
  c.toNat % 16

/-- `ZERO`, bits 31:4 (R90). -/
def zeroField (c : Word) : Nat :=
  c.toNat / 16

/-- R91: `ZERO` is checked first, then `OP` is looked up in R92. -/
def decode (c : Word) : Except DecodeError Instr :=
  if zeroField c ≠ 0 then .error .zeroFieldSet
  else match opField c with
    | 1 => .ok .modexp
    | 2 => .ok .mrtest
    | 3 => .ok .modinv
    | 4 => .ok .egcd
    | 5 => .ok .gcd
    | op => .error (.noSuchOpcode op)

/-- The command word of each row (R92). -/
def encode : Instr → Word
  | .modexp => 0x00000001
  | .mrtest => 0x00000002
  | .modinv => 0x00000003
  | .egcd => 0x00000004
  | .gcd => 0x00000005

/-- The command word whose low `nbits` bits are those of `w` and whose other bits are 0. A command is one 32-bit word
(R90), so the table's bit numbers are the word's own. -/
def tableWord (nbits w : Nat) : Word :=
  BitVec.ofNat 32 (w % 2 ^ nbits)

/-- The instruction the decoder reads from an opcode-table word. -/
def decodeTableWord (nbits w : Nat) : Option Instr :=
  match decode (tableWord nbits w) with
  | .ok i => some i
  | .error _ => none

end Sys2Proof
end

