-- ==== Sys2Proof/Config.lean ====
section
/-! DEFINITION. What an instance of the block fixes, and the free values. None of these has a body, so no proof
can know more of them than their type says. -/

namespace Sys2Proof

/-- `NW - 1` of the instance that `Machine.State.reset` describes: `W = 32 * (size + 1)` is then every multiple of 32
from 32 to 32768 (spec/00_scope.md R5, R6). W is the spec's one open parameter (spec/92_eei_decisions.md D1).
DESIGN CHOICE, safe: notes/assumptions/1.md. -/
opaque Config.size : Fin 1024

/-- The values that unsigned working registers hold after a completion or a reset step, which spec/10_state.md R42
leaves unspecified: the first argument is the count of such events so far, the second numbers the register.
DESIGN CHOICE, safe: notes/assumptions/4.md. -/
opaque Config.freeNat : Nat → Nat → Nat

/-- The same for the four signed coefficient registers. DESIGN CHOICE, safe: notes/assumptions/4.md. -/
opaque Config.freeInt : Nat → Nat → Int

/-- `a mod 0` for a natural `a`, which has no defined result (spec/40_common.md R118) and which the block never evaluates
(spec/00_scope.md R11). DESIGN CHOICE, safe: notes/assumptions/19.md. -/
opaque Config.modByZero : Nat → Nat

/-- The same for an integer. DESIGN CHOICE, safe: notes/assumptions/19.md. -/
opaque Config.modByZeroInt : Int → Nat

end Sys2Proof
end

