-- ==== Sys2Proof/Machine/State.lean ====
section
/-! DEFINITION. The state of the block (spec/10_state.md R20) and of the two agents around it, as plain data, and the
state after reset (R45). -/

namespace Sys2Proof.Machine

/-- R27: the sequencer's phases, "eleven values and no other". -/
inductive Phase where
  | idle
  | start
  | meLoop
  | mrDecomp
  | mrDraw
  | mrPow
  | mrCheck
  | euLoop
  | euDoneEgcd
  | euDoneInv
  | euDoneGcd
  deriving DecidableEq, Repr

/-- R190: the three errors a command can report, "exactly three constructors" (U19). -/
inductive CmdError where
  | precondition
  | noInverse
  | illegalCmd
  deriving DecidableEq, Repr

/-- R12, R66, R67: what the host gets back from one bus transaction. A refused read carries no data (C8). -/
inductive BusAnswer where
  /-- a read answered `OK` with its data -/
  | data (d : Word)
  /-- a write answered `OK` -/
  | ok
  /-- `ERR` -/
  | err
  deriving DecidableEq, Repr

/-- One step of the single order of all steps (R74): whose turn it is, and what it does. -/
inductive Turn where
  /-- the engine may perform one micro-step (R115) -/
  | engine
  /-- the host reads one word (R67) -/
  | read (a : Addr)
  /-- the host writes one word (R66) -/
  | write (a : Addr) (v : Word)
  /-- the witness source offers one word on the RND port (R79) -/
  | offer (r : Nat)
  /-- `rst` is asserted for one clock edge (R230) -/
  | reset
  /-- the host polls STATUS until `BUSY = 0` (R99); `gaps` says how many of the engine's and the witness source's turns
  listed next fall before each further poll, and once it is used up the engine has one turn of its own before each
  (DESIGN CHOICE, notes/assumptions/8.md) -/
  | wait (gaps : List Nat)
  deriving DecidableEq, Repr

/-- R41: the working registers, which no bus address reaches (R42). `tM` is `T_M`, `eA` is `E_A`, `uA` is `UA`, and
so on. They are integers; their ranges are proved, not enforced (R41, R120). -/
structure Working where
  tM : Nat
  tR : Nat
  tB : Nat
  tE : Nat
  tD : Nat
  tS : Nat
  tK : Nat
  tJ : Nat
  tT : Nat
  tX : Nat
  tA : Nat
  eA : Nat
  eB : Nat
  uA : Int
  vA : Int
  uB : Int
  vB : Int
  deriving DecidableEq, Repr

/-- The arguments of a success completion (R113): every one a command has no value for is 0. -/
structure Result where
  res : Nat := 0
  x : Nat := 0
  xneg : Bool := false
  y : Nat := 0
  yneg : Bool := false
  prime : Bool := false
  rcnt : Word := 0
  deriving DecidableEq, Repr

/-- The machine. The W-bit registers are naturals kept below `2 ^ W` by an invariant (notes/assumptions/2.md); `W` is the
instance's width, `32 * (size + 1)`, which no step changes (R5, R35). -/
structure State where
  /-- `NW - 1`: the constant that `PARAM` shows (R6, R35) -/
  size : Fin 1024
  /-- `OPA` (R21) -/
  opa : Nat
  /-- `OPB` (R22) -/
  opb : Nat
  /-- `OPM` (R23) -/
  opm : Nat
  /-- `ROUNDS` (R37) -/
  rounds : Word
  /-- `RES` (R24) -/
  res : Nat
  /-- `RESX` (R25) -/
  resx : Nat
  /-- `RESY` (R26) -/
  resy : Nat
  /-- `RCNT` (R40) -/
  rcnt : Word
  /-- `BUSY` (R31) -/
  busy : Bool
  /-- `DONE` (R32) -/
  done : Bool
  /-- `ERR` (R33) -/
  err : Bool
  /-- `PRIME` (R29) -/
  prime : Bool
  /-- `XNEG` (R29) -/
  xneg : Bool
  /-- `YNEG` (R29) -/
  yneg : Bool
  /-- `ERRCODE` (R33) -/
  errcode : BitVec 4
  /-- `LASTCMD` (R36) -/
  lastcmd : Word
  /-- `IRQ_EN` (R38): bit 0 `DONE_IE`, bit 1 `ERR_IE` -/
  irqEn : BitVec 2
  /-- `IRQ_STAT` (R39): bit 0 `DONE_IP`, bit 1 `ERR_IP` -/
  irqStat : BitVec 2
  /-- `pc`, the sequencer's phase (R27) -/
  pc : Phase
  /-- the working registers (R41) -/
  work : Working
  /-- the model's own field: how many times the working registers have taken free values (notes/assumptions/4.md) -/
  freeCount : Nat
  /-- the steps to come, in order (R74); empty: every step is the engine's (notes/assumptions/5.md) -/
  turns : List Turn
  /-- the words the witness source offers and the engine has not taken, the first on the port (notes/assumptions/7.md) -/
  offers : List Nat
  /-- the answers the host has received, newest first (notes/assumptions/9.md) -/
  answers : List BusAnswer
  deriving DecidableEq, Repr

/-- Why a step can stop. No state that the machine reaches from reset stops; both reasons stand where the spec defines no
micro-step (notes/assumptions/11.md). -/
inductive Fault where
  /-- Raised by a command's meaning asked for a micro-step in a phase that is not one of its own (the idle phase among
  them: R28 "In `IDLE` the sequencer has no micro-step"), and by the engine's turn where LASTCMD is no command outside
  START. Safe: the model stops where the spec defines nothing. -/
  | noMicroStep (p : Phase)
  /-- Raised by the shared EU_LOOP micro-step when `E_A = 0` and `LASTCMD[3:0]` is none of 3, 4, 5 (R172: "no other value
  reaches EU_LOOP"). Safe: the model stops where the spec defines nothing. -/
  | euclidWithoutCommand
  deriving DecidableEq, Repr

/-- Why a step can be refused. No arm of `exec` raises it: every command has its meaning. -/
inductive Refusal where
  /-- Raised by an arm of `exec` whose command has no meaning yet. Safe: the model stops. -/
  | notModelled (mnemonic : String)
  deriving DecidableEq, Repr

/-- What a meaning or a step answers. -/
abbrev Answer := Host.Outcome State Fault Refusal

/-- The working registers at `State.reset`: the spec leaves them unspecified (R42, R45) and lets a model clear them (U13).
DESIGN CHOICE, unsafe: notes/assumptions/3.md. -/
def Working.cleared : Working :=
  { tM := 0, tR := 0, tB := 0, tE := 0, tD := 0, tS := 0, tK := 0, tJ := 0, tT := 0, tX := 0, tA := 0,
    eA := 0, eB := 0, uA := 0, vA := 0, uB := 0, vB := 0 }

/-- R45: the block of width `32 * (size + 1)` right after reset, nothing scheduled, nothing offered, nothing answered. -/
def State.atReset (size : Fin 1024) : State :=
  { size := size
    opa := 0, opb := 0, opm := 0, rounds := 0
    res := 0, resx := 0, resy := 0, rcnt := 0
    busy := false, done := false, err := false
    prime := false, xneg := false, yneg := false, errcode := 0
    lastcmd := 0, irqEn := 0, irqStat := 0
    pc := .idle
    work := Working.cleared
    freeCount := 0
    turns := [], offers := [], answers := [] }

/-- The machine right after reset (R45), for the instance's own width. -/
def State.reset : State :=
  State.atReset Config.size

end Sys2Proof.Machine
end

