-- ==== Sys2Proof/Machine/Operands.lean ====
section
/-! DEFINITION. Widths, and a W-bit register as an array of bus words (spec/00_scope.md R5, R6, R10;
spec/20_memory.md R62, R63; spec/30_encoding.md R93). -/

namespace Sys2Proof.Machine

/-- `NW`, the number of bus words of a W-bit register (R6). -/
def State.nw (s : State) : Nat :=
  s.size.val + 1

/-- `W`, the operand width in bits (R5). -/
def State.width (s : State) : Nat :=
  32 * s.nw

/-- `Q.w[i] = Q[32i+31 : 32i]` (R10, R62). -/
def getWord (q i : Nat) : Word :=
  BitVec.ofNat 32 (q / 2 ^ (32 * i))

/-- `Q.w[i] <- v`: the addressed word is replaced, the others keep their values (R68). -/
def setWord (q i : Nat) (v : Word) : Nat :=
  q % 2 ^ (32 * i) + v.toNat * 2 ^ (32 * i) + q / 2 ^ (32 * (i + 1)) * 2 ^ (32 * (i + 1))

/-- `Q = sum over i of Q.w[i] · 2^(32i)` (R10, R93), the first word least significant. -/
def assemble : List Word → Nat
  | [] => 0
  | v :: vs => v.toNat + 2 ^ 32 * assemble vs

/-- The `nw` bus words of a register, least significant first (R62). -/
def wordsOf (nw q : Nat) : List Word :=
  (List.range nw).map (getWord q)

/-- The byte lane `j` of a word as a little-endian bridge carries it: bits `8j+7 : 8j` (R63). -/
def byteLane (v : Word) (j : Nat) : Byte :=
  BitVec.ofNat 8 (v.toNat / 2 ^ (8 * j))

end Sys2Proof.Machine
end

