-- ==== Sys2Proof/Machine/Flags.lean ====
section
/-! DEFINITION. STATUS and the other words assembled from flags (spec/10_state.md R30, R34, R35, R38, R39), the interrupt
line (spec/60_exceptions.md R197) and `rnd_ready` (spec/20_memory.md R79). -/

namespace Sys2Proof.Machine

/-- The constant of `ID` (R34). -/
def idWord : Word :=
  0x4D584531

/-- `PARAM`: bits 15:0 hold W, bits 31:16 read as 0 (R35). -/
def State.paramWord (s : State) : Word :=
  BitVec.ofNat 32 s.width

/-- `STATUS` (R30): ERRCODE in bits 11:8, YNEG 5, XNEG 4, PRIME 3, ERR 2, DONE 1, BUSY 0, the rest 0. -/
def State.statusWord (s : State) : Word :=
  0#20 ++ s.errcode ++ 0#2 ++ BitVec.ofBool s.yneg ++ BitVec.ofBool s.xneg ++ BitVec.ofBool s.prime
    ++ BitVec.ofBool s.err ++ BitVec.ofBool s.done ++ BitVec.ofBool s.busy

/-- A two-bit register as its word: bits 31:2 read as 0 (R38, R39). -/
def twoBitWord (b : BitVec 2) : Word :=
  b.setWidth 32

/-- `DONE_IP` and `DONE_IE` (R38, R39). -/
def doneBit : BitVec 2 :=
  0b01

/-- `ERR_IP` and `ERR_IE` (R38, R39). -/
def errBit : BitVec 2 :=
  0b10

/-- The interrupt line: `(IRQ_STAT & IRQ_EN) != 0` (R39, R197). -/
def State.irq (s : State) : Bool :=
  (s.irqStat &&& s.irqEn) != 0

/-- `rnd_ready`: asserted "only in phase `MR_DRAW` with `T_J < T_K`" (R79). -/
def State.rndReady (s : State) : Bool :=
  s.pc == .mrDraw && decide (s.work.tJ < s.work.tK)

end Sys2Proof.Machine
end

