-- ==== Sys2Proof/Machine/Ops.lean ====
section
/-! DEFINITION. The operations every command shares: accept (spec/40_common.md R111), the two completions (R113, R114; the
second is the block's exception entry, spec/60_exceptions.md R201), the arithmetic of a micro-step (R11, R117, R118, R123), the
reset step (spec/70_reset_and_hazards.md R230). There is no return from an exception: the next accept clears the error
status (R203). -/

namespace Sys2Proof.Machine

/-- The working registers after a completion or a reset step: "unspecified" (R42), so free values, the `n`-th of them
(notes/assumptions/4.md). -/
def Working.free (n : Nat) : Working :=
  { tM := Config.freeNat n 0, tR := Config.freeNat n 1, tB := Config.freeNat n 2, tE := Config.freeNat n 3
    tD := Config.freeNat n 4, tS := Config.freeNat n 5, tK := Config.freeNat n 6, tJ := Config.freeNat n 7
    tT := Config.freeNat n 8, tX := Config.freeNat n 9, tA := Config.freeNat n 10
    eA := Config.freeNat n 11, eB := Config.freeNat n 12
    uA := Config.freeInt n 0, vA := Config.freeInt n 1, uB := Config.freeInt n 2, vB := Config.freeInt n 3 }

/-- The error codes (R190). -/
def CmdError.code : CmdError → BitVec 4
  | .precondition => 1
  | .noInverse => 2
  | .illegalCmd => 3

/-- R111: the accept step with command word `v`. It is performed only with `BUSY = 0` (R66). -/
def accept (s : State) (v : Word) : State :=
  { s with lastcmd := v, busy := true, done := false, err := false, errcode := 0, pc := .start }

/-- R113: the success completion, one atomic step. -/
def completeOk (s : State) (r : Result) : State :=
  { s with
    res := r.res, resx := r.x, resy := r.y
    xneg := r.xneg, yneg := r.yneg, prime := r.prime, rcnt := r.rcnt
    err := false, errcode := 0, done := true, busy := false
    irqStat := s.irqStat ||| doneBit
    pc := .idle
    work := Working.free s.freeCount, freeCount := s.freeCount + 1 }

/-- R114: the error completion, the meaning of `raise`; one atomic step and the whole of error entry (R201). -/
def completeErr (s : State) (e : CmdError) : State :=
  { s with
    res := 0, resx := 0, resy := 0
    xneg := false, yneg := false, prime := false, rcnt := 0
    err := true, errcode := e.code, done := true, busy := false
    irqStat := s.irqStat ||| errBit
    pc := .idle
    work := Working.free s.freeCount, freeCount := s.freeCount + 1 }

/-- R230: `rst` for one clock edge. Every register of the block takes its reset value (R45) and the working registers
become unspecified; the width is the instance's, and what the host and the witness source hold is theirs
(notes/assumptions/10.md). -/
def resetStep (s : State) : State :=
  { State.atReset s.size with
    work := Working.free s.freeCount, freeCount := s.freeCount + 1
    turns := s.turns, offers := s.offers, answers := s.answers }

/-- R11: `a mod m` for `m >= 1`. `a mod 0` has no defined result (R118) and is evaluated in no state that meets the
invariants; where another state asks for it, it is a free value (DESIGN CHOICE, notes/assumptions/19.md). -/
def modulo (a m : Nat) : Nat :=
  if m = 0 then Config.modByZero a else a % m

/-- R11 for an integer: the representative in `[0, m - 1]` for `m >= 1`; `x mod 0` is a free value
(DESIGN CHOICE, notes/assumptions/19.md). -/
def modInt (x : Int) (m : Nat) : Nat :=
  if m = 0 then Config.modByZeroInt x else (x % (m : Int)).toNat

/-- R117: `mulmod(u, v, m) = (u · v) mod m`, for `m >= 1`; for `m = 0`, outside the invariants, a free value
(DESIGN CHOICE, notes/assumptions/19.md). -/
def mulmod (u v m : Nat) : Nat :=
  modulo (u * v) m

/-- R123: one exponent bit of square-and-multiply; the multiply uses `T_B` from before the squaring. With `T_M = 0`,
outside the invariants, the products are free values (`mulmod`). -/
def powstep (k : Working) : Working :=
  { k with
    tR := if k.tE % 2 = 1 then mulmod k.tR k.tB k.tM else k.tR
    tB := mulmod k.tB k.tB k.tM
    tE := k.tE / 2 }

/-- R91: START decodes LASTCMD, and nothing else. -/
def fetchDecode (s : State) : Except DecodeError Instr :=
  decode s.lastcmd

/-- R112: START on an illegal word raises ILLEGAL_CMD. No other phase is reached with an illegal LASTCMD. -/
def illegalCommand (s : State) : Answer :=
  match s.pc with
  | .start => .next (completeErr s .illegalCmd)
  | p => .fault (.noMicroStep p)

end Sys2Proof.Machine
end

