-- ==== Sys2Proof/Machine/Bus.lean ====
section
/-! DEFINITION. The register window of the host bus: the address map (spec/20_memory.md R61, R69), the two primitives
(R66, R67), the effect of a performed write (R68), and a byte of the window as a bridge sees it (R63). -/

namespace Sys2Proof.Machine

/-- The register words of R61. -/
inductive RegWord where
  | id
  | param
  | cmd
  | status
  | rounds
  | irqEn
  | irqStat
  | rcnt
  | opa (i : Nat)
  | opb (i : Nat)
  | opm (i : Nat)
  | res (i : Nat)
  | resx (i : Nat)
  | resy (i : Nat)
  deriving DecidableEq, Repr

/-- The control block at `0x0000`: word `i` of it; `0x0020` to `0x0FFC` are unmapped (R61, R69). -/
def controlWord : Nat → Option RegWord
  | 0 => some .id
  | 1 => some .param
  | 2 => some .cmd
  | 3 => some .status
  | 4 => some .rounds
  | 5 => some .irqEn
  | 6 => some .irqStat
  | 7 => some .rcnt
  | _ => none

/-- Word `i` of the bank at `bank · 0x1000`, `bank` from 1 up; `0x7000` to `0x7FFC` are unmapped (R61, R69). -/
def bankWord (bank i : Nat) : Option RegWord :=
  match bank with
  | 1 => some (.opa i)
  | 2 => some (.opb i)
  | 3 => some (.opm i)
  | 4 => some (.res i)
  | 5 => some (.resx i)
  | 6 => some (.resy i)
  | _ => none

/-- The register word at an aligned byte address, or none where R69 says unmapped. -/
def regAt (nw : Nat) (a : Addr) : Option RegWord :=
  let bank := a.toNat / 0x1000
  let i := a.toNat % 0x1000 / 4
  if bank = 0 then controlWord i
  else if i < nw then bankWord bank i
  else none

/-- R64: every access must have `addr[1:0] = 0`. -/
def aligned (a : Addr) : Bool :=
  a.toNat % 4 == 0

/-- The read-only register words (R66 case 3, R70). -/
def RegWord.readOnly : RegWord → Bool
  | .id | .param | .status | .rcnt | .res _ | .resx _ | .resy _ => true
  | .cmd | .rounds | .irqEn | .irqStat | .opa _ | .opb _ | .opm _ => false

/-- The register words whose writes are refused while `BUSY = 1` (R66 case 4, R71). -/
def RegWord.busyLocked : RegWord → Bool
  | .cmd | .rounds | .opa _ | .opb _ | .opm _ => true
  | .id | .param | .status | .rcnt | .res _ | .resx _ | .resy _ | .irqEn | .irqStat => false

/-- The current value of a register word (R67 case 3). `CMD` reads as LASTCMD (R36). -/
def readReg (s : State) : RegWord → Word
  | .id => idWord
  | .param => s.paramWord
  | .cmd => s.lastcmd
  | .status => s.statusWord
  | .rounds => s.rounds
  | .irqEn => twoBitWord s.irqEn
  | .irqStat => twoBitWord s.irqStat
  | .rcnt => s.rcnt
  | .opa i => getWord s.opa i
  | .opb i => getWord s.opb i
  | .opm i => getWord s.opm i
  | .res i => getWord s.res i
  | .resx i => getWord s.resx i
  | .resy i => getWord s.resy i

/-- R68: the effect of a performed write of `v`. A read-only word is never written (R66 case 3). -/
def writeReg (s : State) (r : RegWord) (v : Word) : State :=
  match r with
  | .opa i => { s with opa := setWord s.opa i v }
  | .opb i => { s with opb := setWord s.opb i v }
  | .opm i => { s with opm := setWord s.opm i v }
  | .rounds => { s with rounds := v }
  | .irqEn => { s with irqEn := v.setWidth 2 }
  | .irqStat => { s with irqStat := s.irqStat &&& ~~~(v.setWidth 2) }
  | .cmd => accept s v
  | .id | .param | .status | .rcnt | .res _ | .resx _ | .resy _ => s

/-- `MemRead(addr, 4)` (R67). It has no effect, so it gives only the answer. -/
def busRead (s : State) (a : Addr) : BusAnswer :=
  if !aligned a then .err
  else match regAt s.nw a with
    | none => .err
    | some r => .data (readReg s r)

/-- Whether `MemWrite(addr, 4, v)` is performed, and on which word: the first case of R66 that applies decides. -/
def writeTarget (s : State) (a : Addr) : Option RegWord :=
  if !aligned a then none
  else match regAt s.nw a with
    | none => none
    | some r =>
      if r.readOnly then none
      else if s.busy && r.busyLocked then none
      else some r

/-- The answer of `MemWrite(addr, 4, v)`: "`OK` exactly when it was applied" (R66). -/
def busWriteAnswer (s : State) (a : Addr) : BusAnswer :=
  match writeTarget s a with
  | none => .err
  | some _ => .ok

/-- The effect of `MemWrite(addr, 4, v)` on the block: "a case answered `ERR` changes no state at all" (R66). -/
def busWrite (s : State) (a : Addr) (v : Word) : State :=
  match writeTarget s a with
  | none => s
  | some r => writeReg s r v

/-- The byte at byte address `a` of the window, as a little-endian bridge carries it: byte lane `a mod 4` of the word
at the aligned address below (R63); none where that word is unmapped. -/
def byteAt (s : State) (a : Addr) : Option Byte :=
  match busRead s (BitVec.ofNat 15 (a.toNat / 4 * 4)) with
  | .data v => some (byteLane v (a.toNat % 4))
  | _ => none

/-- The host performs a read: the answer joins its record, nothing else changes (R67). -/
def hostRead (s : State) (a : Addr) : State :=
  { s with answers := busRead s a :: s.answers }

/-- The host performs a write: its effect on the block, and the answer joins the host's record (R66). -/
def hostWrite (s : State) (a : Addr) (v : Word) : State :=
  { busWrite s a v with answers := busWriteAnswer s a :: s.answers }

/-- The witness source offers a word; the port keeps it until the engine takes it (R79). -/
def offerWord (s : State) (r : Nat) : State :=
  { s with offers := s.offers ++ [r] }

/-- The turns that are not the host's: between two polls of WAIT "engine micro-steps and `RND` lines may fall" (R99). -/
def Turn.betweenPolls : Turn → Bool
  | .engine | .offer _ => true
  | .read _ | .write _ _ | .reset | .wait _ => false

/-- The turns to come after a poll of WAIT that showed `BUSY = 1` (R99), `ts` being those listed after the WAIT. The other
agents' turns at their head may fall before the next poll: as many as the next gap says, then the poll. With no gap left
all of them do, and one engine turn more, so that no WAIT starves the engine (R115; notes/assumptions/8.md). -/
def pollAgain (gaps : List Nat) (ts : List Turn) : List Turn :=
  let others := ts.takeWhile Turn.betweenPolls
  let rest := ts.dropWhile Turn.betweenPolls
  match gaps with
  | n :: gaps => others.take n ++ .wait gaps :: (others.drop n ++ rest)
  | [] => others ++ .engine :: .wait [] :: rest

/-- One poll of WAIT (R99): a read of STATUS; if it shows `BUSY = 1` the host polls again after turns of the other
agents. The last answer, which the host's record keeps, is the line's value `s`. -/
def hostWait (s : State) (gaps : List Nat) : State :=
  let t := hostRead s 0x000C
  if s.busy then { t with turns := pollAgain gaps t.turns } else t

end Sys2Proof.Machine
end

