-- ==== Sys2Proof/Machine/Euclid.lean ====
section
/-! DEFINITION. EGCD, MODINV and GCD (spec/43_euclid.md): their START arms, the shared loop, their last micro-steps, and
each command as its micro-steps. -/

namespace Sys2Proof.Machine

/-- The Euclid registers at the start of a command on the pair `(a, b)` (R171, R176, R179). -/
def euclidStart (k : Working) (a b : Nat) : Working :=
  { k with eA := a, eB := b, uA := 1, vA := 0, uB := 0, vB := 1 }

/-- R171: `start_egcd`. -/
def startEgcd (s : State) : State :=
  { s with work := euclidStart s.work s.opa s.opb, pc := .euLoop }

/-- R176: `start_modinv`. -/
def startModinv (s : State) : State :=
  if s.opm = 0 then completeErr s .precondition
  else { s with work := { euclidStart s.work s.opa s.opm with tM := s.opm }, pc := .euLoop }

/-- R179: `start_gcd`. The coefficients "may be set as in rule R171 or left alone"; they are set
(DESIGN CHOICE, notes/assumptions/13.md). -/
def startGcd (s : State) : State :=
  { s with work := euclidStart s.work s.opa s.opb, pc := .euLoop }

/-- R172: one Euclid division; all right-hand sides read the old values. `euLoop` performs it only with `E_A ≠ 0`. -/
def euclidDivide (k : Working) : Working :=
  { k with
    eA := k.eB % k.eA, eB := k.eA
    uA := k.uB - (k.eB / k.eA : Nat) * k.uA, uB := k.uA
    vA := k.vB - (k.eB / k.eA : Nat) * k.vA, vB := k.vA }

/-- R172: the last phase of the command that LASTCMD[3:0] names; "no other value reaches EU_LOOP". -/
def euclidDone (c : Word) : Option Phase :=
  match opField c with
  | 3 => some .euDoneInv
  | 4 => some .euDoneEgcd
  | 5 => some .euDoneGcd
  | _ => none

/-- R172: the `EU_LOOP` micro-step. -/
def euLoop (s : State) : Answer :=
  if s.work.eA = 0 then
    match euclidDone s.lastcmd with
    | some p => .next { s with pc := p }
    | none => .fault .euclidWithoutCommand
  else .next { s with work := euclidDivide s.work }

/-- R173: the `EU_DONE_EGCD` micro-step: magnitudes and signs of the coefficients. -/
def euDoneEgcd (s : State) : State :=
  completeOk s
    { res := s.work.eB
      x := s.work.uB.natAbs, xneg := decide (s.work.uB < 0)
      y := s.work.vB.natAbs, yneg := decide (s.work.vB < 0) }

/-- R177: the `EU_DONE_INV` micro-step. With `T_M = 0`, outside the invariants, `RES` takes a free value
(DESIGN CHOICE, notes/assumptions/19.md). -/
def euDoneInv (s : State) : State :=
  if s.work.eB ≠ 1 then completeErr s .noInverse
  else completeOk s { res := modInt s.work.uB s.work.tM }

/-- R179: the `EU_DONE_GCD` micro-step. -/
def euDoneGcd (s : State) : State :=
  completeOk s { res := s.work.eB }

/-- EGCD: one micro-step of the command, the one of its phase (R112, R121). -/
def execEgcd (s : State) : Answer :=
  match s.pc with
  | .start => .next (startEgcd s)
  | .euLoop => euLoop s
  | .euDoneEgcd => .next (euDoneEgcd s)
  | p => .fault (.noMicroStep p)

/-- MODINV: one micro-step of the command, the one of its phase (R112, R121). -/
def execModinv (s : State) : Answer :=
  match s.pc with
  | .start => .next (startModinv s)
  | .euLoop => euLoop s
  | .euDoneInv => .next (euDoneInv s)
  | p => .fault (.noMicroStep p)

/-- GCD: one micro-step of the command, the one of its phase (R112, R121). -/
def execGcd (s : State) : Answer :=
  match s.pc with
  | .start => .next (startGcd s)
  | .euLoop => euLoop s
  | .euDoneGcd => .next (euDoneGcd s)
  | p => .fault (.noMicroStep p)

end Sys2Proof.Machine
end

