-- ==== Sys2Proof/Machine/MillerRabin.lean ====
section
/-! DEFINITION. MRTEST (spec/42_miller_rabin.md): START's arm, the four loop phases, and the command as its
micro-steps. -/

namespace Sys2Proof.Machine

/-- R151: `start_mrtest`. -/
def startMrtest (s : State) : State :=
  if s.opm < 2 ∨ s.rounds = 0 then completeErr s .precondition
  else if s.opm = 2 then completeOk s { prime := true }
  else if s.opm % 2 = 0 then completeOk s { prime := false }
  else
    { s with
      work := { s.work with tM := s.opm, tK := s.rounds.toNat, tD := s.opm - 1, tS := 0, tJ := 0 }
      pc := .mrDecomp }

/-- R152: the `MR_DECOMP` micro-step. -/
def mrDecomp (s : State) : State :=
  if s.work.tD % 2 = 0 then { s with work := { s.work with tD := s.work.tD / 2, tS := s.work.tS + 1 } }
  else { s with pc := .mrDraw }

/-- R156: the witness of a round, `a = 2 + (r mod (n - 2))`, for `n >= 3`. For `n <= 2`, outside the invariants, the
spec gives no such remainder (R11, R118) and a free value stands for it (DESIGN CHOICE, notes/assumptions/19.md). -/
def witness (n r : Nat) : Nat :=
  2 + modulo r (n - 2)

/-- R153: the start of a round on witness word `r`, `rest` staying on offer. -/
def mrTake (s : State) (r : Nat) (rest : List Nat) : State :=
  { s with
    work := { s.work with
      tA := witness s.work.tM r, tJ := s.work.tJ + 1, tR := 1, tB := witness s.work.tM r, tE := s.work.tD }
    offers := rest
    pc := .mrPow }

/-- R153: the `MR_DRAW` micro-step. Where a round is left and no word is offered it is not enabled: the engine holds in
`MR_DRAW` (R79, R236; notes/assumptions/6.md). -/
def mrDraw (s : State) : State :=
  if s.work.tJ = s.work.tK then completeOk s { prime := true, rcnt := BitVec.ofNat 32 s.work.tK }
  else match s.offers with
    | [] => s
    | r :: rest => mrTake s r rest

/-- R154: the `MR_POW` micro-step. -/
def mrPow (s : State) : State :=
  if s.work.tE ≠ 0 then { s with work := powstep s.work }
  else if s.work.tR = 1 then { s with pc := .mrDraw }
  else { s with work := { s.work with tX := s.work.tR, tT := 0 }, pc := .mrCheck }

/-- R155: the `MR_CHECK` micro-step. `T_X = T_M - 1` and `T_T = T_S - 1` are integer equations, written without a
subtraction. -/
def mrCheck (s : State) : State :=
  if s.work.tX + 1 = s.work.tM then { s with pc := .mrDraw }
  else if s.work.tT + 1 = s.work.tS then completeOk s { prime := false, rcnt := BitVec.ofNat 32 s.work.tJ }
  else { s with work := { s.work with tX := mulmod s.work.tX s.work.tX s.work.tM, tT := s.work.tT + 1 } }

/-- MRTEST: one micro-step of the command, the one of its phase (R112, R121). -/
def execMrtest (s : State) : Answer :=
  match s.pc with
  | .start => .next (startMrtest s)
  | .mrDecomp => .next (mrDecomp s)
  | .mrDraw => .next (mrDraw s)
  | .mrPow => .next (mrPow s)
  | .mrCheck => .next (mrCheck s)
  | p => .fault (.noMicroStep p)

end Sys2Proof.Machine
end

