-- ==== Sys2Proof/Machine/Modexp.lean ====
section
/-! DEFINITION. MODEXP (spec/41_modexp.md): START's arm, the loop, and the command as its micro-steps. -/

namespace Sys2Proof.Machine

/-- R141: `start_modexp`. -/
def startModexp (s : State) : State :=
  if s.opm = 0 then completeErr s .precondition
  else
    { s with
      work := { s.work with tM := s.opm, tR := 1 % s.opm, tB := s.opa % s.opm, tE := s.opb }
      pc := .meLoop }

/-- R142: the `ME_LOOP` micro-step. -/
def meLoop (s : State) : State :=
  if s.work.tE = 0 then completeOk s { res := s.work.tR }
  else { s with work := powstep s.work }

/-- MODEXP: one micro-step of the command, the one of its phase (R112, R121). -/
def execModexp (s : State) : Answer :=
  match s.pc with
  | .start => .next (startModexp s)
  | .meLoop => .next (meLoop s)
  | p => .fault (.noMicroStep p)

end Sys2Proof.Machine
end

