-- ==== Sys2Proof/Machine/Dispatch.lean ====
section
/-! DEFINITION. One arm per command: START dispatches on the decoded word (spec/40_common.md R112), and a later micro-step of
a command is its own meaning's again. -/

namespace Sys2Proof.Machine

def exec (i : Instr) (s : State) : Host.Outcome State Fault Refusal :=
  match i with
  | .modexp => Sys2Proof.Machine.execModexp s
  | .mrtest => Sys2Proof.Machine.execMrtest s
  | .modinv => Sys2Proof.Machine.execModinv s
  | .egcd => Sys2Proof.Machine.execEgcd s
  | .gcd => Sys2Proof.Machine.execGcd s

end Sys2Proof.Machine
end

