-- ==== Sys2Proof/Machine/Step.lean ====
section
/-! DEFINITION. One step of the single order of all steps (spec/20_memory.md R74): the head of `turns` says whose it is;
where `turns` is empty it is the engine's (notes/assumptions/5.md). -/

namespace Sys2Proof.Machine

/-- The engine's turn: nothing in IDLE (R28), else the micro-step of the command in LASTCMD (R112, R121). -/
def engineTurn (s : State) : Answer :=
  match s.pc with
  | .idle => .next s
  | _ =>
    match fetchDecode s with
    | .ok i => exec i s
    | .error _ => illegalCommand s

/-- One step: the turn at the head of the list is taken off it and performed. -/
def step (s : State) : Host.Outcome State Fault Refusal :=
  match s.turns with
  | [] => engineTurn s
  | .engine :: ts => engineTurn { s with turns := ts }
  | .read a :: ts => .next (hostRead { s with turns := ts } a)
  | .write a v :: ts => .next (hostWrite { s with turns := ts } a v)
  | .offer r :: ts => .next (offerWord { s with turns := ts } r)
  | .reset :: ts => .next (resetStep { s with turns := ts })
  | .wait gaps :: ts => .next (hostWait { s with turns := ts } gaps)

/-- `s` with the command word `w` accepted (R111) and the next turn the engine's, so that the very next step decodes and
runs it (notes/assumptions/12.md). -/
def State.withFetchWord (s : State) (nbits w : Nat) : State :=
  accept { s with turns := [] } (tableWord nbits w)

end Sys2Proof.Machine
end

