-- ==== Sys2Proof/Machine/HostNotation.lean ====
section
/-! DEFINITION. The host's notation (spec/30_encoding.md R98, R99): each line as the turns it stands for and the answers it
expects, the schedules of a host program, and which host programs are well formed (spec/70_reset_and_hazards.md R241). -/

namespace Sys2Proof.Machine

/-- The six W-bit registers, by bank. -/
inductive WideReg where
  | opa
  | opb
  | opm
  | res
  | resx
  | resy
  deriving DecidableEq, Repr

/-- R61: the byte address of a register's word 0. -/
def WideReg.base : WideReg → Nat
  | .opa => 0x1000
  | .opb => 0x2000
  | .opm => 0x3000
  | .res => 0x4000
  | .resx => 0x5000
  | .resy => 0x6000

/-- R98: `Q[i]` means the bank's base plus `4i`. -/
def WideReg.addr (q : WideReg) (i : Nat) : Addr :=
  BitVec.ofNat 15 (q.base + 4 * i)

/-- R99: what `LD` loads, "`Q` one of `OPA`, `OPB`, `OPM`". -/
inductive OperandReg where
  | opa
  | opb
  | opm
  deriving DecidableEq, Repr

/-- The bank of an operand register. -/
def OperandReg.wide : OperandReg → WideReg
  | .opa => .opa
  | .opb => .opb
  | .opm => .opm

/-- R99: what `GET` collects, "`Q` one of `RES`, `RESX`, `RESY`". -/
inductive ResultReg where
  | res
  | resx
  | resy
  deriving DecidableEq, Repr

/-- The bank of a result register. -/
def ResultReg.wide : ResultReg → WideReg
  | .res => .res
  | .resx => .resx
  | .resy => .resy

/-- The primitive lines (R98) and the pseudo-lines (R99). -/
inductive Line where
  /-- `WR addr, v` -/
  | wr (a : Addr) (v : Word)
  /-- `WR! addr, v` -/
  | wrErr (a : Addr) (v : Word)
  /-- `RD addr -> v` -/
  | rd (a : Addr) (v : Word)
  /-- `RD! addr` -/
  | rdErr (a : Addr)
  /-- `CMD <mnemonic>` -/
  | cmd (i : Instr)
  /-- `RND r` -/
  | rnd (r : Nat)
  /-- `RESET` -/
  | rst
  /-- `LD Q, value` -/
  | ld (q : OperandReg) (value : Nat)
  /-- `LDK k` -/
  | ldk (k : Word)
  /-- `WAIT`, `s` being the last value read, which the line keeps -/
  | wait (s : Word)
  /-- `GET Q -> value` -/
  | get (q : ResultReg) (value : Nat)
  /-- `ACK v` -/
  | ack (v : Word)
  deriving DecidableEq, Repr

/-- R98, R99: the turns a line stands for on a block with `nw` words per register. The repetition of WAIT's read is
`hostWait`'s; which turns fall between its reads is the schedule's (`schedules`). -/
def Line.turns (nw : Nat) : Line → List Turn
  | .wr a v => [.write a v]
  | .wrErr a v => [.write a v]
  | .rd a _ => [.read a]
  | .rdErr a => [.read a]
  | .cmd i => [.write 0x0008 (encode i)]
  | .rnd r => [.offer r]
  | .rst => [.reset]
  | .ld q value => (List.range nw).map fun i => .write (q.wide.addr i) (getWord value i)
  | .ldk k => [.write 0x0010 k]
  | .wait _ => [.wait []]
  | .get q _ => (List.range nw).map fun i => .read (q.wide.addr i)
  | .ack v => [.write 0x0018 v]

/-- R98, R99: the answers a line expects, in the order of its transactions; of WAIT's, only the last, since the reads that
showed `BUSY = 1` before it may be any number. -/
def Line.expects (nw : Nat) : Line → List BusAnswer
  | .wr _ _ => [.ok]
  | .wrErr _ _ => [.err]
  | .rd _ v => [.data v]
  | .rdErr _ => [.err]
  | .cmd _ => [.ok]
  | .rnd _ => []
  | .rst => []
  | .ld _ _ => List.replicate nw .ok
  | .ldk _ => [.ok]
  | .wait s => [.data s]
  | .get _ value => (wordsOf nw value).map .data
  | .ack _ => [.ok]

/-- What follows the expected answers; none where the answers are others. -/
def afterAnswers : (expected answers : List BusAnswer) → Option (List BusAnswer)
  | [], as => some as
  | _ :: _, [] => none
  | e :: es, a :: as => if a = e then afterAnswers es as else none

/-- R99: WAIT's reads that showed `BUSY = 1`, any number of them, are passed over. -/
def afterBusyReads : List BusAnswer → List BusAnswer
  | .data v :: as => if v.getLsbD 0 then afterBusyReads as else .data v :: as
  | as => as

/-- The answers that follow a line's own, the oldest first; none where the line's are not as R98 and R99 have it: a WAIT
ends with the first read that shows `BUSY = 0`, and a GET gives `sum of v_i · 2^(32i)`, a value of `nw` words. -/
def Line.consume (nw : Nat) (l : Line) (answers : List BusAnswer) : Option (List BusAnswer) :=
  match l with
  | .wait s => if s.getLsbD 0 then none else afterAnswers [.data s] (afterBusyReads answers)
  | .get q value =>
    if value < 2 ^ (32 * nw) then afterAnswers ((Line.get q value).expects nw) answers else none
  | l => afterAnswers (l.expects nw) answers

/-- Whether the answers a host received, the oldest first, are those its program expects. -/
def programMet (nw : Nat) : List Line → List BusAnswer → Bool
  | [], as => as.isEmpty
  | l :: ls, as =>
    match l.consume nw as with
    | some rest => programMet nw ls rest
    | none => false

/-- The turns of a host program, those of the engine left out. -/
def programTurns (nw : Nat) (p : List Line) : List Turn :=
  p.flatMap (Line.turns nw)

/-- A turn as the program's text has it: the text names no turn of the engine, and not what falls between WAIT's reads. -/
def Turn.inProgram : Turn → Option Turn
  | .engine => none
  | .wait _ => some (.wait [])
  | u => some u

/-- R74, R99, R115: `ts` is an order of steps that performs the program `p`: its own turns in its order, with engine turns
put in anywhere, and with any choice of what falls between the reads of each WAIT. -/
def schedules (nw : Nat) (p : List Line) (ts : List Turn) : Prop :=
  ts.filterMap Turn.inProgram = programTurns nw p

/-- The addresses of CMD, ROUNDS and the operand words of a block with `nw` words per register, the writes to which R241
forbids between a command and its WAIT. A misaligned or unmapped address is none of them: a write to it writes none of
those registers (R66). -/
def lockedAddr (nw : Nat) (a : Addr) : Bool :=
  aligned a && match regAt nw a with
    | some r => r.busyLocked
    | none => false

/-- Whether a line writes CMD, ROUNDS, OPA, OPB or OPM. -/
def Line.writesLocked (nw : Nat) : Line → Bool
  | .wr a _ | .wrErr a _ => lockedAddr nw a
  | .cmd _ | .ldk _ | .ld _ _ => true
  | .rd _ _ | .rdErr _ | .rnd _ | .rst | .wait _ | .get _ _ | .ack _ => false

/-- Whether a line writes CMD. -/
def Line.issues : Line → Bool
  | .wr a _ | .wrErr a _ => a == 0x0008
  | .cmd _ => true
  | .rd _ _ | .rdErr _ | .rnd _ | .rst | .ld _ _ | .ldk _ | .wait _ | .get _ _ | .ack _ => false

/-- Whether a line is WAIT. -/
def Line.isWait : Line → Bool
  | .wait _ => true
  | .wr _ _ | .wrErr _ _ | .rd _ _ | .rdErr _ | .cmd _ | .rnd _ | .rst | .ld _ _ | .ldk _ | .get _ _ | .ack _ => false

/-- R241's condition, `pending` saying that a command has been issued and no WAIT has followed. -/
def wellFormedFrom (nw : Nat) : (pending : Bool) → List Line → Bool
  | pending, [] => !pending
  | pending, l :: ls =>
    if l.isWait then wellFormedFrom nw false ls
    else !(pending && l.writesLocked nw) && wellFormedFrom nw (pending || l.issues) ls

/-- R241: "every `CMD` is followed by a `WAIT` before the next write to `CMD`, `ROUNDS`, `OPA`, `OPB` or `OPM` and before
the program's end", on a block with `nw` words per register. -/
def wellFormedProgram (nw : Nat) (p : List Line) : Bool :=
  wellFormedFrom nw false p

/-- R241: a run of a host program "ends when its last line has been performed": no turn of it is left. -/
def State.runEnded (s : State) : Bool :=
  s.turns.isEmpty

end Sys2Proof.Machine
end

