-- ==== Sys2Proof/Machine/CommandLevel.lean ====
section
/-! DEFINITION. The command level (spec/00_scope.md R9): each command as one function from the operand registers and the
witness words on offer to the state after its completion. `exec` does not use it; statements say that the micro-steps
agree with it. -/

namespace Sys2Proof.Machine

/-- R140: MODEXP. -/
def modexpCommand (s : State) : State :=
  if s.opm = 0 then completeErr s .precondition
  else completeOk s { res := s.opa ^ s.opb % s.opm }

/-- Halve while even, counting (R152's loop, run to its end): `fuel` bounds the halvings. -/
def halvings : Nat → Nat → Nat × Nat
  | 0, d => (0, d)
  | fuel + 1, d =>
    if d % 2 = 0 then
      let (t, e) := halvings fuel (d / 2)
      (t + 1, e)
    else (0, d)

/-- R150: "the unique pair with n - 1 = 2^s · d, d odd", for `n >= 2`. -/
def decomposition (n : Nat) : Nat × Nat :=
  halvings n (n - 1)

/-- R150: `x_i`, that is `x` squared `i` times modulo `n`. -/
def squares (n x : Nat) : Nat → Nat
  | 0 => x
  | i + 1 => mulmod (squares n x i) (squares n x i) n

/-- R150: `round_passes(n, s, d, a)`: `x_0 = 1`, or `x_i = n - 1` for some `i` in `0 .. s - 1`, where `n >= 3`. -/
def roundPasses (n t d a : Nat) : Bool :=
  modulo (a ^ d) n == 1 || (List.range t).any fun i => squares n (modulo (a ^ d) n) i == n - 1

/-- R150: what the rounds of MRTEST come to. -/
inductive Rounds where
  /-- every round passed; `rest` is still on offer -/
  | passed (rest : List Nat)
  /-- round `j` failed; `rest` is still on offer -/
  | failed (j : Nat) (rest : List Nat)
  /-- a round is left and no word is on offer: the command has not completed (R236) -/
  | waiting
  deriving DecidableEq, Repr

/-- R150: rounds `j + 1` to `j + k`, each taking one word. -/
def runRounds (n t d : Nat) : (k j : Nat) → List Nat → Rounds
  | 0, _, ws => .passed ws
  | _ + 1, _, [] => .waiting
  | k + 1, j, r :: ws =>
    if roundPasses n t d (witness n r) then runRounds n t d k (j + 1) ws else .failed (j + 1) ws

/-- R150: MRTEST on the words on offer; none where they do not suffice for it to complete. -/
def mrtestCommand (s : State) : Option State :=
  if s.opm < 2 ∨ s.rounds = 0 then some (completeErr s .precondition)
  else if s.opm = 2 then some (completeOk s { prime := true })
  else if s.opm % 2 = 0 then some (completeOk s { prime := false })
  else
    match runRounds s.opm (decomposition s.opm).1 (decomposition s.opm).2 s.rounds.toNat 0 s.offers with
    | .passed rest => some (completeOk { s with offers := rest } { prime := true, rcnt := s.rounds })
    | .failed j rest => some (completeOk { s with offers := rest } { prime := false, rcnt := BitVec.ofNat 32 j })
    | .waiting => none

/-- R170's recursion, `fuel` bounding its depth; the first argument falls at each call. -/
def egcdRec : Nat → Nat → Nat → Nat × Int × Int
  | 0, _, b => (b, 0, 1)
  | fuel + 1, a, b =>
    if a = 0 then (b, 0, 1)
    else
      let (g, x, y) := egcdRec fuel (b % a) a
      (g, y - (b / a : Nat) * x, x)

/-- R170: `egcd(a, b) = (g, x, y)`. -/
def egcd (a b : Nat) : Nat × Int × Int :=
  egcdRec a a b

/-- R170: EGCD. -/
def egcdCommand (s : State) : State :=
  let (g, x, y) := egcd s.opa s.opb
  completeOk s { res := g, x := x.natAbs, xneg := decide (x < 0), y := y.natAbs, yneg := decide (y < 0) }

/-- R175: MODINV. -/
def modinvCommand (s : State) : State :=
  if s.opm = 0 then completeErr s .precondition
  else
    let (g, x, _) := egcd s.opa s.opm
    if g ≠ 1 then completeErr s .noInverse
    else completeOk s { res := modInt x s.opm }

/-- R178: GCD, `gcd(0, 0) = 0`. -/
def gcdCommand (s : State) : State :=
  completeOk s { res := Nat.gcd s.opa s.opb }

/-- The command level of each command (R9). -/
def commandLevel (i : Instr) (s : State) : Option State :=
  match i with
  | .modexp => some (modexpCommand s)
  | .mrtest => mrtestCommand s
  | .modinv => some (modinvCommand s)
  | .egcd => some (egcdCommand s)
  | .gcd => some (gcdCommand s)

end Sys2Proof.Machine
end

