-- ==== Sys2Proof/Safety.lean ====
section
/-! DEFINITION. What statements use to say that a state is one the machine keeps to: the invariants of spec/10_state.md R46,
the phases of each command (spec/40_common.md R121), and the ranges of the registers (R120, spec/43_euclid.md R180). -/

namespace Sys2Proof.Machine

/-- `k` steps of the machine as the host's interface runs them, stopping at a fault or a refusal. -/
def run (k : Nat) (s : State) : Answer :=
  Host.Core.run core k s

/-- R27, R121: the phases a command passes through between START and completion. -/
def phasesOf : Instr → List Phase
  | .modexp => [.meLoop]
  | .mrtest => [.mrDecomp, .mrDraw, .mrPow, .mrCheck]
  | .modinv => [.euLoop, .euDoneInv]
  | .egcd => [.euLoop, .euDoneEgcd]
  | .gcd => [.euLoop, .euDoneGcd]

/-- R46 (a), (b): `BUSY` says that a command is in progress, and then `DONE` and `ERR` are 0. -/
structure BusyInv (s : State) : Prop where
  busyIff : s.busy = true ↔ s.pc ≠ .idle
  notDone : s.busy = true → s.done = false
  notErr : s.busy = true → s.err = false

/-- R46 (c), R190: `ERR` goes with a code of 1 to 3, and nothing else is delivered with an error. -/
structure ErrInv (s : State) : Prop where
  errIff : s.err = true ↔ s.errcode ≠ 0
  codeRange : s.errcode.toNat ≤ 3
  errDone : s.err = true → s.done = true
  errClears : s.err = true → s.prime = false ∧ s.xneg = false ∧ s.yneg = false ∧
    s.res = 0 ∧ s.resx = 0 ∧ s.resy = 0 ∧ s.rcnt = 0

/-- R46 (d), (e): a negative coefficient is not 0, and `PRIME` outside a running command is MRTEST's. -/
structure FlagInv (s : State) : Prop where
  xnegNonzero : s.xneg = true → s.resx ≠ 0
  ynegNonzero : s.yneg = true → s.resy ≠ 0
  primeIsMrtest : s.prime = true → s.busy = false → s.lastcmd = encode .mrtest

/-- R121: in a loop phase LASTCMD is a command that has that phase. -/
def PhaseInv (s : State) : Prop :=
  s.pc = .idle ∨ s.pc = .start ∨ ∃ i, decode s.lastcmd = .ok i ∧ s.pc ∈ phasesOf i

/-- R5: every W-bit register and every word on offer or to be offered is below `2 ^ W`. -/
structure WidthInv (s : State) : Prop where
  opa : s.opa < 2 ^ s.width
  opb : s.opb < 2 ^ s.width
  opm : s.opm < 2 ^ s.width
  res : s.res < 2 ^ s.width
  resx : s.resx < 2 ^ s.width
  resy : s.resy < 2 ^ s.width
  offers : ∀ r ∈ s.offers, r < 2 ^ s.width
  turns : ∀ r, Turn.offer r ∈ s.turns → r < 2 ^ s.width

/-- R120, R123: the square-and-multiply registers in `ME_LOOP` and `MR_POW`, with modulus `m` and width `w`. -/
structure PowInv (m w : Nat) (k : Working) : Prop where
  modulus : k.tM = m
  positive : 1 ≤ m
  accumulator : k.tR < m
  base : k.tB < m
  exponent : k.tE < 2 ^ w

/-- R151, R152: what MRTEST's registers hold from `MR_DECOMP` on, for the candidate `n` and `c` rounds. -/
structure DecompInv (n c : Nat) (k : Working) : Prop where
  modulus : k.tM = n
  odd : n % 2 = 1
  large : 3 ≤ n
  rounds : k.tK = c
  split : 2 ^ k.tS * k.tD = n - 1
  started : k.tJ ≤ k.tK

/-- R152 "On leaving": the odd part is odd and at least one halving was counted. -/
structure SplitInv (n c : Nat) (k : Working) : Prop extends DecompInv n c k where
  oddPart : k.tD % 2 = 1
  halved : 1 ≤ k.tS

/-- R153, R156: a round is in progress. -/
structure RoundInv (n c : Nat) (k : Working) : Prop extends SplitInv n c k where
  begun : 1 ≤ k.tJ
  witnessLow : 2 ≤ k.tA
  witnessHigh : k.tA < n

/-- The second operand of the Euclid command in LASTCMD: `OPM` for MODINV, `OPB` for EGCD and GCD (R171, R176, R179). -/
def euclidSecond (s : State) : Nat :=
  if opField s.lastcmd = 3 then s.opm else s.opb

/-- R172, R180: the Euclid registers against the operands `a`, `b`. `crossU` and `crossV` are the identities from which
the bounds of R180 follow at each division; the sign conditions say that the two coefficients of a column never
have the same sign. -/
structure EuclidInv (a b : Nat) (k : Working) : Prop where
  first : (k.eA : Int) = k.uA * a + k.vA * b
  second : (k.eB : Int) = k.uB * a + k.vB * b
  gcd : Nat.gcd k.eA k.eB = Nat.gcd a b
  crossU : k.uA.natAbs * k.eB + k.uB.natAbs * k.eA = b
  crossV : k.vA.natAbs * k.eB + k.vB.natAbs * k.eA = a
  signU : k.uA * k.uB ≤ 0
  signV : k.vA * k.vB ≤ 0
  boundUA : k.uA.natAbs ≤ max b 1
  boundUB : k.uB.natAbs ≤ max b 1
  boundVA : k.vA.natAbs ≤ max a 1
  boundVB : k.vB.natAbs ≤ max a 1

/-- R177: MODINV keeps its modulus in `T_M`. -/
def ModulusInv (s : State) : Prop :=
  opField s.lastcmd = 3 → s.work.tM = s.opm ∧ 1 ≤ s.opm

/-- What the working registers satisfy in each phase; nothing in IDLE and START, where they are unspecified (R42). -/
def WorkInv (s : State) : Prop :=
  match s.pc with
  | .idle => True
  | .start => True
  | .meLoop => PowInv s.opm s.width s.work
  | .mrDecomp => DecompInv s.opm s.rounds.toNat s.work
  | .mrDraw => SplitInv s.opm s.rounds.toNat s.work
  | .mrPow => RoundInv s.opm s.rounds.toNat s.work ∧ PowInv s.opm s.width s.work
  | .mrCheck => RoundInv s.opm s.rounds.toNat s.work ∧ s.work.tX < s.opm ∧ s.work.tT < s.work.tS
  | .euLoop => EuclidInv s.opa (euclidSecond s) s.work ∧ ModulusInv s
  | .euDoneEgcd => EuclidInv s.opa (euclidSecond s) s.work ∧ ModulusInv s ∧ s.work.eA = 0
  | .euDoneInv => EuclidInv s.opa (euclidSecond s) s.work ∧ ModulusInv s ∧ s.work.eA = 0
  | .euDoneGcd => EuclidInv s.opa (euclidSecond s) s.work ∧ ModulusInv s ∧ s.work.eA = 0

/-- Everything above together: what every state that the machine reaches from reset satisfies. -/
structure Inv (s : State) : Prop where
  busy : BusyInv s
  err : ErrInv s
  flag : FlagInv s
  phase : PhaseInv s
  width : WidthInv s
  work : WorkInv s

/-- R69: the byte addresses that hold no register word, on a block with `nw` words per register. -/
abbrev unmappedAddr (nw n : Nat) : Prop :=
  (0x0020 ≤ n ∧ n < 0x1000) ∨ (0x1000 ≤ n ∧ n < 0x7000 ∧ 4 * nw ≤ n % 0x1000) ∨ 0x7000 ≤ n

/-- R66 case 3: the addresses of read-only register words, ID, PARAM, STATUS, RCNT and the three result banks. -/
abbrev readOnlyAddr (n : Nat) : Prop :=
  n = 0x0000 ∨ n = 0x0004 ∨ n = 0x000C ∨ n = 0x001C ∨ (0x4000 ≤ n ∧ n < 0x7000)

/-- R66 case 4: the addresses of CMD, ROUNDS and the three operand banks. -/
abbrev busyLockedAddr (n : Nat) : Prop :=
  n = 0x0008 ∨ n = 0x0010 ∨ (0x1000 ≤ n ∧ n < 0x4000)

/-- The addresses of the bytes that a completion may change: STATUS, IRQ_STAT, RCNT and the three result banks
(R113, R114). -/
abbrev resultByte (n : Nat) : Prop :=
  (0x000C ≤ n ∧ n < 0x0010) ∨ (0x0018 ≤ n ∧ n < 0x0020) ∨ (0x4000 ≤ n ∧ n < 0x7000)

/-- R121: the phases the micro-step of each phase may lead to. -/
def nextPhases : Phase → List Phase
  | .idle => [.idle]
  | .start => [.meLoop, .mrDecomp, .euLoop, .idle]
  | .meLoop => [.meLoop, .idle]
  | .mrDecomp => [.mrDecomp, .mrDraw]
  | .mrDraw => [.mrPow, .idle]
  | .mrPow => [.mrPow, .mrDraw, .mrCheck]
  | .mrCheck => [.mrCheck, .mrDraw, .idle]
  | .euLoop => [.euLoop, .euDoneEgcd, .euDoneInv, .euDoneGcd]
  | .euDoneEgcd => [.idle]
  | .euDoneInv => [.idle]
  | .euDoneGcd => [.idle]

/-- The registers of the block that a host can read (R61, R67), as one record: two states that agree on it cannot be told
apart by any bus read. -/
structure Visible where
  size : Fin 1024
  operands : Nat × Nat × Nat × Word
  results : Nat × Nat × Nat × Word
  flags : Bool × Bool × Bool × Bool × Bool × Bool × BitVec 4
  control : Word × BitVec 2 × BitVec 2
  deriving DecidableEq, Repr

/-- The host-readable registers of a state. -/
def State.visible (s : State) : Visible :=
  { size := s.size
    operands := (s.opa, s.opb, s.opm, s.rounds)
    results := (s.res, s.resx, s.resy, s.rcnt)
    flags := (s.busy, s.done, s.err, s.prime, s.xneg, s.yneg, s.errcode)
    control := (s.lastcmd, s.irqEn, s.irqStat) }

/-- R241: the end state of a run, "the engine's architectural state at that moment (`10_state.md` rule R20 without the
working registers)": the host-readable registers and `pc`. -/
structure EndState where
  visible : Visible
  pc : Phase
  deriving DecidableEq, Repr

/-- R241: the end state that the machine's state stands for. -/
def State.endState (s : State) : EndState :=
  { visible := s.visible, pc := s.pc }

end Sys2Proof.Machine
end

