-- ==== Sys2Proof/Certificates/Slice0/Obligations.lean ====
section
/-! DEFINITION. The statements for the provers. Each docstring names the rule of spec/ it formalises; a clause that rests on
an inference the spec marks as its own, or on a choice of the model, says so. -/

open Sys2Proof Sys2Proof.Machine

/-! ## Encoding (spec/30_encoding.md) -/

/-- R92, R91: the five command words decode to their commands; the words of vector V36 (spec/95_test_vectors.md) and
opcode 0 do not. -/
def Obligations.CommandWordsDecode : Prop :=
  decode 0x00000001 = .ok .modexp ∧ decode 0x00000002 = .ok .mrtest ∧ decode 0x00000003 = .ok .modinv ∧
  decode 0x00000004 = .ok .egcd ∧ decode 0x00000005 = .ok .gcd ∧
  decode 0x00000000 = .error (.noSuchOpcode 0) ∧ decode 0x00000006 = .error (.noSuchOpcode 6) ∧
  decode 0x0000000F = .error (.noSuchOpcode 15) ∧ decode 0x00000011 = .error .zeroFieldSet ∧
  decode 0x80000002 = .error .zeroFieldSet ∧ decode 0xFFFFFFFF = .error .zeroFieldSet ∧
  decode 0x00000100 = .error .zeroFieldSet

/-- R92: "a word `c` selects the row when `(c & mask) = match`, and `mask = 0xFFFFFFFF` for every row". The rows are
`encode`; every well-formed command decodes back, no other word decodes, and the decodable words are the legal ones. -/
def Obligations.DecodeEncodeAgree : Prop :=
  (encode .modexp = 0x00000001 ∧ encode .mrtest = 0x00000002 ∧ encode .modinv = 0x00000003 ∧
    encode .egcd = 0x00000004 ∧ encode .gcd = 0x00000005) ∧
  (∀ i : Instr, i.wellFormed = true → decode (encode i) = .ok i) ∧
  (∀ (c : Word) (i : Instr), decode c = .ok i ↔ c &&& 0xFFFFFFFF#32 = encode i) ∧
  (∀ c : Word, legalWord c = true ↔ ∃ i, decode c = .ok i)

/-- R95, R193: an illegal word written to CMD on an idle block is accepted like any other, and the next micro-step, START,
completes with ILLEGAL_CMD; the illegal words are all but the five. The outcome is the same for every value of the operand
registers: none is read. -/
def Obligations.IllegalWordAcceptedThenFails : Prop :=
  (∀ v : Word, legalWord v = false ↔ v ≠ 1 ∧ v ≠ 2 ∧ v ≠ 3 ∧ v ≠ 4 ∧ v ≠ 5) ∧
  (∀ (s : State) (v : Word), s.busy = false → legalWord v = false →
    step { s with turns := [.write 0x0008 v] } = .next { accept s v with turns := [], answers := .ok :: s.answers } ∧
    run 2 { s with turns := [.write 0x0008 v] } =
      .next (completeErr { accept s v with turns := [], answers := .ok :: s.answers } .illegalCmd))

/-! ## One step (spec/20_memory.md section 5, spec/40_common.md section 1) -/

/-- R112, R121: while a command is in progress, a step that is the engine's runs the decoded command's micro-step, and around
it only takes its own turn off the list; with `withFetchWord` it is the very next step. The list of turns is the model's
(notes/assumptions/5.md, 12.md). -/
def Obligations.StepRunsDecodedCommand : Prop :=
  (∀ (s : State) (i : Instr), s.pc ≠ .idle → decode s.lastcmd = .ok i →
    (s.turns = [] → step s = exec i s) ∧
    (∀ ts, s.turns = .engine :: ts → step s = exec i { s with turns := ts })) ∧
  (∀ (s : State) (i : Instr),
    step (s.withFetchWord 32 (encode i).toNat) = exec i (s.withFetchWord 32 (encode i).toNat))

/-- R242 (a), R28: the engine's step changes nothing exactly where there is no command, or MRTEST waits in MR_DRAW for a word
that nobody offers. That waiting is a step that changes nothing is the model's (notes/assumptions/6.md). -/
def Obligations.OnlyHoldIsMissingWitness : Prop :=
  ∀ s : State, Inv s → s.turns = [] →
    (step s = .next s ↔
      s.pc = .idle ∨ (s.pc = .mrDraw ∧ s.work.tJ < s.work.tK ∧ s.offers = []))

/-- R121: "The edges are all the control transfers the block has", and the phase MR_DRAW is kept only while no word is
offered. -/
def Obligations.PhaseGraph : Prop :=
  ∀ s t : State, engineTurn s = .next t →
    t.pc ∈ nextPhases s.pc ∨ (s.pc = .mrDraw ∧ s.offers = [] ∧ t = s)

/-- R74, R75: the engine's micro-step depends on nothing the host holds, neither its answers nor the turns to come, and
changes neither. -/
def Obligations.EngineIgnoresHostRecord : Prop :=
  ∀ (s : State) (ts : List Turn) (as : List BusAnswer),
    engineTurn { s with turns := ts, answers := as } =
      match engineTurn s with
      | .next t => .next { t with turns := ts, answers := as }
      | .fault r => .fault r
      | .refused r => .refused r

/-! ## The register window (spec/20_memory.md, spec/10_state.md) -/

/-- R62: "word `i` at bank offset `4i` holds bits `32i+31 : 32i` of the value", in all six banks; and the control block reads
as R34, R35, R36, R30, R37, R38, R39, R40 lay it out. -/
def Obligations.RegisterWindowReads : Prop :=
  ∀ s : State,
    busRead s 0x0000 = .data 0x4D584531 ∧
    busRead s 0x0004 = .data (BitVec.ofNat 32 (32 * s.nw)) ∧
    busRead s 0x0008 = .data s.lastcmd ∧
    busRead s 0x000C = .data s.statusWord ∧
    busRead s 0x0010 = .data s.rounds ∧
    busRead s 0x0014 = .data (0#30 ++ s.irqEn) ∧
    busRead s 0x0018 = .data (0#30 ++ s.irqStat) ∧
    busRead s 0x001C = .data s.rcnt ∧
    ∀ p ∈ [(0x1000, s.opa), (0x2000, s.opb), (0x3000, s.opm), (0x4000, s.res), (0x5000, s.resx), (0x6000, s.resy)],
      ∀ i < s.nw, ∃ d : Word, busRead s (BitVec.ofNat 15 (p.1 + 4 * i)) = .data d ∧
        ∀ j < 32, d.getLsbD j = p.2.testBit (32 * i + j)

/-- R63: "byte address `A + j` (`0 <= j <= 3`) carries bits `8j+7 : 8j` of the word at `A`", for every mapped word. -/
def Obligations.ByteLanesAreLittleEndian : Prop :=
  ∀ (s : State) (a : Addr) (v : Word) (j : Nat), busRead s a = .data v → j ≤ 3 →
    byteAt s (a + BitVec.ofNat 15 j) = some (v.extractLsb' (8 * j) 8)

/-- R35: `PARAM` holds W in bits 15:0 and 0 above, `0x8000` for W = 32768, and is "Constant for an instance": no step
changes it. -/
def Obligations.ParamConstant : Prop :=
  (∀ s : State, busRead s 0x0004 = .data s.paramWord ∧ (s.paramWord.extractLsb' 0 16).toNat = s.width ∧
    s.paramWord.extractLsb' 16 16 = 0 ∧ busWriteAnswer s 0x0004 = .err) ∧
  (∀ s : State, s.width = 32768 → s.paramWord = 0x8000) ∧
  (∀ s t : State, step s = .next t → t.width = s.width ∧ t.paramWord = s.paramWord)

/-- R30: the layout of STATUS; a write to it changes nothing and is answered `ERR`, a read has no side effect; it is 0 at
reset. -/
def Obligations.StatusLayout : Prop :=
  (∀ n : Fin 1024, (State.atReset n).statusWord = 0) ∧
  ∀ (s : State) (v : Word),
    s.statusWord.getLsbD 0 = s.busy ∧ s.statusWord.getLsbD 1 = s.done ∧ s.statusWord.getLsbD 2 = s.err ∧
    s.statusWord.getLsbD 3 = s.prime ∧ s.statusWord.getLsbD 4 = s.xneg ∧ s.statusWord.getLsbD 5 = s.yneg ∧
    s.statusWord.extractLsb' 6 2 = 0 ∧ s.statusWord.extractLsb' 8 4 = s.errcode ∧
    s.statusWord.extractLsb' 12 20 = 0 ∧
    hostRead s 0x000C = { s with answers := .data s.statusWord :: s.answers } ∧
    hostWrite s 0x000C v = { s with answers := .err :: s.answers }

/-- R194: "A bus transaction is answered `ERR` in exactly these cases", over every address; "A bus error changes no state in
the block", the answer being its only record; and a read never changes the block. -/
def Obligations.BusErrorsExactly : Prop :=
  ∀ (s : State) (a : Addr) (v : Word),
    (busRead s a = .err ↔ a.toNat % 4 ≠ 0 ∨ unmappedAddr s.nw a.toNat) ∧
    (busWriteAnswer s a = .err ↔
      a.toNat % 4 ≠ 0 ∨ unmappedAddr s.nw a.toNat ∨ readOnlyAddr a.toNat ∨
        (s.busy = true ∧ busyLockedAddr a.toNat)) ∧
    (busWriteAnswer s a ≠ .err → busWriteAnswer s a = .ok) ∧
    (busWriteAnswer s a = .err → hostWrite s a v = { s with answers := .err :: s.answers }) ∧
    hostRead s a = { s with answers := busRead s a :: s.answers }

/-- R68: the effect of each performed write: the addressed word of an operand is replaced and the others keep their values,
ROUNDS, IRQ_EN, IRQ_STAT (write one to clear) and CMD (the accept step); "No other write has any effect". That a W-bit
register stays one is R5's range. -/
def Obligations.PerformedWriteEffects : Prop :=
  ∀ (s : State) (v : Word),
    (s.busy = false → ∀ i < s.nw,
      (∃ q, busWrite s (BitVec.ofNat 15 (0x1000 + 4 * i)) v = { s with opa := q } ∧ getWord q i = v ∧
        (∀ j, j ≠ i → getWord q j = getWord s.opa j) ∧ (s.opa < 2 ^ s.width → q < 2 ^ s.width)) ∧
      (∃ q, busWrite s (BitVec.ofNat 15 (0x2000 + 4 * i)) v = { s with opb := q } ∧ getWord q i = v ∧
        (∀ j, j ≠ i → getWord q j = getWord s.opb j) ∧ (s.opb < 2 ^ s.width → q < 2 ^ s.width)) ∧
      (∃ q, busWrite s (BitVec.ofNat 15 (0x3000 + 4 * i)) v = { s with opm := q } ∧ getWord q i = v ∧
        (∀ j, j ≠ i → getWord q j = getWord s.opm j) ∧ (s.opm < 2 ^ s.width → q < 2 ^ s.width))) ∧
    (s.busy = false → busWrite s 0x0010 v = { s with rounds := v } ∧ busWrite s 0x0008 v = accept s v) ∧
    busWrite s 0x0014 v = { s with irqEn := v.extractLsb' 0 2 } ∧
    busWrite s 0x0018 v = { s with irqStat := s.irqStat &&& ~~~(v.extractLsb' 0 2) } ∧
    (∀ a : Addr, busWrite s a v = s ∨ a = 0x0008 ∨ a = 0x0010 ∨ a = 0x0014 ∨ a = 0x0018 ∨
      ∃ i < s.nw, a = BitVec.ofNat 15 (0x1000 + 4 * i) ∨ a = BitVec.ofNat 15 (0x2000 + 4 * i) ∨
        a = BitVec.ofNat 15 (0x3000 + 4 * i))

/-- R71: while `BUSY = 1` a write to CMD, ROUNDS or an operand word is answered `ERR` and changes nothing, while writes to
IRQ_EN and IRQ_STAT are performed. -/
def Obligations.BusyRefusesWrites : Prop :=
  ∀ (s : State) (a : Addr) (v : Word), s.busy = true →
    (busyLockedAddr a.toNat → busWriteAnswer s a = .err ∧ busWrite s a v = s) ∧
    (busWriteAnswer s 0x0014 = .ok ∧ busWrite s 0x0014 v = { s with irqEn := v.extractLsb' 0 2 }) ∧
    (busWriteAnswer s 0x0018 = .ok ∧
      busWrite s 0x0018 v = { s with irqStat := s.irqStat &&& ~~~(v.extractLsb' 0 2) })

/-- R38: IRQ_EN is written at any time, its two bits are stored, the reserved bits are ignored and read as 0; bit 0 enables
DONE_IP and bit 1 ERR_IP onto `irq`; both are 0 at reset. -/
def Obligations.IrqEnableRegister : Prop :=
  (∀ n : Fin 1024, (State.atReset n).irqEn = 0) ∧
  ∀ (s : State) (v : Word),
    (s.irqEn = 0 → s.irq = false) ∧
    (s.irqEn.getLsbD 0 = true → s.irqStat.getLsbD 0 = true → s.irq = true) ∧
    (s.irqEn.getLsbD 1 = true → s.irqStat.getLsbD 1 = true → s.irq = true) ∧
    busRead s 0x0014 = .data (0#30 ++ s.irqEn) ∧
    busWriteAnswer s 0x0014 = .ok ∧
    busRead (busWrite s 0x0014 v) 0x0014 = .data (v &&& 3) ∧
    busWrite s 0x0014 v = { s with irqEn := v.extractLsb' 0 2 }

/-- R39: IRQ_STAT: a write clears the bits written as 1 and keeps the others, at any time; a read gives the two bits and has
no side effect; completions set their bit; the accept step clears none; `irq` is the enabled pending bits. -/
def Obligations.IrqStatusRegister : Prop :=
  (∀ n : Fin 1024, (State.atReset n).irqStat = 0) ∧
  ∀ (s : State) (v : Word) (r : Result) (e : CmdError),
    busWriteAnswer s 0x0018 = .ok ∧
    busWrite s 0x0018 v = { s with irqStat := s.irqStat &&& ~~~(v.extractLsb' 0 2) } ∧
    (∀ j < 2, (busWrite s 0x0018 v).irqStat.getLsbD j = (s.irqStat.getLsbD j && !v.getLsbD j)) ∧
    hostRead s 0x0018 = { s with answers := .data (0#30 ++ s.irqStat) :: s.answers } ∧
    (completeOk s r).irqStat = s.irqStat ||| 0b01 ∧ (completeErr s e).irqStat = s.irqStat ||| 0b10 ∧
    (accept s v).irqStat = s.irqStat ∧
    (s.irq = true ↔ s.irqStat &&& s.irqEn ≠ 0) ∧
    (∀ t, step s = .next t → t.irqStat ≠ s.irqStat → s.irqStat &&& t.irqStat = s.irqStat ∨
      (∃ ts, s.turns = .reset :: ts) ∨ (∃ w ts, s.turns = .write 0x0018 w :: ts))

/-- R197: `irq` is a pure function of the two registers; the pending bits are set whether or not they are enabled; an enable
written later exposes a pending bit at once; and nothing but a write-one-to-clear or reset clears a pending bit. -/
def Obligations.InterruptLineAndPendingBits : Prop :=
  (∀ s : State,
    s.irq = ((s.irqStat.getLsbD 0 && s.irqEn.getLsbD 0) || (s.irqStat.getLsbD 1 && s.irqEn.getLsbD 1))) ∧
  (∀ (s : State) (r : Result) (e : CmdError),
    (completeOk s r).irqStat.getLsbD 0 = true ∧ (completeOk s r).irqStat.getLsbD 1 = s.irqStat.getLsbD 1 ∧
    (completeErr s e).irqStat.getLsbD 1 = true ∧ (completeErr s e).irqStat.getLsbD 0 = s.irqStat.getLsbD 0) ∧
  (∀ (s : State) (v : Word) (j : Nat), s.irqStat.getLsbD j = true → v.getLsbD j = true →
    (hostWrite s 0x0014 v).irq = true) ∧
  (∀ (s t : State) (j : Nat), step s = .next t → s.irqStat.getLsbD j = true → t.irqStat.getLsbD j = false →
    (∃ ts, s.turns = .reset :: ts) ∨
    (∃ v ts, s.turns = .write 0x0018 v :: ts ∧ v.getLsbD j = true))

/-- R99, R233: the `LD` pseudo-line on an idle block writes the whole register, and nothing else of the block, in `NW`
steps, each answered `OK`. -/
def Obligations.LoadLineWritesWholeOperand : Prop :=
  ∀ (s : State) (value : Nat), s.busy = false → value < 2 ^ s.width →
    s.opa < 2 ^ s.width → s.opb < 2 ^ s.width → s.opm < 2 ^ s.width →
    (run s.nw { s with turns := Line.turns s.nw (.ld .opa value) } =
      .next { s with turns := [], opa := value, answers := Line.expects s.nw (.ld .opa value) ++ s.answers }) ∧
    (run s.nw { s with turns := Line.turns s.nw (.ld .opb value) } =
      .next { s with turns := [], opb := value, answers := Line.expects s.nw (.ld .opb value) ++ s.answers }) ∧
    (run s.nw { s with turns := Line.turns s.nw (.ld .opm value) } =
      .next { s with turns := [], opm := value, answers := Line.expects s.nw (.ld .opm value) ++ s.answers })

/-- R10, R93: `Q = sum over i of Q.w[i] · 2^(32i)`: the words of a W-bit register assemble to its value. -/
def Obligations.WordsAssembleToValue : Prop :=
  ∀ (nw q : Nat), q < 2 ^ (32 * nw) → assemble (wordsOf nw q) = q

/-! ## The life cycle of a command (spec/40_common.md section 1) -/

/-- R111: the accept step, as the host's write to CMD on an idle block; it "writes nothing else" and is answered `OK` for
every word. -/
def Obligations.AcceptStep : Prop :=
  ∀ (s : State) (v : Word) (ts : List Turn), s.busy = false →
    step { s with turns := .write 0x0008 v :: ts } =
      .next { s with
        lastcmd := v, busy := true, done := false, err := false, errcode := 0, pc := .start
        turns := ts, answers := .ok :: s.answers }

/-- R114: the error completion, the block's exception entry (R201): what it writes, with the codes 1, 2, 3, and what it leaves.
The working registers it leaves are free values (notes/assumptions/4.md), about which nothing is said. -/
def Obligations.ErrorCompletion : Prop :=
  ∀ (s : State) (e : CmdError),
    ((completeErr s e).res = 0 ∧ (completeErr s e).resx = 0 ∧ (completeErr s e).resy = 0 ∧
      (completeErr s e).xneg = false ∧ (completeErr s e).yneg = false ∧ (completeErr s e).prime = false ∧
      (completeErr s e).rcnt = 0 ∧ (completeErr s e).err = true ∧ (completeErr s e).done = true ∧
      (completeErr s e).busy = false ∧ (completeErr s e).pc = .idle ∧
      (completeErr s e).irqStat.getLsbD 1 = true) ∧
    ((completeErr s .precondition).errcode = 1 ∧ (completeErr s .noInverse).errcode = 2 ∧
      (completeErr s .illegalCmd).errcode = 3) ∧
    ((completeErr s e).irqStat.getLsbD 0 = s.irqStat.getLsbD 0 ∧
      (completeErr s e).opa = s.opa ∧ (completeErr s e).opb = s.opb ∧ (completeErr s e).opm = s.opm ∧
      (completeErr s e).rounds = s.rounds ∧ (completeErr s e).irqEn = s.irqEn ∧
      (completeErr s e).lastcmd = s.lastcmd ∧ (completeErr s e).size = s.size ∧
      (completeErr s e).turns = s.turns ∧ (completeErr s e).offers = s.offers ∧
      (completeErr s e).answers = s.answers)

/-- R113: the success completion: what it writes from its arguments, and what it leaves; and "Every command passes 0 for the
arguments it has no value for": only EGCD delivers coefficients, only MRTEST PRIME and RCNT, and MRTEST no RES. -/
def Obligations.SuccessCompletion : Prop :=
  (∀ (i : Instr) (s t : State), exec i s = .next t → t.pc = .idle →
    (i ≠ .egcd → t.resx = 0 ∧ t.resy = 0 ∧ t.xneg = false ∧ t.yneg = false) ∧
    (i ≠ .mrtest → t.prime = false ∧ t.rcnt = 0) ∧ (i = .mrtest → t.res = 0)) ∧
  ∀ (s : State) (r : Result),
    ((completeOk s r).res = r.res ∧ (completeOk s r).resx = r.x ∧ (completeOk s r).resy = r.y ∧
      (completeOk s r).xneg = r.xneg ∧ (completeOk s r).yneg = r.yneg ∧ (completeOk s r).prime = r.prime ∧
      (completeOk s r).rcnt = r.rcnt ∧ (completeOk s r).err = false ∧ (completeOk s r).errcode = 0 ∧
      (completeOk s r).done = true ∧ (completeOk s r).busy = false ∧ (completeOk s r).pc = .idle ∧
      (completeOk s r).irqStat.getLsbD 0 = true) ∧
    ((completeOk s r).irqStat.getLsbD 1 = s.irqStat.getLsbD 1 ∧
      (completeOk s r).opa = s.opa ∧ (completeOk s r).opb = s.opb ∧ (completeOk s r).opm = s.opm ∧
      (completeOk s r).rounds = s.rounds ∧ (completeOk s r).irqEn = s.irqEn ∧
      (completeOk s r).lastcmd = s.lastcmd ∧ (completeOk s r).size = s.size ∧
      (completeOk s r).turns = s.turns ∧ (completeOk s r).offers = s.offers ∧
      (completeOk s r).answers = s.answers)

/-- R196, R113, R114: a step that ends a running command, other than reset, is a completion, and it raises exactly one of
the two interrupt bits, with `DONE = 1`; with an error nothing is delivered. -/
def Obligations.CompletionRaisesExactlyOneInterrupt : Prop :=
  ∀ s t : State, step s = .next t → s.busy = true → t.busy = false →
    (∃ ts, s.turns = .reset :: ts) ∨
    (t.done = true ∧ t.pc = .idle ∧
      ((t.err = false ∧ t.errcode = 0 ∧ t.irqStat = s.irqStat ||| 0b01) ∨
       (t.err = true ∧ t.errcode ≠ 0 ∧ t.irqStat = s.irqStat ||| 0b10 ∧
        t.res = 0 ∧ t.resx = 0 ∧ t.resy = 0 ∧ t.rcnt = 0 ∧ t.prime = false ∧ t.xneg = false ∧ t.yneg = false)))

/-- R76, R24, R25, R26, R40: the result registers change only in a completion step or at reset. -/
def Obligations.ResultsChangeOnlyAtCompletion : Prop :=
  ∀ s t : State, step s = .next t →
    (t.res ≠ s.res ∨ t.resx ≠ s.resx ∨ t.resy ≠ s.resy ∨ t.rcnt ≠ s.rcnt ∨
      t.prime ≠ s.prime ∨ t.xneg ≠ s.xneg ∨ t.yneg ≠ s.yneg) →
    (∃ ts, s.turns = .reset :: ts) ∨ (s.pc ≠ .idle ∧ t.pc = .idle ∧ t.busy = false ∧ t.done = true)

/-- The frame of all five commands, MODEXP, MRTEST, MODINV, EGCD and GCD, in every phase. R47: no command modifies OPA, OPB,
OPM, ROUNDS, IRQ_EN. Nor does one change LASTCMD, the width, or what the host holds; a micro-step that is not a completion
leaves every register the host can read; and a word on offer is taken only by MRTEST in MR_DRAW, one at a time. -/
def Obligations.CommandFrame : Prop :=
  ∀ (i : Instr) (s t : State), exec i s = .next t →
    (t.opa = s.opa ∧ t.opb = s.opb ∧ t.opm = s.opm ∧ t.rounds = s.rounds ∧ t.irqEn = s.irqEn ∧
      t.lastcmd = s.lastcmd ∧ t.size = s.size ∧ t.turns = s.turns ∧ t.answers = s.answers) ∧
    (t.pc ≠ .idle → t.visible = s.visible ∧ t.freeCount = s.freeCount) ∧
    (t.offers = s.offers ∨ (i = .mrtest ∧ s.pc = .mrDraw ∧ ∃ r, s.offers = r :: t.offers))

/-- The same frame over bytes (R63's view of the window), for all five commands: a completion changes no byte outside STATUS,
IRQ_STAT, RCNT, RES, RESX and RESY, and any other micro-step changes no byte at all. -/
def Obligations.CommandByteFrame : Prop :=
  ∀ (i : Instr) (s t : State) (a : Addr), exec i s = .next t →
    (t.pc ≠ .idle ∨ ¬ resultByte a.toNat) → byteAt t a = byteAt s a

/-- R71 "nothing the host writes can stop or alter a command in progress": while a command runs, a turn of the host or of the
witness source, short of reset, changes neither the sequencer, nor the working registers, nor an operand, nor a result. -/
def Obligations.HostCannotDisturbCommand : Prop :=
  ∀ (s t : State) (u : Turn) (ts : List Turn), s.busy = true → s.turns = u :: ts → u ≠ .engine → u ≠ .reset →
    step s = .next t →
    t.pc = s.pc ∧ t.work = s.work ∧ t.freeCount = s.freeCount ∧ t.lastcmd = s.lastcmd ∧
    t.visible.operands = s.visible.operands ∧ t.visible.results = s.visible.results ∧
    t.visible.flags = s.visible.flags

/-- R45: the reset values, for every width: all registers 0, `STATUS` reads 0, `irq` low, `pc = IDLE`, the two constants.
The working registers are left out: their values at reset are the model's choice (notes/assumptions/3.md). -/
def Obligations.ResetState : Prop :=
  State.reset = State.atReset Config.size ∧
  ∀ n : Fin 1024,
    (State.atReset n).visible =
      { size := n, operands := (0, 0, 0, 0), results := (0, 0, 0, 0)
        flags := (false, false, false, false, false, false, 0), control := (0, 0, 0) } ∧
    (State.atReset n).pc = .idle ∧ (State.atReset n).irq = false ∧
    busRead (State.atReset n) 0x000C = .data 0x00000000 ∧
    busRead (State.atReset n) 0x0000 = .data 0x4D584531 ∧
    busRead (State.atReset n) 0x0004 = .data (BitVec.ofNat 32 (32 * (n.val + 1)))

/-- R230, R231: reset is enabled in every state, and takes every register to its reset value: a command in progress is
abandoned with no completion, no interrupt bit and no result. What the host and the witness source hold stays theirs
(notes/assumptions/10.md). -/
def Obligations.ResetFromEveryState : Prop :=
  ∀ (s : State) (ts : List Turn), ∃ t, step { s with turns := .reset :: ts } = .next t ∧
    t.visible = (State.atReset s.size).visible ∧ t.pc = .idle ∧ t.irq = false ∧
    t.turns = ts ∧ t.offers = s.offers ∧ t.answers = s.answers

/-! ## MODEXP (spec/41_modexp.md) -/

/-- R141: START's arm of MODEXP: PRECONDITION for a zero modulus, else the four working registers and ME_LOOP. -/
def Obligations.ModexpStart : Prop :=
  ∀ s : State, s.pc = .start →
    (s.opm = 0 → exec .modexp s = .next (completeErr s .precondition)) ∧
    (s.opm ≠ 0 → exec .modexp s = .next { s with
      work := { s.work with tM := s.opm, tR := 1 % s.opm, tB := s.opa % s.opm, tE := s.opb }, pc := .meLoop })

/-- R142 with R123's `powstep` written out: MODEXP completes with `T_R` when no exponent bit is left, else does one bit, the
multiply reading `T_B` from before the squaring. `mulmod` is R117's product for every modulus from 1 up; for `T_M = 0`,
outside the invariants, it is left open (notes/assumptions/19.md). -/
def Obligations.ModexpLoop : Prop :=
  (∀ u v m : Nat, 1 ≤ m → mulmod u v m = u * v % m) ∧
  ∀ s : State, s.pc = .meLoop →
    (s.work.tE = 0 → exec .modexp s = .next (completeOk s
      { res := s.work.tR, x := 0, xneg := false, y := 0, yneg := false, prime := false, rcnt := 0 })) ∧
    (s.work.tE ≠ 0 → exec .modexp s = .next { s with
      work := { s.work with
        tR := if s.work.tE.testBit 0 then mulmod s.work.tR s.work.tB s.work.tM else s.work.tR
        tB := mulmod s.work.tB s.work.tB s.work.tM
        tE := s.work.tE >>> 1 } })

/-- R140, R142: MODEXP run to its end: `OPA ^ OPB mod OPM`, all else of the result state 0, no witness word taken, no operand
changed, in START and `bitlen(OPB) + 1` further micro-steps; or PRECONDITION for a zero modulus. -/
def Obligations.ModexpComputesPower : Prop :=
  ∀ s : State, s.pc = .start → s.lastcmd = 0x00000001 → s.turns = [] →
    (s.opm = 0 → step s = .next (completeErr s .precondition)) ∧
    (s.opm ≠ 0 → run (Nat.size s.opb + 2) s =
      .next (completeOk s
        { res := s.opa ^ s.opb % s.opm, x := 0, xneg := false, y := 0, yneg := false, prime := false, rcnt := 0 }))

/-! ## MRTEST (spec/42_miller_rabin.md) -/

/-- R151: START's arm of MRTEST, with its order of tests. -/
def Obligations.MrtestStart : Prop :=
  ∀ s : State, s.pc = .start →
    (s.opm < 2 ∨ s.rounds = 0 → exec .mrtest s = .next (completeErr s .precondition)) ∧
    (s.opm = 2 → s.rounds ≠ 0 → exec .mrtest s = .next (completeOk s { prime := true, rcnt := 0 })) ∧
    (2 < s.opm → s.rounds ≠ 0 → s.opm.testBit 0 = false →
      exec .mrtest s = .next (completeOk s { prime := false, rcnt := 0 })) ∧
    (2 < s.opm → s.rounds ≠ 0 → s.opm.testBit 0 = true →
      exec .mrtest s = .next { s with
        work := { s.work with tM := s.opm, tK := s.rounds.toNat, tD := s.opm - 1, tS := 0, tJ := 0 }
        pc := .mrDecomp })

/-- R152: the MR_DECOMP micro-step. -/
def Obligations.MrtestDecompose : Prop :=
  ∀ s : State, s.pc = .mrDecomp →
    (s.work.tD.testBit 0 = false → exec .mrtest s = .next { s with
      work := { s.work with tD := s.work.tD >>> 1, tS := s.work.tS + 1 } }) ∧
    (s.work.tD.testBit 0 = true → exec .mrtest s = .next { s with pc := .mrDraw })

/-- R153, with R156's witness: the MR_DRAW micro-step: the end of the rounds, a round started on the first word on offer, and
the hold while there is none (that holding is a step that changes nothing is the model's, notes/assumptions/6.md). For a
candidate below 3, which no state within the invariants holds here, `witness` is left open (notes/assumptions/19.md). -/
def Obligations.MrtestDraw : Prop :=
  (∀ n r : Nat, 3 ≤ n → witness n r = 2 + r % (n - 2)) ∧
  ∀ s : State, s.pc = .mrDraw →
    (s.work.tJ = s.work.tK →
      exec .mrtest s = .next (completeOk s { prime := true, rcnt := BitVec.ofNat 32 s.work.tK })) ∧
    (∀ r rest, s.work.tJ ≠ s.work.tK → s.offers = r :: rest →
      exec .mrtest s = .next { s with
        work := { s.work with
          tA := witness s.work.tM r, tJ := s.work.tJ + 1, tR := 1
          tB := witness s.work.tM r, tE := s.work.tD }
        offers := rest
        pc := .mrPow }) ∧
    (s.work.tJ ≠ s.work.tK → s.offers = [] → exec .mrtest s = .next s)

/-- R154 with R123's `powstep` written out: the MR_POW micro-step. `mulmod` is R117's product for every modulus from 1 up; for
`T_M = 0`, outside the invariants, it is left open (notes/assumptions/19.md). -/
def Obligations.MrtestPower : Prop :=
  (∀ u v m : Nat, 1 ≤ m → mulmod u v m = u * v % m) ∧
  ∀ s : State, s.pc = .mrPow →
    (s.work.tE ≠ 0 → exec .mrtest s = .next { s with
      work := { s.work with
        tR := if s.work.tE.testBit 0 then mulmod s.work.tR s.work.tB s.work.tM else s.work.tR
        tB := mulmod s.work.tB s.work.tB s.work.tM
        tE := s.work.tE >>> 1 } }) ∧
    (s.work.tE = 0 → s.work.tR = 1 → exec .mrtest s = .next { s with pc := .mrDraw }) ∧
    (s.work.tE = 0 → s.work.tR ≠ 1 → exec .mrtest s = .next { s with
      work := { s.work with tX := s.work.tR, tT := 0 }, pc := .mrCheck })

/-- R155: the MR_CHECK micro-step; `T_M - 1` and `T_S - 1` are integers, and `mulmod` is R117's product for every modulus
from 1 up (for 0: notes/assumptions/19.md). -/
def Obligations.MrtestCheck : Prop :=
  (∀ u v m : Nat, 1 ≤ m → mulmod u v m = u * v % m) ∧
  ∀ s : State, s.pc = .mrCheck →
    ((s.work.tX : Int) = (s.work.tM : Int) - 1 → exec .mrtest s = .next { s with pc := .mrDraw }) ∧
    ((s.work.tX : Int) ≠ (s.work.tM : Int) - 1 → (s.work.tT : Int) = (s.work.tS : Int) - 1 →
      exec .mrtest s = .next (completeOk s { prime := false, rcnt := BitVec.ofNat 32 s.work.tJ })) ∧
    ((s.work.tX : Int) ≠ (s.work.tM : Int) - 1 → (s.work.tT : Int) ≠ (s.work.tS : Int) - 1 →
      exec .mrtest s = .next { s with
        work := { s.work with tX := mulmod s.work.tX s.work.tX s.work.tM, tT := s.work.tT + 1 } })

/-- R150: MRTEST run to its end, as the function of `n`, `k` and the words on offer that R150 gives: the errors and the cases
START decides in one step; else the rounds, for the pair `(e, d)` with `n - 1 = 2^e · d`, `d` odd. Exactly the words of the
rounds begun are taken; where the words do not suffice the command has not completed: the engine is in MR_DRAW with every
word taken. -/
def Obligations.MrtestRunsRounds : Prop :=
  ∀ s : State, s.pc = .start → s.lastcmd = 0x00000002 → s.turns = [] →
    (s.opm < 2 ∨ s.rounds = 0 → step s = .next (completeErr s .precondition)) ∧
    (s.opm = 2 → s.rounds ≠ 0 → step s = .next (completeOk s { prime := true, rcnt := 0 })) ∧
    (2 < s.opm → s.rounds ≠ 0 → s.opm % 2 = 0 → step s = .next (completeOk s { prime := false, rcnt := 0 })) ∧
    (∀ e d, 2 < s.opm → s.rounds ≠ 0 → s.opm % 2 = 1 → s.opm - 1 = 2 ^ e * d → d % 2 = 1 →
      match runRounds s.opm e d s.rounds.toNat 0 s.offers with
      | .passed rest => ∃ k, run k s =
          .next (completeOk { s with offers := rest } { prime := true, rcnt := s.rounds })
      | .failed j rest => ∃ k, run k s =
          .next (completeOk { s with offers := rest } { prime := false, rcnt := BitVec.ofNat 32 j })
      | .waiting => ∃ k t, run k s = .next t ∧
          t.pc = .mrDraw ∧ t.offers = [] ∧ t.busy = s.busy)

/-- R150, R157 (c), (g): a prime is never reported composite: whatever the words, MRTEST of a prime completes with
`PRIME = 1`, with `RCNT = 0` for 2 and `RCNT = k` after exactly `k` words for an odd prime. R157 (g) is marked by the spec
as general knowledge (Fermat's little theorem and the square roots of 1). -/
def Obligations.MrtestAcceptsEveryPrime : Prop :=
  ∀ s : State, s.pc = .start → s.lastcmd = 0x00000002 → s.turns = [] → s.opm.Prime → s.rounds ≠ 0 →
    s.rounds.toNat ≤ s.offers.length →
    ∃ k, run k s =
      .next (if s.opm = 2 then completeOk s { prime := true, rcnt := 0 }
        else completeOk { s with offers := s.offers.drop s.rounds.toNat } { prime := true, rcnt := s.rounds })

/-- R156, R157 (f): every word gives a witness in `[2, n - 1]`, every value of the range is reached, by `r = a - 2`, and the
witness `n - 1` passes a round for every odd `n >= 3`, prime or not. -/
def Obligations.WitnessRangeAndTopLiar : Prop :=
  ∀ n e d : Nat, 3 ≤ n →
    (∀ r, 2 ≤ witness n r ∧ witness n r ≤ n - 1) ∧
    (∀ a, 2 ≤ a → a ≤ n - 1 → witness n (a - 2) = a) ∧
    (n - 1 = 2 ^ e * d → d % 2 = 1 → 1 ≤ e → roundPasses n e d (n - 1) = true)

/-- R79: a word leaves the port only in a step in which `rnd_ready` is asserted, and then exactly the first one, starting a
round; the one other step that changes what is on offer is the witness source's own, which adds a word. -/
def Obligations.WitnessTakenOnlyWhenReady : Prop :=
  ∀ s t : State, Inv s → step s = .next t → t.offers ≠ s.offers →
    (s.rndReady = true ∧ t.pc = .mrPow ∧ t.work.tJ = s.work.tJ + 1 ∧ ∃ r, s.offers = r :: t.offers ∧
      t.work.tA = 2 + r % (s.work.tM - 2)) ∨
    (∃ r ts, s.turns = .offer r :: ts ∧ t.offers = s.offers ++ [r])

/-! ## EGCD, MODINV, GCD (spec/43_euclid.md) -/

/-- R171: START's arm of EGCD; it raises nothing. -/
def Obligations.EgcdStart : Prop :=
  ∀ s : State, s.pc = .start →
    exec .egcd s = .next { s with
      work := { s.work with eA := s.opa, eB := s.opb, uA := 1, vA := 0, uB := 0, vB := 1 }, pc := .euLoop }

/-- R172: the EU_LOOP micro-step of EGCD, MODINV and GCD: one division, all right-hand sides reading the old values, and the
last phase chosen by LASTCMD[3:0]. -/
def Obligations.EuclidLoop : Prop :=
  ∀ (i : Instr) (s : State), i = .egcd ∨ i = .modinv ∨ i = .gcd → s.pc = .euLoop →
    (s.work.eA ≠ 0 → exec i s = .next { s with
      work := { s.work with
        eA := s.work.eB % s.work.eA, eB := s.work.eA
        uA := s.work.uB - (s.work.eB / s.work.eA : Nat) * s.work.uA, uB := s.work.uA
        vA := s.work.vB - (s.work.eB / s.work.eA : Nat) * s.work.vA, vB := s.work.vA } }) ∧
    (s.work.eA = 0 → (s.lastcmd.extractLsb' 0 4) = 3#4 → exec i s = .next { s with pc := .euDoneInv }) ∧
    (s.work.eA = 0 → (s.lastcmd.extractLsb' 0 4) = 4#4 → exec i s = .next { s with pc := .euDoneEgcd }) ∧
    (s.work.eA = 0 → (s.lastcmd.extractLsb' 0 4) = 5#4 → exec i s = .next { s with pc := .euDoneGcd })

/-- R173: the EU_DONE_EGCD micro-step, sign and magnitude of each coefficient; a zero coefficient has sign flag 0. -/
def Obligations.EgcdDone : Prop :=
  ∀ s : State, s.pc = .euDoneEgcd →
    exec .egcd s = .next (completeOk s
      { res := s.work.eB, x := s.work.uB.natAbs, xneg := decide (s.work.uB < 0)
        y := s.work.vB.natAbs, yneg := decide (s.work.vB < 0), prime := false, rcnt := 0 }) ∧
    (s.work.uB = 0 → (completeOk s { xneg := decide (s.work.uB < 0) }).xneg = false) ∧
    (s.work.vB = 0 → (completeOk s { yneg := decide (s.work.vB < 0) }).yneg = false)

/-- R170's recursion, which the spec derives from the source's identity and marks as general knowledge where the source only
names it: its equations, the identity, the divisor, and the bounds (R180, also general knowledge). -/
def Obligations.EgcdRecursionIsBezout : Prop :=
  (∀ b, egcd 0 b = (b, 0, 1)) ∧
  (∀ a b, 1 ≤ a → egcd a b =
    ((egcd (b % a) a).1, (egcd (b % a) a).2.2 - (b / a : Nat) * (egcd (b % a) a).2.1, (egcd (b % a) a).2.1)) ∧
  (∀ a b : Nat, (egcd a b).1 = Nat.gcd a b ∧
    (a : Int) * (egcd a b).2.1 + (b : Int) * (egcd a b).2.2 = ((egcd a b).1 : Int) ∧
    (egcd a b).2.1.natAbs ≤ max b 1 ∧ (egcd a b).2.2.natAbs ≤ max a 1)

/-- R170, R174: EGCD run to its end delivers the recursion's values `(g, x, y)`, in sign and magnitude, and raises nothing.
The recursion's body is the spec's own inference (R170). -/
def Obligations.EgcdDeliversRecursion : Prop :=
  ∀ s : State, s.pc = .start → s.lastcmd = 0x00000004 → s.turns = [] →
    ∃ k, run k s =
      .next (completeOk s
        { res := (egcd s.opa s.opb).1
          x := (egcd s.opa s.opb).2.1.natAbs, xneg := decide ((egcd s.opa s.opb).2.1 < 0)
          y := (egcd s.opa s.opb).2.2.natAbs, yneg := decide ((egcd s.opa s.opb).2.2 < 0)
          prime := false, rcnt := 0 })

/-- R176: START's arm of MODINV. -/
def Obligations.ModinvStart : Prop :=
  ∀ s : State, s.pc = .start →
    (s.opm = 0 → exec .modinv s = .next (completeErr s .precondition)) ∧
    (s.opm ≠ 0 → exec .modinv s = .next { s with
      work := { s.work with tM := s.opm, eA := s.opa, eB := s.opm, uA := 1, vA := 0, uB := 0, vB := 1 }
      pc := .euLoop })

/-- R177: the EU_DONE_INV micro-step: NO_INVERSE when the divisor is not 1, else `UB mod T_M`; and, for a coefficient in
R180's bound, the reduction "needs at most one addition of `T_M`". `modInt` is R11's `mod` for every modulus from 1 up; for
`T_M = 0`, outside the invariants, it is left open (notes/assumptions/19.md). -/
def Obligations.ModinvDone : Prop :=
  (∀ (x : Int) (m : Nat), 1 ≤ m → (modInt x m : Int) = x % (m : Int)) ∧
  ∀ s : State, s.pc = .euDoneInv →
    (s.work.eB ≠ 1 → exec .modinv s = .next (completeErr s .noInverse)) ∧
    (s.work.eB = 1 → exec .modinv s = .next (completeOk s
      { res := modInt s.work.uB s.work.tM
        x := 0, xneg := false, y := 0, yneg := false, prime := false, rcnt := 0 })) ∧
    (1 ≤ s.work.tM → s.work.uB.natAbs ≤ s.work.tM →
      s.work.uB % (s.work.tM : Int) =
        if s.work.uB = s.work.tM then 0 else if 0 ≤ s.work.uB then s.work.uB else s.work.uB + s.work.tM)

/-- R175: MODINV run to its end: PRECONDITION for `m = 0`, NO_INVERSE for `gcd(a, m) ≠ 1`, else "the unique `x` in `[0, m)`
with `a·x ≡ 1 (mod m)`", which is `x mod m` for R170's coefficient; all else of the result state is 0 and no witness word is taken. -/
def Obligations.ModinvFindsInverse : Prop :=
  ∀ s : State, s.pc = .start → s.lastcmd = 0x00000003 → s.turns = [] →
    (s.opm = 0 → step s = .next (completeErr s .precondition)) ∧
    (s.opm ≠ 0 → ∃ k,
      (Nat.gcd s.opa s.opm ≠ 1 → run k s = .next (completeErr s .noInverse)) ∧
      (Nat.gcd s.opa s.opm = 1 → ∃ x, x < s.opm ∧ s.opa * x % s.opm = 1 % s.opm ∧
        (∀ y, y < s.opm → s.opa * y % s.opm = 1 % s.opm → y = x) ∧
        (x : Int) = (egcd s.opa s.opm).2.1 % (s.opm : Int) ∧
        run k s = .next (completeOk s
          { res := x, x := 0, xneg := false, y := 0, yneg := false, prime := false, rcnt := 0 })))

/-- R179: START's arm of GCD, whose coefficients are left open ("may be set as in rule R171 or left alone"), and the
EU_DONE_GCD micro-step. -/
def Obligations.GcdStartAndDone : Prop :=
  (∀ s : State, s.pc = .start → ∃ k : Working, k.eA = s.opa ∧ k.eB = s.opb ∧
    k = { s.work with eA := k.eA, eB := k.eB, uA := k.uA, vA := k.vA, uB := k.uB, vB := k.vB } ∧
    exec .gcd s = .next { s with work := k, pc := .euLoop }) ∧
  (∀ s : State, s.pc = .euDoneGcd →
    exec .gcd s = .next (completeOk s
      { res := s.work.eB, x := 0, xneg := false, y := 0, yneg := false, prime := false, rcnt := 0 }))

/-- R178: GCD run to its end delivers `gcd(a, b)`, with `gcd(0, 0) = 0`, `gcd(a, 0) = a` and `gcd(0, b) = b`, and raises
nothing. -/
def Obligations.GcdComputesDivisor : Prop :=
  ∀ s : State, s.pc = .start → s.lastcmd = 0x00000005 → s.turns = [] →
    ∃ k, run k s =
      .next (completeOk s
        { res := Nat.gcd s.opa s.opb, x := 0, xneg := false, y := 0, yneg := false, prime := false, rcnt := 0 })

/-- R122's bound, which the spec marks as its own inference and as general knowledge: on W-bit operands EGCD, MODINV and GCD
complete within `2·W + 3` micro-steps after START. -/
def Obligations.EuclidStepBound : Prop :=
  ∀ (i : Instr) (s : State), i = .egcd ∨ i = .modinv ∨ i = .gcd →
    s.pc = .start → s.lastcmd = encode i → s.turns = [] →
    s.opa < 2 ^ s.width → s.opb < 2 ^ s.width → s.opm < 2 ^ s.width →
    ∃ k t, k ≤ 2 * s.width + 4 ∧ run k s = .next t ∧ t.pc = .idle ∧ t.busy = false ∧ t.done = true

/-! ## The whole machine -/

/-- R9: "Running the micro-steps of a command from its acceptance to its completion step yields exactly the command-level
result", for every command, from a block in START. -/
def Obligations.MicroStepsMatchCommandLevel : Prop :=
  ∀ (i : Instr) (s t : State), s.pc = .start → s.lastcmd = encode i → s.turns = [] →
    commandLevel i s = some t → ∃ k, run k s = .next t

/-- R46, R120, R180: the invariants hold right after reset, for every width. -/
def Obligations.ResetSatisfiesInvariants : Prop :=
  ∀ n : Fin 1024, Inv (State.atReset n)

/-- R46, R120, R180: every step keeps the invariants: BUSY against `pc`, ERR against ERRCODE and the results, the flags, the
phases of each command, the W-bit ranges of every register and of both coefficients' magnitudes, and what the working
registers of each phase hold. Each part is the spec's own inference; for GCD's coefficients, which R179 lets a model leave
alone, it is the model's (notes/assumptions/13.md). -/
def Obligations.EveryStepKeepsInvariants : Prop :=
  ∀ s t : State, Inv s → step s = .next t → Inv t

/-- R242 (c), (d): "No state of the engine is stuck for good": from a state that meets the invariants every step answers a next
state, never a fault and never a refusal. -/
def Obligations.InvariantStatesNeverStop : Prop :=
  ∀ s : State, Inv s → ∃ t, step s = .next t

/-- R122: from any point of any command, with the words it may still need on offer, the engine comes to its completion. -/
def Obligations.EveryCommandCompletes : Prop :=
  ∀ s : State, Inv s → s.turns = [] → s.pc ≠ .idle → s.rounds.toNat ≤ s.offers.length →
    ∃ k t, run k s = .next t ∧ t.pc = .idle ∧ t.busy = false ∧ t.done = true

/-- R99, R242 (b): "`WAIT` terminates whenever the command in progress completes", whatever `gaps` and `ts` put between its
polls, the words on offer and those of the RND turns that may fall between the polls being enough: the polling ends, no turn
of the host listed after the WAIT having been performed before, and its last answer is STATUS with `BUSY = 0` and `DONE = 1`.
How a schedule says what falls between two polls is the model's (notes/assumptions/8.md). -/
def Obligations.WaitEndsAtCompletion : Prop :=
  ∀ (s : State) (gaps : List Nat) (ts : List Turn), Inv s → s.turns = .wait gaps :: ts → s.pc ≠ .idle →
    s.rounds.toNat ≤ s.offers.length + (ts.takeWhile Turn.betweenPolls).countP (· ≠ .engine) →
    ∃ k t before, run k s = .next t ∧ ts = before ++ t.turns ∧ (∀ u ∈ before, u.betweenPolls = true) ∧ t.pc = .idle ∧
      t.answers.head? = some (.data t.statusWord) ∧ t.statusWord.getLsbD 0 = false ∧ t.statusWord.getLsbD 1 = true

/-- R241: a run of a well-formed host program ends with `BUSY = 0`, in whatever order its turns, the engine's and the witness
source's are performed; with the invariants, that end state has `pc = IDLE`. Schedules as lists of turns are the model's
(notes/assumptions/5.md, 8.md, 18.md). -/
def Obligations.WellFormedProgramEndsIdle : Prop :=
  ∀ (s t : State) (p : List Line) (k : Nat), s.busy = false → schedules s.nw p s.turns →
    wellFormedProgram s.nw p = true → run k s = .next t → t.runEnded = true →
    t.busy = false ∧ (Inv s → t.endState.pc = .idle)

/-- R42: "A model must not let a command's result depend on working-register contents left by an earlier command": two blocks
in START that differ only there complete in the same state at the same step. -/
def Obligations.LeftoversNeverMatter : Prop :=
  ∀ (s t : State) (w : Working) (k : Nat), s.pc = .start → s.turns = [] →
    run k s = .next t → t.pc = .idle →
    run k { s with work := w } = .next t
end

