-- ==== Sys2Proof/Laws/Arith.lean ====
section
/-! SUPPORT. The arithmetic of the shared micro-steps: one lemma per operation. -/

namespace Sys2Proof.Machine

/-- `modulo` for a modulus that R11 gives a meaning (spec/00_scope.md R11). -/
@[simp] theorem modulo_pos (a m : Nat) (h : 1 ≤ m) : modulo a m = a % m :=
  if_neg (by omega)

/-- `modInt` for a modulus that R11 gives a meaning (spec/00_scope.md R11). -/
theorem modInt_pos (x : Int) (m : Nat) (h : 1 ≤ m) : (modInt x m : Int) = x % (m : Int) := by
  rw [modInt, if_neg (by omega)]
  exact Int.toNat_of_nonneg (Int.emod_nonneg _ (by omega))

/-- `mulmod` for a modulus that R11 gives a meaning (spec/40_common.md R117). -/
@[simp] theorem mulmod_pos (u v m : Nat) (h : 1 ≤ m) : mulmod u v m = u * v % m :=
  modulo_pos _ _ h

/-- `mulmod` is in `[0, m)` (spec/40_common.md R117). -/
theorem mulmod_lt (u v m : Nat) (h : 1 ≤ m) : mulmod u v m < m := by
  rw [mulmod_pos u v m h]
  exact Nat.mod_lt _ h

/-- One exponent bit keeps `T_R · T_B ^ T_E` modulo `T_M`: the invariant of spec/40_common.md R123 in one line. -/
theorem powstep_value (k : Working) (h1 : 1 ≤ k.tM) :
    (powstep k).tR * (powstep k).tB ^ (powstep k).tE % k.tM = k.tR * k.tB ^ k.tE % k.tM := by
  have hsq : (k.tB * k.tB % k.tM) ^ (k.tE / 2) ≡ k.tB ^ (2 * (k.tE / 2)) [MOD k.tM] := by
    rw [pow_mul, sq]
    exact (Nat.mod_modEq _ _).pow _
  show _ ≡ _ [MOD k.tM]
  by_cases h : k.tE % 2 = 1
  · have he : k.tE = 1 + 2 * (k.tE / 2) := by omega
    have hm : k.tR * k.tB % k.tM ≡ k.tR * k.tB [MOD k.tM] := Nat.mod_modEq _ _
    simp only [powstep, mulmod_pos _ _ _ h1, h, if_true]
    calc k.tR * k.tB % k.tM * (k.tB * k.tB % k.tM) ^ (k.tE / 2)
        ≡ k.tR * k.tB * k.tB ^ (2 * (k.tE / 2)) [MOD k.tM] := hm.mul hsq
      _ = k.tR * k.tB ^ k.tE := by
        conv_rhs => rw [he, pow_add, pow_one]
        ring
  · have he : k.tE = 2 * (k.tE / 2) := by omega
    simp only [powstep, mulmod_pos _ _ _ h1, h, if_false]
    conv_rhs => rw [he]
    exact (Nat.ModEq.refl _).mul hsq

theorem powstep_tM (k : Working) : (powstep k).tM = k.tM := rfl

theorem powstep_tE (k : Working) : (powstep k).tE = k.tE / 2 := rfl

/-- The residues stay residues (spec/40_common.md R120). -/
theorem powstep_lt (k : Working) (h : 1 ≤ k.tM) (hr : k.tR < k.tM) :
    (powstep k).tR < k.tM ∧ (powstep k).tB < k.tM := by
  refine ⟨?_, mulmod_lt _ _ _ h⟩
  simp only [powstep]
  split
  · exact mulmod_lt _ _ _ h
  · exact hr

/-- The registers `powstep` leaves alone. -/
theorem powstep_frame (k : Working) :
    powstep k = { k with tR := (powstep k).tR, tB := (powstep k).tB, tE := (powstep k).tE } := rfl

/-- The witness as R156 gives it (spec/42_miller_rabin.md R156). -/
theorem witness_eq (n r : Nat) (h : 3 ≤ n) : witness n r = 2 + r % (n - 2) := by
  rw [witness, modulo_pos _ _ (by omega)]

/-- A witness is in `[2, n - 1]` for every word (spec/42_miller_rabin.md R156). -/
theorem witness_range (n r : Nat) (h : 3 ≤ n) : 2 ≤ witness n r ∧ witness n r < n := by
  have := Nat.mod_lt r (by omega : 0 < n - 2)
  rw [witness_eq n r h]
  omega

/-- Halving while even splits off the power of two (spec/42_miller_rabin.md R152). -/
theorem halvings_spec (fuel d : Nat) (h : 1 ≤ d) (hd : d < 2 ^ fuel) :
    2 ^ (halvings fuel d).1 * (halvings fuel d).2 = d ∧ (halvings fuel d).2 % 2 = 1 := by
  induction fuel generalizing d with
  | zero => simp at hd; omega
  | succ fuel ih =>
    unfold halvings
    split
    · have hp : 2 ^ (fuel + 1) = 2 * 2 ^ fuel := by rw [pow_succ]; ring
      obtain ⟨h1, h2⟩ := ih (d / 2) (by omega) (by omega)
      refine ⟨?_, h2⟩
      show 2 ^ ((halvings fuel (d / 2)).1 + 1) * (halvings fuel (d / 2)).2 = d
      rw [pow_succ, mul_assoc, mul_comm 2, ← mul_assoc, h1]
      omega
    · simp
      omega

/-- R150's pair `(s, d)`: `n - 1 = 2 ^ s · d` with `d` odd. -/
theorem decomposition_spec (n : Nat) (h : 2 ≤ n) :
    2 ^ (decomposition n).1 * (decomposition n).2 = n - 1 ∧ (decomposition n).2 % 2 = 1 :=
  halvings_spec n (n - 1) (by omega) (lt_of_le_of_lt (Nat.sub_le n 1) Nat.lt_two_pow_self)

/-- The pair is unique (spec/42_miller_rabin.md R150). -/
theorem odd_split_unique (s t d e : Nat) (hd : d % 2 = 1) (he : e % 2 = 1) (h : 2 ^ s * d = 2 ^ t * e) :
    s = t ∧ d = e := by
  induction s generalizing t with
  | zero =>
    cases t with
    | zero => simpa using h
    | succ t =>
      rw [show 2 ^ (t + 1) * e = 2 * (2 ^ t * e) by ring, pow_zero] at h
      omega
  | succ s ih =>
    cases t with
    | zero =>
      rw [show 2 ^ (s + 1) * d = 2 * (2 ^ s * d) by ring, pow_zero] at h
      omega
    | succ t =>
      rw [show 2 ^ (s + 1) * d = 2 * (2 ^ s * d) by ring, show 2 ^ (t + 1) * e = 2 * (2 ^ t * e) by ring] at h
      have : 2 ^ s * d = 2 ^ t * e := by omega
      obtain ⟨rfl, rfl⟩ := ih t this
      exact ⟨rfl, rfl⟩

/-- More fuel than the first argument changes nothing. -/
theorem egcdRec_fuel (a b fuel : Nat) (h : a ≤ fuel) : egcdRec fuel a b = egcd a b := by
  unfold egcd
  induction a using Nat.strong_induction_on generalizing b fuel with
  | _ a ih =>
    cases a with
    | zero => cases fuel <;> simp [egcdRec]
    | succ a =>
      obtain ⟨fuel, rfl⟩ : ∃ f, fuel = f + 1 := ⟨fuel - 1, by omega⟩
      have hlt : b % (a + 1) < a + 1 := Nat.mod_lt _ (by omega)
      simp only [egcdRec, Nat.succ_ne_zero, if_false]
      rw [ih _ hlt (a + 1) fuel (by omega), ih _ hlt (a + 1) a (by omega)]

/-- The base case of R170: `egcd(0, b) = (b, 0, 1)`. -/
theorem egcd_zero (b : Nat) : egcd 0 b = (b, 0, 1) := rfl

/-- The recursion of R170, for `a >= 1`. -/
theorem egcd_pos (a b : Nat) (h : 1 ≤ a) :
    egcd a b =
      ((egcd (b % a) a).1, (egcd (b % a) a).2.2 - (b / a : Nat) * (egcd (b % a) a).2.1, (egcd (b % a) a).2.1) := by
  obtain ⟨a, rfl⟩ : ∃ c, a = c + 1 := ⟨a - 1, by omega⟩
  have hlt : b % (a + 1) < a + 1 := Nat.mod_lt _ (by omega)
  conv_lhs => unfold egcd
  simp only [egcdRec, Nat.succ_ne_zero, if_false]
  rw [egcdRec_fuel _ _ _ (by omega)]

/-- Magnitudes add in a coefficient update, since the two old coefficients do not have the same sign. -/
theorem natAbs_update (u v : Int) (q : Nat) (h : u * v ≤ 0) :
    (v - q * u).natAbs = v.natAbs + q * u.natAbs := by
  have hq : ((q : Int) * u).natAbs = q * u.natAbs := by rw [Int.natAbs_mul, Int.natAbs_natCast]
  rcases le_total 0 u with hu | hu <;> rcases le_total 0 v with hv | hv
  · have : u = 0 ∨ v = 0 := by
      rcases eq_or_lt_of_le hu with e | e
      · exact .inl e.symm
      · rcases eq_or_lt_of_le hv with f | f
        · exact .inr f.symm
        · nlinarith
    rcases this with rfl | rfl <;> simp [Int.natAbs_mul]
  · have : 0 ≤ (q : Int) * u := by positivity
    rw [← hq]; omega
  · have : (q : Int) * u ≤ 0 := mul_nonpos_of_nonneg_of_nonpos (by positivity) hu
    rw [← hq]; omega
  · have : u = 0 ∨ v = 0 := by
      rcases eq_or_lt_of_le hu with e | e
      · exact .inl e
      · rcases eq_or_lt_of_le hv with f | f
        · exact .inr f
        · nlinarith
    rcases this with rfl | rfl <;> simp [Int.natAbs_mul]

/-- The updated pair of coefficients again does not have the same sign. -/
theorem sign_update (u v : Int) (q : Nat) (h : u * v ≤ 0) : (v - q * u) * u ≤ 0 := by
  have : (q : Int) * (u * u) ≥ 0 := mul_nonneg (by positivity) (mul_self_nonneg u)
  nlinarith

/-- The cross identity of a column survives a division. -/
theorem cross_update (u v : Int) (eA eB c : Nat) (hs : u * v ≤ 0)
    (hc : u.natAbs * eB + v.natAbs * eA = c) :
    (v - (eB / eA : Nat) * u).natAbs * eA + u.natAbs * (eB % eA) = c := by
  have hdm := Nat.div_add_mod eB eA
  rw [natAbs_update u v _ hs, ← hc]
  calc (v.natAbs + eB / eA * u.natAbs) * eA + u.natAbs * (eB % eA)
      = v.natAbs * eA + u.natAbs * (eA * (eB / eA) + eB % eA) := by ring
    _ = u.natAbs * eB + v.natAbs * eA := by rw [hdm]; ring

/-- A coefficient is bounded by what its cross identity gives (spec/43_euclid.md R180). -/
theorem natAbs_le_of_cross (u v : Int) (eA eB c : Nat) (hA : 1 ≤ eB)
    (hc : u.natAbs * eB + v.natAbs * eA = c) : u.natAbs ≤ max c 1 := by
  have : u.natAbs * 1 ≤ u.natAbs * eB := Nat.mul_le_mul_left _ hA
  omega

/-- A Euclid division keeps the invariant and the bounds of spec/43_euclid.md R172, R180. -/
theorem euclidDivide_keeps {a b : Nat} {k : Working} (h : EuclidInv a b k) (hA : k.eA ≠ 0) :
    EuclidInv a b (euclidDivide k) := by
  have hdm : (k.eB : Int) = k.eA * (k.eB / k.eA : Nat) + (k.eB % k.eA : Nat) := by
    exact_mod_cast (Nat.div_add_mod k.eB k.eA).symm
  have hU := cross_update k.uA k.uB k.eA k.eB b h.signU h.crossU
  have hV := cross_update k.vA k.vB k.eA k.eB a h.signV h.crossV
  refine ⟨?_, h.first, ?_, hU, hV, sign_update _ _ _ h.signU, sign_update _ _ _ h.signV,
    natAbs_le_of_cross _ _ _ _ _ (by omega) hU, h.boundUA, natAbs_le_of_cross _ _ _ _ _ (by omega) hV, h.boundVA⟩
  · show ((k.eB % k.eA : Nat) : Int) = (k.uB - (k.eB / k.eA : Nat) * k.uA) * a + (k.vB - (k.eB / k.eA : Nat) * k.vA) * b
    have h1 := h.first
    have h2 := h.second
    have : ((k.eB % k.eA : Nat) : Int) = k.eB - k.eA * (k.eB / k.eA : Nat) := by omega
    rw [this, h2]
    conv_lhs => rw [h1]
    ring
  · show Nat.gcd (k.eB % k.eA) k.eA = _
    rw [← h.gcd, Nat.gcd_comm k.eA k.eB, ← Nat.gcd_rec, Nat.gcd_comm]

/-- What START leaves satisfies the invariant (spec/43_euclid.md R171, R172). -/
theorem euclidStart_inv (k : Working) (a b : Nat) : EuclidInv a b (euclidStart k a b) := by
  constructor <;> simp [euclidStart]

end Sys2Proof.Machine
end

