-- ==== Sys2Proof/Laws/Operands.lean ====
section
/-! SUPPORT. A W-bit register as an array of bus words: what reading and writing one word does. -/

namespace Sys2Proof.Machine

/-- Word `i` holds bits `32i+31 : 32i` (spec/20_memory.md R62). -/
theorem getWord_bit (q i j : Nat) (h : j < 32) : (getWord q i).getLsbD j = q.testBit (32 * i + j) := by
  rw [getWord, BitVec.getLsbD_ofNat, Nat.testBit_div_two_pow]
  simp [h, Nat.add_comm]

theorem getWord_toNat (q i : Nat) : (getWord q i).toNat = q / 2 ^ (32 * i) % 2 ^ 32 := by
  simp [getWord]

/-- Two naturals with the same words are equal. -/
theorem eq_of_getWord_eq (p q : Nat) (h : ∀ i, getWord p i = getWord q i) : p = q := by
  apply Nat.eq_of_testBit_eq
  intro k
  have hk := congrArg (fun w => w.getLsbD (k % 32)) (h (k / 32))
  simp only [getWord_bit _ _ _ (Nat.mod_lt k (by decide : 0 < 32))] at hk
  rwa [Nat.div_add_mod] at hk

/-- The bits of a register after one word is replaced. -/
theorem setWord_testBit (q i k : Nat) (v : Word) :
    (setWord q i v).testBit k =
      if 32 * i ≤ k ∧ k < 32 * i + 32 then v.getLsbD (k - 32 * i) else q.testBit k := by
  have hv : v.toNat < 2 ^ 32 := v.isLt
  have hlow : q % 2 ^ (32 * i) < 2 ^ (32 * i) := Nat.mod_lt _ (by positivity)
  have e : setWord q i v
      = 2 ^ (32 * i) * (2 ^ 32 * (q / 2 ^ (32 * (i + 1))) + v.toNat) + q % 2 ^ (32 * i) := by
    have : 2 ^ (32 * (i + 1)) = 2 ^ (32 * i) * 2 ^ 32 := by rw [← pow_add]; ring_nf
    unfold setWord
    rw [this]
    ring
  rw [e, Nat.testBit_two_pow_mul_add _ hlow]
  by_cases h1 : k < 32 * i
  · have : ¬ (32 * i ≤ k ∧ k < 32 * i + 32) := by omega
    rw [if_pos h1, if_neg this, Nat.testBit_mod_two_pow]
    simp [h1]
  · rw [if_neg h1, Nat.testBit_two_pow_mul_add _ hv]
    by_cases h2 : k - 32 * i < 32
    · have : 32 * i ≤ k ∧ k < 32 * i + 32 := by omega
      simp only [if_pos h2, if_pos this, BitVec.testBit_toNat]
    · have : ¬ (32 * i ≤ k ∧ k < 32 * i + 32) := by omega
      rw [if_neg h2, if_neg this, Nat.testBit_div_two_pow, show k - 32 * i - 32 + 32 * (i + 1) = k by omega]

/-- A word that was written reads as written (spec/20_memory.md R68). -/
theorem getWord_setWord_same (q i : Nat) (v : Word) : getWord (setWord q i v) i = v := by
  apply BitVec.eq_of_getLsbD_eq
  intro j hj
  have : 32 * i ≤ 32 * i + j ∧ 32 * i + j < 32 * i + 32 := by omega
  rw [getWord_bit _ _ _ hj, setWord_testBit, if_pos this]
  congr 1
  omega

/-- "the other words of the register keep their values" (spec/20_memory.md R68). -/
theorem getWord_setWord_other (q i j : Nat) (v : Word) (h : j ≠ i) :
    getWord (setWord q i v) j = getWord q j := by
  apply BitVec.eq_of_getLsbD_eq
  intro k hk
  have : ¬ (32 * i ≤ 32 * j + k ∧ 32 * j + k < 32 * i + 32) := by omega
  rw [getWord_bit _ _ _ hk, getWord_bit _ _ _ hk, setWord_testBit, if_neg this]

/-- Writing a word of an `nw`-word register keeps it an `nw`-word register (spec/00_scope.md R5). -/
theorem setWord_lt (q i nw : Nat) (v : Word) (hi : i < nw) (hq : q < 2 ^ (32 * nw)) :
    setWord q i v < 2 ^ (32 * nw) := by
  apply Nat.lt_pow_two_of_testBit
  intro k hk
  have : ¬ (32 * i ≤ k ∧ k < 32 * i + 32) := by omega
  rw [setWord_testBit, if_neg this]
  exact Nat.testBit_lt_two_pow (lt_of_lt_of_le hq (Nat.pow_le_pow_right (by decide) hk))

theorem width_eq (s : State) : s.width = 32 * s.nw := rfl

/-- W is at least 32 and at most 32768 (spec/00_scope.md R5). -/
theorem width_bounds (s : State) : 32 ≤ s.width ∧ s.width ≤ 32768 := by
  have := s.size.isLt
  unfold State.width State.nw
  omega

/-- Small constants are W-bit values, since `W >= 32`. -/
theorem lt_width_of_lt (s : State) (n : Nat) (h : n < 2 ^ 32) : n < 2 ^ s.width :=
  lt_of_lt_of_le h (Nat.pow_le_pow_right (by decide) (width_bounds s).1)

/-- Assembling words one at a time (spec/00_scope.md R10). -/
theorem assemble_cons (v : Word) (vs : List Word) : assemble (v :: vs) = v.toNat + 2 ^ 32 * assemble vs := rfl

end Sys2Proof.Machine
end

