-- ==== Sys2Proof/Laws/State.lean ====
section
/-! SUPPORT. One lemma per field per shared update of State, so that no later proof unfolds a record update. -/

namespace Sys2Proof.Machine

@[simp] theorem accept_size (s : State) (v : Word) : (accept s v).size = s.size := rfl
@[simp] theorem accept_opa (s : State) (v : Word) : (accept s v).opa = s.opa := rfl
@[simp] theorem accept_opb (s : State) (v : Word) : (accept s v).opb = s.opb := rfl
@[simp] theorem accept_opm (s : State) (v : Word) : (accept s v).opm = s.opm := rfl
@[simp] theorem accept_rounds (s : State) (v : Word) : (accept s v).rounds = s.rounds := rfl
@[simp] theorem accept_res (s : State) (v : Word) : (accept s v).res = s.res := rfl
@[simp] theorem accept_resx (s : State) (v : Word) : (accept s v).resx = s.resx := rfl
@[simp] theorem accept_resy (s : State) (v : Word) : (accept s v).resy = s.resy := rfl
@[simp] theorem accept_rcnt (s : State) (v : Word) : (accept s v).rcnt = s.rcnt := rfl
@[simp] theorem accept_busy (s : State) (v : Word) : (accept s v).busy = true := rfl
@[simp] theorem accept_done (s : State) (v : Word) : (accept s v).done = false := rfl
@[simp] theorem accept_err (s : State) (v : Word) : (accept s v).err = false := rfl
@[simp] theorem accept_prime (s : State) (v : Word) : (accept s v).prime = s.prime := rfl
@[simp] theorem accept_xneg (s : State) (v : Word) : (accept s v).xneg = s.xneg := rfl
@[simp] theorem accept_yneg (s : State) (v : Word) : (accept s v).yneg = s.yneg := rfl
@[simp] theorem accept_errcode (s : State) (v : Word) : (accept s v).errcode = 0 := rfl
@[simp] theorem accept_lastcmd (s : State) (v : Word) : (accept s v).lastcmd = v := rfl
@[simp] theorem accept_irqEn (s : State) (v : Word) : (accept s v).irqEn = s.irqEn := rfl
@[simp] theorem accept_irqStat (s : State) (v : Word) : (accept s v).irqStat = s.irqStat := rfl
@[simp] theorem accept_pc (s : State) (v : Word) : (accept s v).pc = .start := rfl
@[simp] theorem accept_work (s : State) (v : Word) : (accept s v).work = s.work := rfl
@[simp] theorem accept_freeCount (s : State) (v : Word) : (accept s v).freeCount = s.freeCount := rfl
@[simp] theorem accept_turns (s : State) (v : Word) : (accept s v).turns = s.turns := rfl
@[simp] theorem accept_offers (s : State) (v : Word) : (accept s v).offers = s.offers := rfl
@[simp] theorem accept_answers (s : State) (v : Word) : (accept s v).answers = s.answers := rfl

@[simp] theorem completeOk_size (s : State) (r : Result) : (completeOk s r).size = s.size := rfl
@[simp] theorem completeOk_opa (s : State) (r : Result) : (completeOk s r).opa = s.opa := rfl
@[simp] theorem completeOk_opb (s : State) (r : Result) : (completeOk s r).opb = s.opb := rfl
@[simp] theorem completeOk_opm (s : State) (r : Result) : (completeOk s r).opm = s.opm := rfl
@[simp] theorem completeOk_rounds (s : State) (r : Result) : (completeOk s r).rounds = s.rounds := rfl
@[simp] theorem completeOk_res (s : State) (r : Result) : (completeOk s r).res = r.res := rfl
@[simp] theorem completeOk_resx (s : State) (r : Result) : (completeOk s r).resx = r.x := rfl
@[simp] theorem completeOk_resy (s : State) (r : Result) : (completeOk s r).resy = r.y := rfl
@[simp] theorem completeOk_rcnt (s : State) (r : Result) : (completeOk s r).rcnt = r.rcnt := rfl
@[simp] theorem completeOk_busy (s : State) (r : Result) : (completeOk s r).busy = false := rfl
@[simp] theorem completeOk_done (s : State) (r : Result) : (completeOk s r).done = true := rfl
@[simp] theorem completeOk_err (s : State) (r : Result) : (completeOk s r).err = false := rfl
@[simp] theorem completeOk_prime (s : State) (r : Result) : (completeOk s r).prime = r.prime := rfl
@[simp] theorem completeOk_xneg (s : State) (r : Result) : (completeOk s r).xneg = r.xneg := rfl
@[simp] theorem completeOk_yneg (s : State) (r : Result) : (completeOk s r).yneg = r.yneg := rfl
@[simp] theorem completeOk_errcode (s : State) (r : Result) : (completeOk s r).errcode = 0 := rfl
@[simp] theorem completeOk_lastcmd (s : State) (r : Result) : (completeOk s r).lastcmd = s.lastcmd := rfl
@[simp] theorem completeOk_irqEn (s : State) (r : Result) : (completeOk s r).irqEn = s.irqEn := rfl
@[simp] theorem completeOk_irqStat (s : State) (r : Result) : (completeOk s r).irqStat = s.irqStat ||| doneBit := rfl
@[simp] theorem completeOk_pc (s : State) (r : Result) : (completeOk s r).pc = .idle := rfl
@[simp] theorem completeOk_work (s : State) (r : Result) : (completeOk s r).work = Working.free s.freeCount := rfl
@[simp] theorem completeOk_freeCount (s : State) (r : Result) : (completeOk s r).freeCount = s.freeCount + 1 := rfl
@[simp] theorem completeOk_turns (s : State) (r : Result) : (completeOk s r).turns = s.turns := rfl
@[simp] theorem completeOk_offers (s : State) (r : Result) : (completeOk s r).offers = s.offers := rfl
@[simp] theorem completeOk_answers (s : State) (r : Result) : (completeOk s r).answers = s.answers := rfl

@[simp] theorem completeErr_size (s : State) (e : CmdError) : (completeErr s e).size = s.size := rfl
@[simp] theorem completeErr_opa (s : State) (e : CmdError) : (completeErr s e).opa = s.opa := rfl
@[simp] theorem completeErr_opb (s : State) (e : CmdError) : (completeErr s e).opb = s.opb := rfl
@[simp] theorem completeErr_opm (s : State) (e : CmdError) : (completeErr s e).opm = s.opm := rfl
@[simp] theorem completeErr_rounds (s : State) (e : CmdError) : (completeErr s e).rounds = s.rounds := rfl
@[simp] theorem completeErr_res (s : State) (e : CmdError) : (completeErr s e).res = 0 := rfl
@[simp] theorem completeErr_resx (s : State) (e : CmdError) : (completeErr s e).resx = 0 := rfl
@[simp] theorem completeErr_resy (s : State) (e : CmdError) : (completeErr s e).resy = 0 := rfl
@[simp] theorem completeErr_rcnt (s : State) (e : CmdError) : (completeErr s e).rcnt = 0 := rfl
@[simp] theorem completeErr_busy (s : State) (e : CmdError) : (completeErr s e).busy = false := rfl
@[simp] theorem completeErr_done (s : State) (e : CmdError) : (completeErr s e).done = true := rfl
@[simp] theorem completeErr_err (s : State) (e : CmdError) : (completeErr s e).err = true := rfl
@[simp] theorem completeErr_prime (s : State) (e : CmdError) : (completeErr s e).prime = false := rfl
@[simp] theorem completeErr_xneg (s : State) (e : CmdError) : (completeErr s e).xneg = false := rfl
@[simp] theorem completeErr_yneg (s : State) (e : CmdError) : (completeErr s e).yneg = false := rfl
@[simp] theorem completeErr_errcode (s : State) (e : CmdError) : (completeErr s e).errcode = e.code := rfl
@[simp] theorem completeErr_lastcmd (s : State) (e : CmdError) : (completeErr s e).lastcmd = s.lastcmd := rfl
@[simp] theorem completeErr_irqEn (s : State) (e : CmdError) : (completeErr s e).irqEn = s.irqEn := rfl
@[simp] theorem completeErr_irqStat (s : State) (e : CmdError) : (completeErr s e).irqStat = s.irqStat ||| errBit := rfl
@[simp] theorem completeErr_pc (s : State) (e : CmdError) : (completeErr s e).pc = .idle := rfl
@[simp] theorem completeErr_work (s : State) (e : CmdError) : (completeErr s e).work = Working.free s.freeCount := rfl
@[simp] theorem completeErr_freeCount (s : State) (e : CmdError) : (completeErr s e).freeCount = s.freeCount + 1 := rfl
@[simp] theorem completeErr_turns (s : State) (e : CmdError) : (completeErr s e).turns = s.turns := rfl
@[simp] theorem completeErr_offers (s : State) (e : CmdError) : (completeErr s e).offers = s.offers := rfl
@[simp] theorem completeErr_answers (s : State) (e : CmdError) : (completeErr s e).answers = s.answers := rfl

@[simp] theorem resetStep_size (s : State) : (resetStep s).size = s.size := rfl
@[simp] theorem resetStep_opa (s : State) : (resetStep s).opa = 0 := rfl
@[simp] theorem resetStep_opb (s : State) : (resetStep s).opb = 0 := rfl
@[simp] theorem resetStep_opm (s : State) : (resetStep s).opm = 0 := rfl
@[simp] theorem resetStep_rounds (s : State) : (resetStep s).rounds = 0 := rfl
@[simp] theorem resetStep_res (s : State) : (resetStep s).res = 0 := rfl
@[simp] theorem resetStep_resx (s : State) : (resetStep s).resx = 0 := rfl
@[simp] theorem resetStep_resy (s : State) : (resetStep s).resy = 0 := rfl
@[simp] theorem resetStep_rcnt (s : State) : (resetStep s).rcnt = 0 := rfl
@[simp] theorem resetStep_busy (s : State) : (resetStep s).busy = false := rfl
@[simp] theorem resetStep_done (s : State) : (resetStep s).done = false := rfl
@[simp] theorem resetStep_err (s : State) : (resetStep s).err = false := rfl
@[simp] theorem resetStep_prime (s : State) : (resetStep s).prime = false := rfl
@[simp] theorem resetStep_xneg (s : State) : (resetStep s).xneg = false := rfl
@[simp] theorem resetStep_yneg (s : State) : (resetStep s).yneg = false := rfl
@[simp] theorem resetStep_errcode (s : State) : (resetStep s).errcode = 0 := rfl
@[simp] theorem resetStep_lastcmd (s : State) : (resetStep s).lastcmd = 0 := rfl
@[simp] theorem resetStep_irqEn (s : State) : (resetStep s).irqEn = 0 := rfl
@[simp] theorem resetStep_irqStat (s : State) : (resetStep s).irqStat = 0 := rfl
@[simp] theorem resetStep_pc (s : State) : (resetStep s).pc = .idle := rfl
@[simp] theorem resetStep_work (s : State) : (resetStep s).work = Working.free s.freeCount := rfl
@[simp] theorem resetStep_freeCount (s : State) : (resetStep s).freeCount = s.freeCount + 1 := rfl
@[simp] theorem resetStep_turns (s : State) : (resetStep s).turns = s.turns := rfl
@[simp] theorem resetStep_offers (s : State) : (resetStep s).offers = s.offers := rfl
@[simp] theorem resetStep_answers (s : State) : (resetStep s).answers = s.answers := rfl

@[simp] theorem atReset_size (n : Fin 1024) : (State.atReset n).size = n := rfl
@[simp] theorem atReset_opa (n : Fin 1024) : (State.atReset n).opa = 0 := rfl
@[simp] theorem atReset_opb (n : Fin 1024) : (State.atReset n).opb = 0 := rfl
@[simp] theorem atReset_opm (n : Fin 1024) : (State.atReset n).opm = 0 := rfl
@[simp] theorem atReset_rounds (n : Fin 1024) : (State.atReset n).rounds = 0 := rfl
@[simp] theorem atReset_res (n : Fin 1024) : (State.atReset n).res = 0 := rfl
@[simp] theorem atReset_resx (n : Fin 1024) : (State.atReset n).resx = 0 := rfl
@[simp] theorem atReset_resy (n : Fin 1024) : (State.atReset n).resy = 0 := rfl
@[simp] theorem atReset_rcnt (n : Fin 1024) : (State.atReset n).rcnt = 0 := rfl
@[simp] theorem atReset_busy (n : Fin 1024) : (State.atReset n).busy = false := rfl
@[simp] theorem atReset_done (n : Fin 1024) : (State.atReset n).done = false := rfl
@[simp] theorem atReset_err (n : Fin 1024) : (State.atReset n).err = false := rfl
@[simp] theorem atReset_prime (n : Fin 1024) : (State.atReset n).prime = false := rfl
@[simp] theorem atReset_xneg (n : Fin 1024) : (State.atReset n).xneg = false := rfl
@[simp] theorem atReset_yneg (n : Fin 1024) : (State.atReset n).yneg = false := rfl
@[simp] theorem atReset_errcode (n : Fin 1024) : (State.atReset n).errcode = 0 := rfl
@[simp] theorem atReset_lastcmd (n : Fin 1024) : (State.atReset n).lastcmd = 0 := rfl
@[simp] theorem atReset_irqEn (n : Fin 1024) : (State.atReset n).irqEn = 0 := rfl
@[simp] theorem atReset_irqStat (n : Fin 1024) : (State.atReset n).irqStat = 0 := rfl
@[simp] theorem atReset_pc (n : Fin 1024) : (State.atReset n).pc = .idle := rfl
@[simp] theorem atReset_work (n : Fin 1024) : (State.atReset n).work = Working.cleared := rfl
@[simp] theorem atReset_freeCount (n : Fin 1024) : (State.atReset n).freeCount = 0 := rfl
@[simp] theorem atReset_turns (n : Fin 1024) : (State.atReset n).turns = [] := rfl
@[simp] theorem atReset_offers (n : Fin 1024) : (State.atReset n).offers = [] := rfl
@[simp] theorem atReset_answers (n : Fin 1024) : (State.atReset n).answers = [] := rfl

@[simp] theorem hostRead_size (s : State) (a : Addr) : (hostRead s a).size = s.size := rfl
@[simp] theorem hostRead_opa (s : State) (a : Addr) : (hostRead s a).opa = s.opa := rfl
@[simp] theorem hostRead_opb (s : State) (a : Addr) : (hostRead s a).opb = s.opb := rfl
@[simp] theorem hostRead_opm (s : State) (a : Addr) : (hostRead s a).opm = s.opm := rfl
@[simp] theorem hostRead_rounds (s : State) (a : Addr) : (hostRead s a).rounds = s.rounds := rfl
@[simp] theorem hostRead_res (s : State) (a : Addr) : (hostRead s a).res = s.res := rfl
@[simp] theorem hostRead_resx (s : State) (a : Addr) : (hostRead s a).resx = s.resx := rfl
@[simp] theorem hostRead_resy (s : State) (a : Addr) : (hostRead s a).resy = s.resy := rfl
@[simp] theorem hostRead_rcnt (s : State) (a : Addr) : (hostRead s a).rcnt = s.rcnt := rfl
@[simp] theorem hostRead_busy (s : State) (a : Addr) : (hostRead s a).busy = s.busy := rfl
@[simp] theorem hostRead_done (s : State) (a : Addr) : (hostRead s a).done = s.done := rfl
@[simp] theorem hostRead_err (s : State) (a : Addr) : (hostRead s a).err = s.err := rfl
@[simp] theorem hostRead_prime (s : State) (a : Addr) : (hostRead s a).prime = s.prime := rfl
@[simp] theorem hostRead_xneg (s : State) (a : Addr) : (hostRead s a).xneg = s.xneg := rfl
@[simp] theorem hostRead_yneg (s : State) (a : Addr) : (hostRead s a).yneg = s.yneg := rfl
@[simp] theorem hostRead_errcode (s : State) (a : Addr) : (hostRead s a).errcode = s.errcode := rfl
@[simp] theorem hostRead_lastcmd (s : State) (a : Addr) : (hostRead s a).lastcmd = s.lastcmd := rfl
@[simp] theorem hostRead_irqEn (s : State) (a : Addr) : (hostRead s a).irqEn = s.irqEn := rfl
@[simp] theorem hostRead_irqStat (s : State) (a : Addr) : (hostRead s a).irqStat = s.irqStat := rfl
@[simp] theorem hostRead_pc (s : State) (a : Addr) : (hostRead s a).pc = s.pc := rfl
@[simp] theorem hostRead_work (s : State) (a : Addr) : (hostRead s a).work = s.work := rfl
@[simp] theorem hostRead_freeCount (s : State) (a : Addr) : (hostRead s a).freeCount = s.freeCount := rfl
@[simp] theorem hostRead_turns (s : State) (a : Addr) : (hostRead s a).turns = s.turns := rfl
@[simp] theorem hostRead_offers (s : State) (a : Addr) : (hostRead s a).offers = s.offers := rfl
@[simp] theorem hostRead_answers (s : State) (a : Addr) : (hostRead s a).answers = busRead s a :: s.answers := rfl

@[simp] theorem offerWord_size (s : State) (r : Nat) : (offerWord s r).size = s.size := rfl
@[simp] theorem offerWord_opa (s : State) (r : Nat) : (offerWord s r).opa = s.opa := rfl
@[simp] theorem offerWord_opb (s : State) (r : Nat) : (offerWord s r).opb = s.opb := rfl
@[simp] theorem offerWord_opm (s : State) (r : Nat) : (offerWord s r).opm = s.opm := rfl
@[simp] theorem offerWord_rounds (s : State) (r : Nat) : (offerWord s r).rounds = s.rounds := rfl
@[simp] theorem offerWord_res (s : State) (r : Nat) : (offerWord s r).res = s.res := rfl
@[simp] theorem offerWord_resx (s : State) (r : Nat) : (offerWord s r).resx = s.resx := rfl
@[simp] theorem offerWord_resy (s : State) (r : Nat) : (offerWord s r).resy = s.resy := rfl
@[simp] theorem offerWord_rcnt (s : State) (r : Nat) : (offerWord s r).rcnt = s.rcnt := rfl
@[simp] theorem offerWord_busy (s : State) (r : Nat) : (offerWord s r).busy = s.busy := rfl
@[simp] theorem offerWord_done (s : State) (r : Nat) : (offerWord s r).done = s.done := rfl
@[simp] theorem offerWord_err (s : State) (r : Nat) : (offerWord s r).err = s.err := rfl
@[simp] theorem offerWord_prime (s : State) (r : Nat) : (offerWord s r).prime = s.prime := rfl
@[simp] theorem offerWord_xneg (s : State) (r : Nat) : (offerWord s r).xneg = s.xneg := rfl
@[simp] theorem offerWord_yneg (s : State) (r : Nat) : (offerWord s r).yneg = s.yneg := rfl
@[simp] theorem offerWord_errcode (s : State) (r : Nat) : (offerWord s r).errcode = s.errcode := rfl
@[simp] theorem offerWord_lastcmd (s : State) (r : Nat) : (offerWord s r).lastcmd = s.lastcmd := rfl
@[simp] theorem offerWord_irqEn (s : State) (r : Nat) : (offerWord s r).irqEn = s.irqEn := rfl
@[simp] theorem offerWord_irqStat (s : State) (r : Nat) : (offerWord s r).irqStat = s.irqStat := rfl
@[simp] theorem offerWord_pc (s : State) (r : Nat) : (offerWord s r).pc = s.pc := rfl
@[simp] theorem offerWord_work (s : State) (r : Nat) : (offerWord s r).work = s.work := rfl
@[simp] theorem offerWord_freeCount (s : State) (r : Nat) : (offerWord s r).freeCount = s.freeCount := rfl
@[simp] theorem offerWord_turns (s : State) (r : Nat) : (offerWord s r).turns = s.turns := rfl
@[simp] theorem offerWord_offers (s : State) (r : Nat) : (offerWord s r).offers = s.offers ++ [r] := rfl
@[simp] theorem offerWord_answers (s : State) (r : Nat) : (offerWord s r).answers = s.answers := rfl

@[simp] theorem State.reset_eq : State.reset = State.atReset Config.size := rfl

@[simp] theorem withFetchWord_eq (s : State) (nbits w : Nat) :
    s.withFetchWord nbits w = accept { s with turns := [] } (tableWord nbits w) := rfl

/-- The working registers an error or success completion leaves do not depend on those before it (spec/10_state.md R42). -/
theorem completeOk_work_irrelevant (s : State) (k : Working) (r : Result) :
    completeOk { s with work := k } r = completeOk s r := rfl

theorem completeOk_pc_irrelevant (s : State) (p : Phase) (r : Result) :
    completeOk { s with pc := p } r = completeOk s r := rfl

theorem completeErr_work_irrelevant (s : State) (k : Working) (e : CmdError) :
    completeErr { s with work := k } e = completeErr s e := rfl

theorem completeErr_pc_irrelevant (s : State) (p : Phase) (e : CmdError) :
    completeErr { s with pc := p } e = completeErr s e := rfl

end Sys2Proof.Machine
end

