-- ==== Sys2Proof/Laws/Bus.lean ====
section
/-! SUPPORT. What a bus transaction can do, said once: proofs cite these and do not unfold the bus primitives. -/

namespace Sys2Proof.Machine

/-- A write is performed only on an aligned, mapped, writable word that is not locked by a running command
(spec/20_memory.md R66). -/
theorem writeTarget_some {s : State} {a : Addr} {r : RegWord} (h : writeTarget s a = some r) :
    aligned a = true ∧ regAt s.nw a = some r ∧ r.readOnly = false ∧ (s.busy = true → r.busyLocked = false) := by
  unfold writeTarget at h
  split at h
  · cases h
  · rename_i ha
    split at h
    · cases h
    · rename_i r' hr
      split at h
      · cases h
      · rename_i hro
        split at h
        · cases h
        · rename_i hb
          obtain rfl : r' = r := by simpa using h
          exact ⟨by simpa using ha, hr, by simpa using hro, by simpa using hb⟩

/-- A write either is refused and changes nothing, or is performed (spec/20_memory.md R66). -/
theorem busWrite_cases (s : State) (a : Addr) (v : Word) :
    (writeTarget s a = none ∧ busWrite s a v = s ∧ busWriteAnswer s a = .err) ∨
    ∃ r, writeTarget s a = some r ∧ busWrite s a v = writeReg s r v ∧ busWriteAnswer s a = .ok := by
  unfold busWrite busWriteAnswer
  cases h : writeTarget s a with
  | none => exact .inl ⟨rfl, rfl, rfl⟩
  | some r => exact .inr ⟨r, rfl, rfl, rfl⟩

/-- The effect of a performed write, word by word (spec/20_memory.md R68). -/
theorem writeReg_cases (s : State) (r : RegWord) (v : Word) (h : r.readOnly = false) :
    (∃ i, r = .opa i ∧ writeReg s r v = { s with opa := setWord s.opa i v }) ∨
    (∃ i, r = .opb i ∧ writeReg s r v = { s with opb := setWord s.opb i v }) ∨
    (∃ i, r = .opm i ∧ writeReg s r v = { s with opm := setWord s.opm i v }) ∨
    (r = .rounds ∧ writeReg s r v = { s with rounds := v }) ∨
    (r = .irqEn ∧ writeReg s r v = { s with irqEn := v.setWidth 2 }) ∨
    (r = .irqStat ∧ writeReg s r v = { s with irqStat := s.irqStat &&& ~~~(v.setWidth 2) }) ∨
    (r = .cmd ∧ writeReg s r v = accept s v) := by
  cases r <;> simp [RegWord.readOnly, writeReg] at h ⊢

/-- A word of a bank that the map gives is one of the register's `NW` words (spec/20_memory.md R61, R69). -/
theorem regAt_bank_index {nw : Nat} {a : Addr} {i : Nat}
    (h : regAt nw a = some (.opa i) ∨ regAt nw a = some (.opb i) ∨ regAt nw a = some (.opm i)) : i < nw := by
  unfold regAt at h
  simp only at h
  split at h
  · unfold controlWord at h
    split at h <;> simp at h
  · split at h
    · rename_i hlt
      unfold bankWord at h
      split at h <;> simp at h <;> omega
    · simp at h

/-- While a command runs, a performed write is to IRQ_EN or IRQ_STAT (spec/20_memory.md R71). -/
theorem writeTarget_busy {s : State} {a : Addr} {r : RegWord} (hb : s.busy = true) (h : writeTarget s a = some r) :
    r = .irqEn ∨ r = .irqStat := by
  obtain ⟨-, -, hro, hl⟩ := writeTarget_some h
  have := hl hb
  cases r <;> simp [RegWord.readOnly, RegWord.busyLocked] at hro this ⊢

/-- What the host's write of one word does to a running command: only the interrupt registers can change
(spec/20_memory.md R71). -/
theorem busWrite_busy (s : State) (a : Addr) (v : Word) (hb : s.busy = true) :
    busWrite s a v = s ∨ busWrite s a v = { s with irqEn := v.setWidth 2 } ∨
      busWrite s a v = { s with irqStat := s.irqStat &&& ~~~(v.setWidth 2) } := by
  rcases busWrite_cases s a v with ⟨-, h, -⟩ | ⟨r, hr, h, -⟩
  · exact .inl h
  · rcases writeTarget_busy hb hr with rfl | rfl
    · exact .inr (.inl h)
    · exact .inr (.inr h)

/-- One poll of WAIT while a command runs (spec/30_encoding.md R99). -/
theorem hostWait_busy (s : State) (gaps : List Nat) (h : s.busy = true) :
    hostWait s gaps = { s with answers := busRead s 0x000C :: s.answers, turns := pollAgain gaps s.turns } := by
  simp [hostWait, h, hostRead]

/-- The last poll of WAIT (spec/30_encoding.md R99). -/
theorem hostWait_idle (s : State) (gaps : List Nat) (h : s.busy = false) : hostWait s gaps = hostRead s 0x000C := by
  simp [hostWait, h]

/-- Everything `pollAgain` can do: the other agents' turns listed at the head are split in two, all in order, and the next
poll stands between the two parts, with an engine turn before it where no gap is left (spec/30_encoding.md R99). -/
theorem pollAgain_cases (gaps : List Nat) (ts : List Turn) :
    ∃ before after, ts = before ++ after ∧ (∀ u ∈ before, u.betweenPolls = true) ∧
      ((∃ n more, gaps = n :: more ∧ before.length ≤ n ∧ pollAgain gaps ts = before ++ .wait more :: after) ∨
        (gaps = [] ∧ before = ts.takeWhile Turn.betweenPolls ∧
          pollAgain gaps ts = before ++ .engine :: .wait [] :: after)) := by
  have hall : ∀ u ∈ ts.takeWhile Turn.betweenPolls, u.betweenPolls = true := by
    intro u hu
    exact List.mem_takeWhile_imp hu
  cases gaps with
  | nil => exact ⟨_, _, (List.takeWhile_append_dropWhile ..).symm, hall, .inr ⟨rfl, rfl, rfl⟩⟩
  | cons n more =>
    refine ⟨(ts.takeWhile Turn.betweenPolls).take n, (ts.takeWhile Turn.betweenPolls).drop n ++ ts.dropWhile
      Turn.betweenPolls, ?_, fun u hu => hall u (List.mem_of_mem_take hu), .inl ⟨n, more, rfl, by simp, rfl⟩⟩
    rw [← List.append_assoc, List.take_append_drop, List.takeWhile_append_dropWhile]

/-- A poll neither adds nor loses a word to be offered. -/
theorem offer_mem_pollAgain (gaps : List Nat) (ts : List Turn) (r : Nat) :
    Turn.offer r ∈ pollAgain gaps ts ↔ Turn.offer r ∈ ts := by
  obtain ⟨before, after, rfl, -, ⟨n, more, -, -, h⟩ | ⟨-, -, h⟩⟩ := pollAgain_cases gaps ts <;> simp [h]

/-- The `i`-th word of the bank at `base` is at an aligned address inside the window (spec/20_memory.md R61). -/
theorem bankAddr_toNat (b i : Nat) (hb : b ≤ 7) (hi : i < 1024) :
    (BitVec.ofNat 15 (b * 0x1000 + 4 * i)).toNat = b * 0x1000 + 4 * i := by
  rw [BitVec.toNat_ofNat]
  exact Nat.mod_eq_of_lt (by omega)

theorem nw_le (s : State) : s.nw ≤ 1024 :=
  s.size.isLt

/-- The address map over the banks (spec/20_memory.md R61). -/
theorem regAt_bank (nw b i : Nat) (hb : 1 ≤ b ∧ b ≤ 7) (hn : nw ≤ 1024) (hi : i < nw) :
    regAt nw (BitVec.ofNat 15 (b * 0x1000 + 4 * i)) = bankWord b i := by
  unfold regAt
  simp only
  rw [bankAddr_toNat b i hb.2 (by omega), if_neg (by omega), show (b * 4096 + 4 * i) % 4096 / 4 = i by omega,
    show (b * 4096 + 4 * i) / 4096 = b by omega, if_pos hi]

theorem aligned_bank (b i : Nat) (hb : b ≤ 7) (hi : i < 1024) :
    aligned (BitVec.ofNat 15 (b * 0x1000 + 4 * i)) = true := by
  unfold aligned
  rw [bankAddr_toNat b i hb hi, show (b * 4096 + 4 * i) % 4 = 0 by omega]
  rfl

/-- A read of a bank word (spec/20_memory.md R67). -/
theorem busRead_bank (s : State) (b i : Nat) (r : RegWord) (hb : 1 ≤ b ∧ b ≤ 6) (hi : i < s.nw)
    (hr : bankWord b i = some r) :
    busRead s (BitVec.ofNat 15 (b * 0x1000 + 4 * i)) = .data (readReg s r) := by
  have := nw_le s
  unfold busRead
  rw [aligned_bank b i (by omega) (by omega), regAt_bank s.nw b i (by omega) this hi, hr]
  rfl

/-- The write target of an operand word (spec/20_memory.md R66, R71). -/
theorem writeTarget_operand (s : State) (b i : Nat) (r : RegWord) (hb : 1 ≤ b ∧ b ≤ 3) (hi : i < s.nw)
    (hr : bankWord b i = some r) :
    writeTarget s (BitVec.ofNat 15 (b * 0x1000 + 4 * i)) = if s.busy then none else some r := by
  have := nw_le s
  unfold writeTarget
  rw [aligned_bank b i (by omega) (by omega), regAt_bank s.nw b i (by omega) this hi, hr]
  have : b = 1 ∨ b = 2 ∨ b = 3 := by omega
  rcases this with rfl | rfl | rfl <;> cases hr <;> cases s.busy <;> rfl

/-- The write target of CMD (spec/20_memory.md R66, R71). -/
theorem writeTarget_cmd (s : State) : writeTarget s 0x0008 = if s.busy then none else some .cmd := by
  show (if s.busy && true then none else some RegWord.cmd) = _
  cases s.busy <;> rfl

/-- The write target of ROUNDS (spec/20_memory.md R66, R71). -/
theorem writeTarget_rounds (s : State) : writeTarget s 0x0010 = if s.busy then none else some .rounds := by
  show (if s.busy && true then none else some RegWord.rounds) = _
  cases s.busy <;> rfl

/-- IRQ_EN can be written at any time (spec/10_state.md R38). -/
theorem writeTarget_irqEn (s : State) : writeTarget s 0x0014 = some .irqEn := by
  show (if s.busy && false then none else some RegWord.irqEn) = _
  cases s.busy <;> rfl

/-- IRQ_STAT can be written at any time (spec/10_state.md R39). -/
theorem writeTarget_irqStat (s : State) : writeTarget s 0x0018 = some .irqStat := by
  show (if s.busy && false then none else some RegWord.irqStat) = _
  cases s.busy <;> rfl

/-- STATUS cannot be written (spec/10_state.md R30). -/
theorem writeTarget_status (s : State) : writeTarget s 0x000C = none := rfl

theorem busWrite_target {s : State} {a : Addr} {r : RegWord} (v : Word) (h : writeTarget s a = some r) :
    busWrite s a v = writeReg s r v ∧ busWriteAnswer s a = .ok := by
  unfold busWrite busWriteAnswer
  rw [h]
  exact ⟨rfl, rfl⟩

theorem busWrite_refused {s : State} {a : Addr} (v : Word) (h : writeTarget s a = none) :
    busWrite s a v = s ∧ busWriteAnswer s a = .err := by
  unfold busWrite busWriteAnswer
  rw [h]
  exact ⟨rfl, rfl⟩

/-- The host's write where it is performed. -/
theorem hostWrite_target {s : State} {a : Addr} {r : RegWord} (v : Word) (h : writeTarget s a = some r) :
    hostWrite s a v = { writeReg s r v with answers := .ok :: s.answers } := by
  unfold hostWrite
  rw [(busWrite_target v h).1, (busWrite_target v h).2]

/-- The host's write where it is refused: only the answer is new (spec/60_exceptions.md R194). -/
theorem hostWrite_refused {s : State} {a : Addr} (v : Word) (h : writeTarget s a = none) :
    hostWrite s a v = { s with answers := .err :: s.answers } := by
  unfold hostWrite
  rw [(busWrite_refused v h).1, (busWrite_refused v h).2]

theorem writeTarget_cmd_idle (s : State) (h : s.busy = false) : writeTarget s 0x0008 = some .cmd := by
  rw [writeTarget_cmd, h]
  rfl

theorem writeTarget_rounds_idle (s : State) (h : s.busy = false) : writeTarget s 0x0010 = some .rounds := by
  rw [writeTarget_rounds, h]
  rfl

theorem writeTarget_operand_idle (s : State) (b i : Nat) (r : RegWord) (h : s.busy = false) (hb : 1 ≤ b ∧ b ≤ 3)
    (hi : i < s.nw) (hr : bankWord b i = some r) :
    writeTarget s (BitVec.ofNat 15 (b * 0x1000 + 4 * i)) = some r := by
  rw [writeTarget_operand s b i r hb hi hr, h]
  rfl

/-- STATUS is always readable (spec/20_memory.md R67). -/
theorem busRead_status (s : State) : busRead s 0x000C = .data s.statusWord := rfl

end Sys2Proof.Machine
end

