-- ==== Sys2Proof/Laws/Step.lean ====
section
/-! SUPPORT. What each command's micro-step, the engine's turn and a step can do, said once. -/

namespace Sys2Proof.Machine

/-- MODEXP's micro-steps, by phase (spec/40_common.md R121). -/
theorem execModexp_cases {s t : State} (h : execModexp s = .next t) :
    (s.pc = .start ∧ t = startModexp s) ∨ (s.pc = .meLoop ∧ t = meLoop s) := by
  unfold execModexp at h
  split at h <;> simp_all

/-- MRTEST's micro-steps, by phase (spec/40_common.md R121). -/
theorem execMrtest_cases {s t : State} (h : execMrtest s = .next t) :
    (s.pc = .start ∧ t = startMrtest s) ∨ (s.pc = .mrDecomp ∧ t = mrDecomp s) ∨ (s.pc = .mrDraw ∧ t = mrDraw s) ∨
    (s.pc = .mrPow ∧ t = mrPow s) ∨ (s.pc = .mrCheck ∧ t = mrCheck s) := by
  unfold execMrtest at h
  split at h <;> simp_all

/-- The shared Euclid loop (spec/43_euclid.md R172). -/
theorem euLoop_cases {s t : State} (h : euLoop s = .next t) :
    (s.work.eA = 0 ∧ ∃ p, euclidDone s.lastcmd = some p ∧ t = { s with pc := p }) ∨
    (s.work.eA ≠ 0 ∧ t = { s with work := euclidDivide s.work }) := by
  unfold euLoop at h
  split at h
  · split at h <;> simp_all
  · simp_all

/-- EGCD's micro-steps, by phase (spec/40_common.md R121). -/
theorem execEgcd_cases {s t : State} (h : execEgcd s = .next t) :
    (s.pc = .start ∧ t = startEgcd s) ∨ (s.pc = .euLoop ∧ euLoop s = .next t) ∨
    (s.pc = .euDoneEgcd ∧ t = euDoneEgcd s) := by
  unfold execEgcd at h
  split at h <;> simp_all

/-- MODINV's micro-steps, by phase (spec/40_common.md R121). -/
theorem execModinv_cases {s t : State} (h : execModinv s = .next t) :
    (s.pc = .start ∧ t = startModinv s) ∨ (s.pc = .euLoop ∧ euLoop s = .next t) ∨
    (s.pc = .euDoneInv ∧ t = euDoneInv s) := by
  unfold execModinv at h
  split at h <;> simp_all

/-- GCD's micro-steps, by phase (spec/40_common.md R121). -/
theorem execGcd_cases {s t : State} (h : execGcd s = .next t) :
    (s.pc = .start ∧ t = startGcd s) ∨ (s.pc = .euLoop ∧ euLoop s = .next t) ∨
    (s.pc = .euDoneGcd ∧ t = euDoneGcd s) := by
  unfold execGcd at h
  split at h <;> simp_all

/-- The engine's turn in IDLE does nothing (spec/10_state.md R28). -/
theorem engineTurn_idle (s : State) (h : s.pc = .idle) : engineTurn s = .next s := by
  simp [engineTurn, h]

/-- The engine's turn while a command runs is that command's micro-step. -/
theorem engineTurn_command (s : State) (i : Instr) (h : s.pc ≠ .idle) (hd : decode s.lastcmd = .ok i) :
    engineTurn s = exec i s := by
  unfold engineTurn fetchDecode
  split
  · contradiction
  · simp [hd]

/-- The engine's turn in START on an illegal word raises ILLEGAL_CMD (spec/40_common.md R112). -/
theorem engineTurn_illegal (s : State) (e : DecodeError) (h : s.pc = .start) (hd : decode s.lastcmd = .error e) :
    engineTurn s = .next (completeErr s .illegalCmd) := by
  simp [engineTurn, fetchDecode, h, hd, illegalCommand]

/-- Everything the engine's turn can do. -/
theorem engineTurn_cases {s t : State} (h : engineTurn s = .next t) :
    (s.pc = .idle ∧ t = s) ∨
    (s.pc ≠ .idle ∧ ∃ i, decode s.lastcmd = .ok i ∧ exec i s = .next t) ∨
    (s.pc = .start ∧ (∃ e, decode s.lastcmd = .error e) ∧ t = completeErr s .illegalCmd) := by
  unfold engineTurn fetchDecode at h
  split at h
  · rename_i hp
    exact .inl ⟨hp, by simpa using h.symm⟩
  · rename_i hp
    split at h
    · rename_i i hd
      exact .inr (.inl ⟨hp, i, hd, h⟩)
    · rename_i e hd
      unfold illegalCommand at h
      split at h
      · rename_i hs
        exact .inr (.inr ⟨hs, ⟨e, hd⟩, by simpa using h.symm⟩)
      · simp at h

/-- Everything a step can do: the turn at the head of the list is taken off it and performed; with no turn listed it is
the engine's (spec/20_memory.md R74). -/
theorem step_cases {s t : State} (h : step s = .next t) :
    (s.turns = [] ∧ engineTurn s = .next t) ∨
    ∃ ts, (s.turns = .engine :: ts ∧ engineTurn { s with turns := ts } = .next t) ∨
      (∃ a, s.turns = .read a :: ts ∧ t = hostRead { s with turns := ts } a) ∨
      (∃ a v, s.turns = .write a v :: ts ∧ t = hostWrite { s with turns := ts } a v) ∨
      (∃ r, s.turns = .offer r :: ts ∧ t = offerWord { s with turns := ts } r) ∨
      (s.turns = .reset :: ts ∧ t = resetStep { s with turns := ts }) ∨
      (∃ gaps, s.turns = .wait gaps :: ts ∧ t = hostWait { s with turns := ts } gaps) := by
  unfold step at h
  split at h <;> simp_all

theorem step_engine_nil (s : State) (h : s.turns = []) : step s = engineTurn s := by
  simp [step, h]

theorem step_engine_cons (s : State) (ts : List Turn) (h : s.turns = .engine :: ts) :
    step s = engineTurn { s with turns := ts } := by
  simp [step, h]

/-- One more step at the front of a run, for any machine behind the host's interface. -/
theorem coreRun_succ_next (M : Host.Core) (k : Nat) {s t : M.State} (h : M.step s = .next t) :
    Host.Core.run M (k + 1) s = Host.Core.run M k t := by
  rw [Host.Core.run, h]

/-- A run that does not stop begins with a step that does not stop. -/
theorem coreRun_succ_cases (M : Host.Core) (k : Nat) {s t : M.State} (h : Host.Core.run M (k + 1) s = .next t) :
    ∃ u, M.step s = .next u ∧ Host.Core.run M k u = .next t := by
  rw [Host.Core.run] at h
  split at h
  · rename_i u hu
    exact ⟨u, hu, h⟩
  · cases h
  · cases h

theorem run_zero (s : State) : run 0 s = .next s := rfl

theorem run_succ_next (k : Nat) {s t : State} (h : step s = .next t) :
    run (k + 1) s = run k t :=
  coreRun_succ_next core k h

theorem run_one {s t : State} (h : step s = .next t) : run 1 s = .next t :=
  run_succ_next 0 h

theorem run_succ_cases (k : Nat) {s t : State} (h : run (k + 1) s = .next t) :
    ∃ u, step s = .next u ∧ run k u = .next t :=
  coreRun_succ_cases core k h

/-- Runs compose. -/
theorem run_add (j k : Nat) {s t : State} (h : run j s = .next t) :
    run (j + k) s = run k t := by
  induction j generalizing s with
  | zero =>
    rw [run_zero] at h
    cases h
    rw [Nat.zero_add]
  | succ j ih =>
    obtain ⟨u, hu, hr⟩ := run_succ_cases j h
    rw [Nat.add_right_comm, run_succ_next _ hu, ih hr]

end Sys2Proof.Machine
end

