-- ==== Sys2Proof/Laws/HostNotation.lean ====
section
/-! SUPPORT. The writes a pseudo-line `LD` stands for (spec/30_encoding.md R99), each as one state update, and what a write
that R241 does not forbid can do (spec/70_reset_and_hazards.md). -/

namespace Sys2Proof.Machine

@[simp] theorem OperandReg.wide_opa : OperandReg.opa.wide = .opa := rfl

@[simp] theorem OperandReg.wide_opb : OperandReg.opb.wide = .opb := rfl

@[simp] theorem OperandReg.wide_opm : OperandReg.opm.wide = .opm := rfl

@[simp] theorem ResultReg.wide_res : ResultReg.res.wide = .res := rfl

@[simp] theorem ResultReg.wide_resx : ResultReg.resx.wide = .resx := rfl

@[simp] theorem ResultReg.wide_resy : ResultReg.resy.wide = .resy := rfl

@[simp] theorem State.endState_pc (s : State) : s.endState.pc = s.pc := rfl

@[simp] theorem State.endState_visible (s : State) : s.endState.visible = s.visible := rfl

/-- A write that R241 does not forbid is refused, or is to IRQ_EN or IRQ_STAT, whether or not a command runs
(spec/70_reset_and_hazards.md R241). -/
theorem writeTarget_notLocked {s : State} {a : Addr} {r : RegWord} (hl : lockedAddr s.nw a = false)
    (h : writeTarget s a = some r) : r = .irqEn ∨ r = .irqStat := by
  obtain ⟨ha, hr, hro, -⟩ := writeTarget_some h
  rw [lockedAddr, ha, hr, Bool.true_and] at hl
  cases r <;> simp [RegWord.readOnly, RegWord.busyLocked] at hro hl ⊢

/-- The turns of a program one line at a time. -/
theorem programTurns_cons (nw : Nat) (l : Line) (p : List Line) :
    programTurns nw (l :: p) = l.turns nw ++ programTurns nw p := rfl

theorem opaAddr_eq (i : Nat) : WideReg.opa.addr i = BitVec.ofNat 15 (1 * 0x1000 + 4 * i) := rfl

theorem opbAddr_eq (i : Nat) : WideReg.opb.addr i = BitVec.ofNat 15 (2 * 0x1000 + 4 * i) := rfl

theorem opmAddr_eq (i : Nat) : WideReg.opm.addr i = BitVec.ofNat 15 (3 * 0x1000 + 4 * i) := rfl

/-- One word of `LD OPA` on an idle block (spec/20_memory.md R68). -/
theorem hostWrite_opa (s : State) (i : Nat) (v : Word) (h : s.busy = false) (hi : i < s.nw) :
    hostWrite s (WideReg.opa.addr i) v = { s with opa := setWord s.opa i v, answers := .ok :: s.answers } := by
  have w := hostWrite_target v (writeTarget_operand_idle s 1 i _ h (by decide) hi rfl)
  simp only [writeReg] at w
  rw [opaAddr_eq]
  exact w

/-- One word of `LD OPB` on an idle block (spec/20_memory.md R68). -/
theorem hostWrite_opb (s : State) (i : Nat) (v : Word) (h : s.busy = false) (hi : i < s.nw) :
    hostWrite s (WideReg.opb.addr i) v = { s with opb := setWord s.opb i v, answers := .ok :: s.answers } := by
  have w := hostWrite_target v (writeTarget_operand_idle s 2 i _ h (by decide) hi rfl)
  simp only [writeReg] at w
  rw [opbAddr_eq]
  exact w

/-- One word of `LD OPM` on an idle block (spec/20_memory.md R68). -/
theorem hostWrite_opm (s : State) (i : Nat) (v : Word) (h : s.busy = false) (hi : i < s.nw) :
    hostWrite s (WideReg.opm.addr i) v = { s with opm := setWord s.opm i v, answers := .ok :: s.answers } := by
  have w := hostWrite_target v (writeTarget_operand_idle s 3 i _ h (by decide) hi rfl)
  simp only [writeReg] at w
  rw [opmAddr_eq]
  exact w

/-- A step that is the host's write (spec/20_memory.md R66). -/
theorem step_write (s : State) (a : Addr) (v : Word) (ts : List Turn) (h : s.turns = .write a v :: ts) :
    step s = .next (hostWrite { s with turns := ts } a v) := by
  simp only [step, h]

/-- The step that writes one word of `LD OPA` on an idle block (spec/30_encoding.md R99). -/
theorem step_ld_opa (s : State) (i : Nat) (v : Word) (ts : List Turn) (ht : s.turns = .write (WideReg.opa.addr i) v :: ts)
    (h : s.busy = false) (hi : i < s.nw) :
    step s = .next { s with turns := ts, opa := setWord s.opa i v, answers := .ok :: s.answers } :=
  (step_write s _ v ts ht).trans (congrArg _ (hostWrite_opa { s with turns := ts } i v h hi))

/-- The step that writes one word of `LD OPB` on an idle block (spec/30_encoding.md R99). -/
theorem step_ld_opb (s : State) (i : Nat) (v : Word) (ts : List Turn) (ht : s.turns = .write (WideReg.opb.addr i) v :: ts)
    (h : s.busy = false) (hi : i < s.nw) :
    step s = .next { s with turns := ts, opb := setWord s.opb i v, answers := .ok :: s.answers } :=
  (step_write s _ v ts ht).trans (congrArg _ (hostWrite_opb { s with turns := ts } i v h hi))

/-- The step that writes one word of `LD OPM` on an idle block (spec/30_encoding.md R99). -/
theorem step_ld_opm (s : State) (i : Nat) (v : Word) (ts : List Turn) (ht : s.turns = .write (WideReg.opm.addr i) v :: ts)
    (h : s.busy = false) (hi : i < s.nw) :
    step s = .next { s with turns := ts, opm := setWord s.opm i v, answers := .ok :: s.answers } :=
  (step_write s _ v ts ht).trans (congrArg _ (hostWrite_opm { s with turns := ts } i v h hi))

end Sys2Proof.Machine
end

