-- ==== Sys2Proof/Laws/PerInstr.lean ====
section
/-! SUPPORT. Statements made command by command: every row of spec/30_encoding.md R92 is well formed, its word is legal and
decodes back to it. -/

namespace Sys2Proof.Laws.RoundTrip

/-- R90 to R92, R95 of spec/30_encoding.md, for one command. -/
def Statement (i : Instr) : Prop :=
  i.wellFormed = true ∧ legalWord (encode i) = true ∧ decode (encode i) = .ok i ∧
    decodeTableWord 32 (encode i).toNat = some i ∧ zeroField (encode i) = 0 ∧ opField (encode i) = (encode i).toNat

theorem modexp : Statement .modexp := ⟨rfl, rfl, rfl, rfl, rfl, rfl⟩

theorem mrtest : Statement .mrtest := ⟨rfl, rfl, rfl, rfl, rfl, rfl⟩

theorem modinv : Statement .modinv := ⟨rfl, rfl, rfl, rfl, rfl, rfl⟩

theorem egcd : Statement .egcd := ⟨rfl, rfl, rfl, rfl, rfl, rfl⟩

theorem gcd : Statement .gcd := ⟨rfl, rfl, rfl, rfl, rfl, rfl⟩

end Sys2Proof.Laws.RoundTrip
end

