-- ==== Sys2Proof/Tests/Slice0.lean ====
section
/-! SUPPORT. Tests on values of spec/95_test_vectors.md, ill-formed words for each check of WellFormed, and for each obligation
with hypotheses a concrete state and operands that meet them together. -/

namespace Sys2Proof.Tests

open Sys2Proof Sys2Proof.Machine

/-! ### Small states, at W = 32 -/

/-- An idle block. -/
def idleBlock : State := State.atReset 0

/-- An idle block with operands `a`, `b`, `m` and round count `k`. -/
def loaded (a b m : Nat) (k : Word) : State :=
  { idleBlock with opa := a, opb := b, opm := m, rounds := k }

/-- The block that has just accepted command `i`. -/
def started (i : Instr) (a b m : Nat) (k : Word) : State :=
  accept (loaded a b m k) (encode i)

/-- The block in phase `p` of command `i`, with working registers `w` and the words `os` on offer. -/
def inPhase (i : Instr) (a b m : Nat) (k : Word) (p : Phase) (w : Working) (os : List Nat) : State :=
  { started i a b m k with pc := p, work := w, offers := os }

/-- A field of the state an answer leads to. -/
def after {α : Type} (f : State → α) (o : Answer) : Option α :=
  match o with
  | .next t => some (f t)
  | _ => none

/-- MODEXP of vector V1 in its loop, before the first exponent bit. -/
def powState : State :=
  inPhase .modexp 65 17 3233 0 .meLoop { Working.cleared with tM := 3233, tR := 1, tB := 65, tE := 17 } []

/-- MRTEST of vector V15 before its decomposition. -/
def decompState : State :=
  inPhase .mrtest 0 0 221 2 .mrDecomp { Working.cleared with tM := 221, tK := 2, tD := 220 } []

/-- MRTEST of vector V15 between rounds. -/
def drawWork (j : Nat) : Working :=
  { Working.cleared with tM := 221, tK := 2, tD := 55, tS := 2, tJ := j }

/-- MRTEST of vector V15 waiting for its first word, which nobody offers. -/
def holdState : State :=
  inPhase .mrtest 0 0 221 2 .mrDraw (drawWork 0) []

/-- The same with both words on offer. -/
def drawState : State :=
  inPhase .mrtest 0 0 221 2 .mrDraw (drawWork 0) [172, 135]

/-- MRTEST of vector V15 in its first exponentiation. -/
def roundState : State :=
  inPhase .mrtest 0 0 221 2 .mrPow { drawWork 1 with tA := 174, tR := 1, tB := 174, tE := 55 } [135]

/-- MRTEST of vector V15 before the first comparison of round 1. -/
def checkState : State :=
  inPhase .mrtest 0 0 221 2 .mrCheck { drawWork 1 with tA := 174, tX := 47, tT := 0 } [135]

/-- The Euclid registers. -/
def euclid (eA eB : Nat) (uA vA uB vB : Int) : Working :=
  { Working.cleared with eA := eA, eB := eB, uA := uA, vA := vA, uB := uB, vB := vB }

/-- EGCD of vector V25 before its last division. -/
def egcdState : State :=
  inPhase .egcd 240 46 0 0 .euLoop (euclid 2 4 (-9) 47 5 (-26)) []

/-- EGCD of vector V25 with `E_A = 0`. -/
def egcdEndState : State :=
  inPhase .egcd 240 46 0 0 .euLoop (euclid 0 2 23 (-120) (-9) 47) []

/-- EGCD of vector V25 in its last phase. -/
def egcdDoneState : State :=
  inPhase .egcd 240 46 0 0 .euDoneEgcd (euclid 0 2 23 (-120) (-9) 47) []

/-- MODINV of vector V31 with `E_A = 0`, and in its last phase. -/
def modinvState (p : Phase) : State :=
  inPhase .modinv 17 0 3120 0 p { euclid 0 1 3120 (-17) (-367) 2 with tM := 3120 } []

/-- MODINV of vector V32, `gcd(4, 8) = 4`, in its last phase. -/
def noInverseState : State :=
  inPhase .modinv 4 0 8 0 .euDoneInv { euclid 0 4 (-2) 1 1 0 with tM := 8 } []

/-- GCD of vector V35f, 12 and 18, with `E_A = 0`, and in its last phase. -/
def gcdState (p : Phase) : State :=
  inPhase .gcd 12 18 0 0 p (euclid 0 6 3 (-2) (-1) 1) []

/-! ### Well-formedness (spec/30_encoding.md R90, R95) -/

theorem test_zero_field_refused :
    zeroFieldClear 0x00000011 = false ∧ legalWord 0x00000011 = false ∧ legalWord 0x80000002 = false := by decide

theorem test_opcode_refused :
    opcodeNamed 0x00000000 = false ∧ opcodeNamed 0x00000006 = false ∧
      legalWord 0x00000000 = false ∧ legalWord 0x0000000F = false := by decide

theorem test_legal_words :
    legalWord 1 = true ∧ legalWord 2 = true ∧ legalWord 3 = true ∧ legalWord 4 = true ∧ legalWord 5 = true := by decide

/-! ### Decoding, bit by bit from R90: ZERO in bits 31:4, OP in bits 3:0 -/

theorem test_decode_modexp : decode (0b0000000000000000000000000000#28 ++ 0b0001#4) = .ok .modexp := by rfl

theorem test_decode_mrtest : decode (0b0000000000000000000000000000#28 ++ 0b0010#4) = .ok .mrtest := by rfl

theorem test_decode_modinv : decode (0b0000000000000000000000000000#28 ++ 0b0011#4) = .ok .modinv := by rfl

theorem test_decode_egcd : decode (0b0000000000000000000000000000#28 ++ 0b0100#4) = .ok .egcd := by rfl

theorem test_decode_gcd : decode (0b0000000000000000000000000000#28 ++ 0b0101#4) = .ok .gcd := by rfl

/-- Vector V36 (d): OP is MODEXP's, one bit of ZERO is set. -/
theorem test_decode_rejects : decode (0b0000000000000000000000000001#28 ++ 0b0001#4) = .error .zeroFieldSet := by rfl

/-! ### One micro-step of each command -/

/-- Vector V7: modulus 0, STATUS 0x106. -/
theorem test_modexp_zero_modulus :
    after (fun t => (t.res, t.statusWord, t.irqStat)) (exec .modexp (started .modexp 5 3 0 0)) =
      some (0, 0x00000106, 2) := by decide

/-- Vector V1's trace, its last exponent bit: (65,789,1) to (2790,1785,0). -/
theorem test_modexp_last_bit :
    after (fun t => (t.work.tR, t.work.tB, t.work.tE))
      (exec .modexp { powState with work := { powState.work with tR := 65, tB := 789, tE := 1 } }) =
      some (2790, 1785, 0) := by decide

/-- Vector V15, round 1: word 172 gives witness 174. -/
theorem test_mrtest_draw :
    after (fun t => (t.work.tA, t.work.tJ, t.offers)) (exec .mrtest drawState) = some (174, 1, [135]) := by decide

/-- Vector V11: n = 9, xs [2, 4, 7]: the third comparison fails the round, STATUS 2 and RCNT 1. -/
theorem test_mrtest_fails :
    after (fun t => (t.prime, t.rcnt, t.statusWord))
      (exec .mrtest (inPhase .mrtest 0 0 9 1 .mrCheck
        { Working.cleared with tM := 9, tK := 1, tD := 1, tS := 3, tJ := 1, tA := 2, tX := 7, tT := 2 } [])) =
      some (false, 1, 0x00000002) := by decide

/-- Vector V31: 17 inverts to 2753 modulo 3120. -/
theorem test_modinv_done :
    after (fun t => (t.res, t.resx, t.statusWord)) (exec .modinv (modinvState .euDoneInv)) =
      some (2753, 0, 0x00000002) := by decide

/-- Vector V32: NO_INVERSE, STATUS 0x206. -/
theorem test_modinv_no_inverse :
    after (fun t => (t.res, t.statusWord)) (exec .modinv noInverseState) = some (0, 0x00000206) := by decide

/-- Vector V25's trace, its last division. -/
theorem test_egcd_divides :
    after (fun t => (t.work.eA, t.work.eB, t.work.uA, t.work.vA, t.work.uB, t.work.vB)) (exec .egcd egcdState) =
      some (0, 2, 23, -120, -9, 47) := by decide

/-- Vector V25: RES 2, RESX 9 negative, RESY 47, STATUS 0x12. -/
theorem test_egcd_done :
    after (fun t => (t.res, t.resx, t.resy, t.statusWord)) (exec .egcd egcdDoneState) =
      some (2, 9, 47, 0x00000012) := by decide

/-- Vector V35f. -/
theorem test_gcd_done :
    after (fun t => (t.res, t.resx, t.statusWord)) (exec .gcd (gcdState .euDoneGcd)) =
      some (6, 0, 0x00000002) := by decide

/-! ### The bus (vectors V37, V38) and the whole step -/

theorem test_bus_reads :
    busRead idleBlock 0x0000 = .data 0x4D584531 ∧ busRead idleBlock 0x0004 = .data 0x00000020 ∧
      busRead idleBlock 0x0002 = .err ∧ busRead idleBlock 0x0020 = .err ∧ busRead idleBlock 0x1004 = .err ∧
      busRead (State.atReset 1) 0x1004 = .data 0 := by decide

theorem test_bus_writes_refused :
    busWriteAnswer idleBlock 0x0000 = .err ∧ busWriteAnswer idleBlock 0x000C = .err ∧
      busWriteAnswer idleBlock 0x001C = .err ∧ busWriteAnswer idleBlock 0x4000 = .err ∧
      busWriteAnswer idleBlock 0x1001 = .err ∧ busWriteAnswer idleBlock 0x7000 = .err := by decide

theorem test_bus_write_operand :
    busRead (busWrite idleBlock 0x1000 0xDEADBEEF) 0x1000 = .data 0xDEADBEEF := by decide

/-- W = 64: the second word of OPA (program P6). -/
theorem test_bus_second_word :
    (busWrite (busWrite (State.atReset 1) 0x1000 0x9ABCDEF0) 0x1004 0x12345678).opa = 0x123456789ABCDEF0 := by decide

theorem test_busy_locks :
    busWriteAnswer holdState 0x1000 = .err ∧ busWriteAnswer holdState 0x0010 = .err ∧
      busWriteAnswer holdState 0x0008 = .err ∧ busWriteAnswer holdState 0x0014 = .ok := by decide

/-- V38: a pending bit that a later enable exposes, and its acknowledgement. -/
theorem test_irq :
    State.irq { idleBlock with irqStat := 1 } = false ∧
      State.irq (busWrite { idleBlock with irqStat := 1 } 0x0014 1) = true ∧
      State.irq (busWrite { idleBlock with irqStat := 3, irqEn := 1 } 0x0018 1) = false := by decide

/-- R99: a poll that shows `BUSY = 1` lets an RND turn listed after the WAIT fall before the next poll, and no turn of the
host; with a gap of 0 the next poll follows at once. -/
theorem test_wait_polls :
    after State.turns (step { holdState with turns := [.wait [], .offer 172, .read 0x001C, .offer 135] }) =
      some [.offer 172, .engine, .wait [], .read 0x001C, .offer 135] ∧
    after State.turns (step { holdState with turns := [.wait [0, 1], .offer 172, .engine] }) =
      some [.wait [1], .offer 172, .engine] ∧
    after State.turns (step { holdState with turns := [.wait [1], .offer 172, .engine] }) =
      some [.offer 172, .wait [], .engine] := by decide

/-- R241 with R66, W = 32: neither a misaligned nor an unmapped address of an operand bank is a write to an operand. -/
theorem test_locked_addresses :
    lockedAddr 1 0x1002 = false ∧ lockedAddr 1 0x1FFC = false ∧ lockedAddr 1 0x3000 = true ∧ lockedAddr 1 0x0010 = true ∧
      lockedAddr 1 0x0018 = false ∧ lockedAddr 1024 0x1FFC = true ∧
      wellFormedProgram 1 [.cmd .egcd, .wrErr 0x1002 0, .wrErr 0x1FFC 0, .wait 2] = true ∧
      wellFormedProgram 1 [.cmd .egcd, .wrErr 0x1000 0, .wait 2] = false ∧
      wellFormedProgram 1 [.cmd .egcd] = false := by decide

/-- Program P2, lines 5 to 9: WAIT's reads that showed `BUSY = 1` may be any number, its last value is 2. -/
theorem test_answers_of_wait :
    programMet 1 [.rd 0x000C 1, .rnd 172, .rnd 135, .wait 2, .rd 0x001C 2]
      [.data 1, .data 1, .data 1, .data 2, .data 2] = true ∧
    programMet 1 [.wait 2, .rd 0x001C 2] [.data 2, .data 2] = true ∧
    programMet 1 [.wait 2] [.data 1] = false ∧ programMet 1 [.get .res 0] [.data 1] = false := by decide

/-- The program of a word of the opcode table: the very next step runs it. -/
theorem test_fetch_word :
    after (fun t => (t.pc, t.work.eA, t.lastcmd)) (step (idleBlock.withFetchWord 32 4)) = some (.euLoop, 0, 4) := by decide

/-- V36 (b): an illegal word, STATUS 0x306 and CMD reads back. -/
theorem test_illegal_word :
    after (fun t => (t.statusWord, t.lastcmd)) (step (accept idleBlock 6)) = some (0x00000306, 6) := by decide

/-! ### States that meet the invariants -/

/-- What is left to show of a block in the middle of a command. -/
theorem inPhase_inv (i : Instr) (a b m : Nat) (k : Word) (p : Phase) (w : Working) (os : List Nat)
    (ha : a < 2 ^ 32) (hb : b < 2 ^ 32) (hm : m < 2 ^ 32) (hp : p = .start ∨ p ∈ phasesOf i)
    (ho : ∀ r ∈ os, r < 2 ^ 32) (hw : WorkInv (inPhase i a b m k p w os)) : Inv (inPhase i a b m k p w os) := by
  have hne : p ≠ .idle := by
    rintro rfl
    cases i <;> simp [phasesOf] at hp
  have hd : decode (inPhase i a b m k p w os).lastcmd = .ok i := by
    show decode (encode i) = .ok i
    cases i <;> rfl
  have h0 : 0 < 2 ^ (inPhase i a b m k p w os).width := Nat.two_pow_pos _
  exact
    { busy := ⟨⟨fun _ => hne, fun _ => rfl⟩, fun _ => rfl, fun _ => rfl⟩
      err := ⟨⟨(nomatch ·), (absurd rfl ·)⟩, Nat.zero_le 3, (nomatch ·), (nomatch ·)⟩
      flag := ⟨(nomatch ·), (nomatch ·), (nomatch ·)⟩
      phase := hp.elim (fun h => .inr (.inl h)) fun h => .inr (.inr ⟨i, hd, h⟩)
      width := ⟨ha, hb, hm, h0, h0, h0, ho, fun _ => (nomatch ·)⟩
      work := hw }

/-- The invariants say nothing of the turns to come but the size of the words in them. -/
theorem turns_inv {s : State} (h : Inv s) (ts : List Turn) (ht : ∀ r, Turn.offer r ∈ ts → r < 2 ^ s.width) :
    Inv { s with turns := ts } :=
  { busy := ⟨h.busy.1, h.busy.2, h.busy.3⟩
    err := ⟨h.err.1, h.err.2, h.err.3, h.err.4⟩
    flag := ⟨h.flag.1, h.flag.2, h.flag.3⟩
    phase := h.phase
    width := ⟨h.width.1, h.width.2, h.width.3, h.width.4, h.width.5, h.width.6, h.width.7, ht⟩
    work := h.work }

theorem test_inv_start (i : Instr) : Inv (started i 65 17 3233 1) :=
  inPhase_inv i 65 17 3233 1 .start Working.cleared [] (by decide) (by decide) (by decide) (.inl rfl) (by simp) trivial

theorem test_inv_modexp : Inv powState :=
  inPhase_inv _ _ _ _ _ _ _ _ (by decide) (by decide) (by decide) (by decide) (by decide)
    ⟨by decide, by decide, by decide, by decide, by decide⟩

theorem test_inv_decomp : Inv decompState :=
  inPhase_inv _ _ _ _ _ _ _ _ (by decide) (by decide) (by decide) (by decide) (by decide)
    ⟨by decide, by decide, by decide, by decide, by decide, by decide⟩

theorem split_inv (j : Nat) (h : j ≤ 2) : SplitInv 221 2 (drawWork j) :=
  ⟨⟨rfl, rfl, by decide, rfl, rfl, h⟩, by show 55 % 2 = 1; decide, by show 1 ≤ 2; decide⟩

theorem test_inv_hold : Inv holdState :=
  inPhase_inv _ _ _ _ _ _ _ _ (by decide) (by decide) (by decide) (by decide) (by decide) (split_inv 0 (by decide))

theorem test_inv_draw : Inv drawState :=
  inPhase_inv _ _ _ _ _ _ _ _ (by decide) (by decide) (by decide) (by decide) (by decide) (split_inv 0 (by decide))

theorem test_inv_round : Inv roundState :=
  inPhase_inv _ _ _ _ _ _ _ _ (by decide) (by decide) (by decide) (by decide) (by decide)
    ⟨⟨⟨⟨rfl, rfl, by decide, rfl, rfl, by decide⟩, rfl, by decide⟩, by decide, by decide, by decide⟩,
      ⟨rfl, by decide, by decide, by decide, by decide⟩⟩

theorem test_inv_check : Inv checkState :=
  inPhase_inv _ _ _ _ _ _ _ _ (by decide) (by decide) (by decide) (by decide) (by decide)
    ⟨⟨⟨⟨rfl, rfl, by decide, rfl, rfl, by decide⟩, rfl, by decide⟩, by decide, by decide, by decide⟩, by decide, by decide⟩

theorem test_inv_euclid : Inv egcdState ∧ Inv egcdDoneState :=
  ⟨inPhase_inv _ _ _ _ _ _ _ _ (by decide) (by decide) (by decide) (by decide) (by decide)
    ⟨by constructor <;> decide, fun h => absurd h (by decide)⟩,
   inPhase_inv _ _ _ _ _ _ _ _ (by decide) (by decide) (by decide) (by decide) (by decide)
    ⟨by constructor <;> decide, fun h => absurd h (by decide), rfl⟩⟩

theorem test_inv_modinv : Inv (modinvState .euLoop) ∧ Inv (modinvState .euDoneInv) :=
  ⟨inPhase_inv _ _ _ _ _ _ _ _ (by decide) (by decide) (by decide) (by decide) (by decide)
    ⟨by constructor <;> decide, fun _ => ⟨rfl, by decide⟩⟩,
   inPhase_inv _ _ _ _ _ _ _ _ (by decide) (by decide) (by decide) (by decide) (by decide)
    ⟨by constructor <;> decide, fun _ => ⟨rfl, by decide⟩, rfl⟩⟩

theorem test_inv_gcd : Inv (gcdState .euDoneGcd) :=
  inPhase_inv _ _ _ _ _ _ _ _ (by decide) (by decide) (by decide) (by decide) (by decide)
    ⟨by constructor <;> decide, fun h => absurd h (by decide), rfl⟩

/-! ### Witnesses: for each obligation with hypotheses, states and operands that meet them -/

theorem test_inv_idle : Inv idleBlock := by
  have h0 : 0 < 2 ^ idleBlock.width := Nat.two_pow_pos _
  exact
    { busy := ⟨⟨(nomatch ·), (absurd rfl ·)⟩, (nomatch ·), (nomatch ·)⟩
      err := ⟨⟨(nomatch ·), (absurd rfl ·)⟩, Nat.zero_le 3, (nomatch ·), (nomatch ·)⟩
      flag := ⟨(nomatch ·), (nomatch ·), (nomatch ·)⟩
      phase := .inl rfl
      width := ⟨h0, h0, h0, h0, h0, h0, fun _ => (nomatch ·), fun _ => (nomatch ·)⟩
      work := trivial }

/-- Every command is well formed, and each clause's word exists. -/
theorem test_witness_decodeEncodeAgree :
    (∀ i : Instr, i.wellFormed = true) ∧ decode 5 = .ok .gcd ∧ legalWord 5 = true ∧ legalWord 6 = false :=
  ⟨fun i => by cases i <;> rfl, rfl, rfl, rfl⟩

theorem test_witness_illegalWord :
    idleBlock.busy = false ∧ legalWord 0x00000000 = false ∧ legalWord 0x00000006 = false ∧
      legalWord 0x00000010 = false ∧ legalWord 0xFFFFFFFF = false := by decide

theorem test_witness_stepRunsDecodedCommand :
    powState.pc ≠ .idle ∧ decode powState.lastcmd = .ok .modexp ∧ powState.turns = [] ∧
      State.turns { powState with turns := [.engine] } = .engine :: [] :=
  ⟨by decide, rfl, rfl, rfl⟩

/-- Both sides of the equivalence, and a state that is on neither. -/
theorem test_witness_onlyHold :
    (Inv idleBlock ∧ idleBlock.turns = [] ∧ idleBlock.pc = .idle) ∧
    (Inv holdState ∧ holdState.turns = [] ∧ holdState.pc = .mrDraw ∧ holdState.work.tJ < holdState.work.tK ∧
      holdState.offers = []) ∧
    (Inv drawState ∧ drawState.turns = [] ∧ drawState.offers ≠ []) :=
  ⟨⟨test_inv_idle, rfl, rfl⟩, ⟨test_inv_hold, rfl, rfl, by decide, rfl⟩, test_inv_draw, rfl, by decide⟩

theorem test_witness_phaseGraph :
    (∃ t, engineTurn powState = .next t ∧ t.pc ∈ nextPhases powState.pc) ∧ engineTurn holdState = .next holdState :=
  ⟨⟨_, rfl, by decide⟩, rfl⟩

/-- The first and the last word of the narrowest and the widest register. -/
theorem test_witness_registerWindow :
    0 < (State.atReset 0).nw ∧ 0 < (State.atReset 1023).nw ∧ 1023 < (State.atReset 1023).nw := by decide

/-- The lowest and the highest lane of ID: its ASCII bytes, the last first (spec/10_state.md R34). -/
theorem test_witness_byteLanes :
    busRead idleBlock 0x0000 = .data 0x4D584531 ∧ byteAt idleBlock 0x0000 = some 0x31 ∧
      byteAt idleBlock 0x0003 = some 0x4D := by decide

theorem test_witness_paramConstant :
    (State.atReset 1023).width = 32768 ∧ ∃ t, step powState = .next t := ⟨by decide, _, rfl⟩

/-- Each case of R194 at the ends of its ranges, W = 32; and addresses of none of them. -/
theorem test_witness_busErrors :
    ((0x0001#15).toNat % 4 ≠ 0 ∧ unmappedAddr 1 (0x0020#15).toNat ∧ unmappedAddr 1 (0x0FFC#15).toNat ∧
      unmappedAddr 1 (0x1004#15).toNat ∧ unmappedAddr 1 (0x6FFC#15).toNat ∧ unmappedAddr 1 (0x7FFC#15).toNat ∧
      ¬ unmappedAddr 1024 (0x6FFC#15).toNat) ∧
    (readOnlyAddr (0x001C#15).toNat ∧ readOnlyAddr (0x4000#15).toNat ∧ ¬ readOnlyAddr (0x0008#15).toNat) ∧
    (holdState.busy = true ∧ busyLockedAddr (0x0008#15).toNat ∧ busyLockedAddr (0x1000#15).toNat ∧
      ¬ busyLockedAddr (0x0014#15).toNat ∧
      busWriteAnswer holdState 0x0014 ≠ .err ∧ busWriteAnswer holdState 0x0008 = .err) :=
  ⟨by decide, by decide, by decide⟩

theorem test_witness_performedWrites :
    idleBlock.busy = false ∧ 0 < idleBlock.nw ∧ (State.atReset 1023).busy = false ∧ 1023 < (State.atReset 1023).nw ∧
      idleBlock.opa < 2 ^ idleBlock.width := by decide

theorem test_witness_busyRefusesWrites :
    holdState.busy = true ∧ busyLockedAddr (0x0008#15).toNat ∧ busyLockedAddr (0x0010#15).toNat ∧
      busyLockedAddr (0x1000#15).toNat ∧ busyLockedAddr (0x3FFC#15).toNat := by decide

/-- Nothing enabled; each bit enabled and pending. -/
theorem test_witness_irqEnable :
    idleBlock.irqEn = 0 ∧
      (State.irqEn { idleBlock with irqEn := 1, irqStat := 1 }).getLsbD 0 = true ∧
      (State.irqStat { idleBlock with irqEn := 1, irqStat := 1 }).getLsbD 0 = true ∧
      (State.irqEn { idleBlock with irqEn := 2, irqStat := 2 }).getLsbD 1 = true ∧
      (State.irqStat { idleBlock with irqEn := 2, irqStat := 2 }).getLsbD 1 = true := by decide

/-- A step that sets a pending bit, and one that clears it. -/
theorem test_witness_irqStatus :
    (∃ t, step egcdDoneState = .next t ∧ t.irqStat ≠ egcdDoneState.irqStat) ∧
    (∃ t, step { idleBlock with irqStat := 3, turns := [.write 0x0018 1] } = .next t ∧ t.irqStat = 2) :=
  ⟨⟨_, rfl, by decide⟩, ⟨_, rfl, by decide⟩⟩

/-- A pending bit beside its enable; and the two turns that clear one. -/
theorem test_witness_interruptLine :
    State.irqStat { idleBlock with irqStat := 1 } = 1 ∧ (1#2).getLsbD 0 = true ∧ (1#32).getLsbD 0 = true ∧
    (∃ t, step { idleBlock with irqStat := 2, turns := [.write 0x0018 2] } = .next t ∧ t.irqStat.getLsbD 1 = false) ∧
    (∃ t, step { idleBlock with irqStat := 2, turns := [.reset] } = .next t ∧ t.irqStat.getLsbD 1 = false) :=
  ⟨rfl, by decide, by decide, ⟨_, rfl, by decide⟩, ⟨_, rfl, by decide⟩⟩

theorem test_witness_loadLine :
    idleBlock.busy = false ∧ 0xFFFFFFFF < 2 ^ idleBlock.width ∧ idleBlock.opa < 2 ^ idleBlock.width ∧
      idleBlock.opb < 2 ^ idleBlock.width ∧ idleBlock.opm < 2 ^ idleBlock.width := by decide

/-- Program P6's operand. -/
theorem test_witness_wordsAssemble :
    0x123456789ABCDEF0 < 2 ^ (32 * 2) ∧ wordsOf 2 0x123456789ABCDEF0 = [0x9ABCDEF0, 0x12345678] := by decide

theorem test_witness_acceptStep : idleBlock.busy = false := by decide

/-- A success, an error, and a reset. -/
theorem test_witness_completionRaises :
    (∃ t, step egcdDoneState = .next t ∧ egcdDoneState.busy = true ∧ t.busy = false) ∧
    (∃ t, step noInverseState = .next t ∧ noInverseState.busy = true ∧ t.busy = false) ∧
    (∃ t, step { powState with turns := [.reset] } = .next t ∧ powState.busy = true ∧ t.busy = false) :=
  ⟨⟨_, rfl, by decide, by decide⟩, ⟨_, rfl, by decide, by decide⟩, ⟨_, rfl, by decide, by decide⟩⟩

theorem test_witness_resultsChange :
    (∃ t, step egcdDoneState = .next t ∧ t.res ≠ egcdDoneState.res) ∧
    (∃ t, step { idleBlock with rcnt := 1, turns := [.reset] } = .next t ∧ t.rcnt ≠ 1) :=
  ⟨⟨_, rfl, by decide⟩, ⟨_, rfl, by decide⟩⟩

/-- Each command, in a step that is no completion and in one that is. -/
theorem test_witness_commandFrame :
    (∃ t, exec .modexp powState = .next t ∧ t.pc ≠ .idle) ∧
    (∃ t, exec .mrtest drawState = .next t ∧ t.pc ≠ .idle ∧ drawState.offers = 172 :: t.offers) ∧
    (∃ t, exec .modinv (modinvState .euDoneInv) = .next t ∧ t.pc = .idle) ∧
    (∃ t, exec .egcd egcdDoneState = .next t ∧ t.pc = .idle) ∧
    (∃ t, exec .gcd (gcdState .euDoneGcd) = .next t ∧ t.pc = .idle) :=
  ⟨⟨_, rfl, by decide⟩, ⟨_, rfl, by decide, rfl⟩, ⟨_, rfl, by decide⟩, ⟨_, rfl, by decide⟩, ⟨_, rfl, by decide⟩⟩

/-- Bytes next to each range of result bytes, at a completion; and a result byte at a step that is none. -/
theorem test_witness_commandByteFrame :
    (∃ t, exec .egcd egcdDoneState = .next t ∧ ¬ resultByte (0x000B#15).toNat ∧ ¬ resultByte (0x0010#15).toNat ∧
      ¬ resultByte (0x0017#15).toNat ∧ ¬ resultByte (0x3FFF#15).toNat ∧ ¬ resultByte (0x7000#15).toNat) ∧
    (∃ t, exec .egcd egcdState = .next t ∧ t.pc ≠ .idle ∧ resultByte (0x4000#15).toNat) :=
  ⟨⟨_, rfl, by decide⟩, ⟨_, rfl, by decide⟩⟩

theorem test_witness_hostCannotDisturb :
    powState.busy = true ∧
    (∃ t, step { powState with turns := [.write 0x1000 1] } = .next t) ∧
    (∃ t, step { powState with turns := [.read 0x4000] } = .next t) ∧
    (∃ t, step { powState with turns := [.offer 7] } = .next t) ∧
    (∃ t, step { powState with turns := [.wait []] } = .next t) ∧
    (∃ t, step { powState with turns := [.wait [0, 2], .engine] } = .next t) :=
  ⟨rfl, ⟨_, rfl⟩, ⟨_, rfl⟩, ⟨_, rfl⟩, ⟨_, rfl⟩, ⟨_, rfl⟩⟩

/-- START with a zero modulus and with the smallest other one. -/
theorem test_witness_modexpStart :
    (started .modexp 5 3 0 0).pc = .start ∧ (started .modexp 5 3 0 0).opm = 0 ∧
      (started .modexp 5 3 1 0).pc = .start ∧ (started .modexp 5 3 1 0).opm ≠ 0 := by decide

theorem test_witness_modexpLoop :
    powState.pc = .meLoop ∧ powState.work.tE ≠ 0 ∧
      (inPhase .modexp 5 0 1 0 .meLoop Working.cleared []).pc = .meLoop ∧
      (inPhase .modexp 5 0 1 0 .meLoop Working.cleared []).work.tE = 0 := by decide

theorem test_witness_modexpComputesPower :
    (started .modexp 65 17 3233 0).pc = .start ∧ (started .modexp 65 17 3233 0).lastcmd = 0x00000001 ∧
      (started .modexp 65 17 3233 0).turns = [] ∧ (started .modexp 65 17 3233 0).opm ≠ 0 ∧
      (started .modexp 5 3 0 0).opm = 0 := by decide

/-- Each arm at its boundary: n = 1 and k = 0; n = 2; n = 4; n = 3. -/
theorem test_witness_mrtestStart :
    (started .mrtest 0 0 1 1).pc = .start ∧ (started .mrtest 0 0 1 1).opm < 2 ∧ (started .mrtest 0 0 3 0).rounds = 0 ∧
      (started .mrtest 0 0 2 1).opm = 2 ∧ (started .mrtest 0 0 2 1).rounds ≠ 0 ∧
      2 < (started .mrtest 0 0 4 1).opm ∧ (started .mrtest 0 0 4 1).opm.testBit 0 = false ∧
      2 < (started .mrtest 0 0 3 1).opm ∧ (started .mrtest 0 0 3 1).opm.testBit 0 = true := by decide

theorem test_witness_mrtestDecompose :
    decompState.pc = .mrDecomp ∧ decompState.work.tD.testBit 0 = false ∧
      (inPhase .mrtest 0 0 3 1 .mrDecomp { Working.cleared with tD := 1 } []).work.tD.testBit 0 = true := by decide

theorem test_witness_mrtestDraw :
    drawState.pc = .mrDraw ∧ drawState.work.tJ ≠ drawState.work.tK ∧ drawState.offers = 172 :: [135] ∧
      holdState.work.tJ ≠ holdState.work.tK ∧ holdState.offers = [] ∧
      (inPhase .mrtest 0 0 221 2 .mrDraw (drawWork 2) []).work.tJ = (drawWork 2).tK := by decide

theorem test_witness_mrtestPower :
    roundState.pc = .mrPow ∧ roundState.work.tE ≠ 0 ∧
      (inPhase .mrtest 0 0 7 1 .mrPow { Working.cleared with tR := 1 } []).work.tR = 1 ∧
      (inPhase .mrtest 0 0 221 2 .mrPow { drawWork 1 with tR := 47 } []).work.tR ≠ 1 ∧
      (inPhase .mrtest 0 0 221 2 .mrPow { drawWork 1 with tR := 47 } []).work.tE = 0 := by decide

/-- The three arms: x = n - 1; not, at the last comparison; not, before it. -/
theorem test_witness_mrtestCheck :
    checkState.pc = .mrCheck ∧ ((221 - 1 : Nat) : Int) = ((drawWork 1).tM : Int) - 1 ∧
      (checkState.work.tX : Int) ≠ (checkState.work.tM : Int) - 1 ∧
      (checkState.work.tT : Int) ≠ (checkState.work.tS : Int) - 1 ∧ ((1 : Nat) : Int) = ((drawWork 1).tS : Int) - 1 := by
  decide

/-- Vector V15: 220 = 2^2 * 55; and n = 2, n = 4, k = 0. -/
theorem test_witness_mrtestRunsRounds :
    (started .mrtest 0 0 221 2).pc = .start ∧ (started .mrtest 0 0 221 2).lastcmd = 0x00000002 ∧
      (started .mrtest 0 0 221 2).turns = [] ∧ 2 < (started .mrtest 0 0 221 2).opm ∧
      (started .mrtest 0 0 221 2).rounds ≠ 0 ∧ (started .mrtest 0 0 221 2).opm % 2 = 1 ∧
      (started .mrtest 0 0 221 2).opm - 1 = 2 ^ 2 * 55 ∧ 55 % 2 = 1 ∧
      (started .mrtest 0 0 2 1).opm = 2 ∧ (started .mrtest 0 0 4 1).opm % 2 = 0 ∧
      (started .mrtest 0 0 221 0).rounds = 0 := by decide

theorem test_witness_mrtestAcceptsEveryPrime :
    (started .mrtest 0 0 5 1).pc = .start ∧ (started .mrtest 0 0 5 1).lastcmd = 0x00000002 ∧
      (started .mrtest 0 0 5 1).turns = [] ∧ Nat.Prime (started .mrtest 0 0 5 1).opm ∧
      (started .mrtest 0 0 5 1).rounds ≠ 0 ∧
      (1#32).toNat ≤ (inPhase .mrtest 0 0 5 1 .start Working.cleared [0]).offers.length :=
  ⟨rfl, rfl, rfl, by show Nat.Prime 5; norm_num, by decide, by decide⟩

/-- The smallest candidate, and 221 with its exponent pair. -/
theorem test_witness_witnessRange :
    3 ≤ 3 ∧ 2 ≤ 2 ∧ 2 ≤ 3 - 1 ∧ 3 - 1 = 2 ^ 1 * 1 ∧ 3 ≤ 221 ∧ 2 ≤ 220 ∧ 220 ≤ 221 - 1 ∧ 221 - 1 = 2 ^ 2 * 55 ∧ 55 % 2 = 1 := by
  decide

/-- A word taken by the engine, and a word offered. -/
theorem test_witness_witnessTaken :
    (Inv drawState ∧ ∃ t, step drawState = .next t ∧ t.offers ≠ drawState.offers) ∧
    (Inv { holdState with turns := [.offer 172] } ∧
      ∃ t, step { holdState with turns := [.offer 172] } = .next t ∧ t.offers ≠ holdState.offers) := by
  refine ⟨⟨test_inv_draw, _, rfl, by decide⟩, ⟨turns_inv test_inv_hold _ fun r hr => ?_, _, rfl, by decide⟩⟩
  simp only [List.mem_singleton, Turn.offer.injEq] at hr
  subst hr
  show 172 < 2 ^ 32
  decide

theorem test_witness_egcdStart : (started .egcd 0 0 0 0).pc = .start := by decide

/-- One division, and the end of the loop for each of the three commands. -/
theorem test_witness_euclidLoop :
    egcdState.pc = .euLoop ∧ egcdState.work.eA ≠ 0 ∧
      egcdEndState.pc = .euLoop ∧ egcdEndState.work.eA = 0 ∧ egcdEndState.lastcmd.extractLsb' 0 4 = 4#4 ∧
      (modinvState .euLoop).work.eA = 0 ∧ (modinvState .euLoop).lastcmd.extractLsb' 0 4 = 3#4 ∧
      (gcdState .euLoop).work.eA = 0 ∧ (gcdState .euLoop).lastcmd.extractLsb' 0 4 = 5#4 := by decide

theorem test_witness_egcdDone :
    egcdDoneState.pc = .euDoneEgcd ∧
      (inPhase .egcd 0 9 0 0 .euDoneEgcd (euclid 0 9 1 0 0 1) []).work.uB = 0 ∧
      (inPhase .egcd 9 0 0 0 .euDoneEgcd (euclid 0 9 0 1 1 0) []).work.vB = 0 := by decide

theorem test_witness_egcdRecursion : 1 ≤ 240 ∧ egcd 240 46 = (2, -9, 47) := by decide

theorem test_witness_egcdDelivers :
    (started .egcd 240 46 0 0).pc = .start ∧ (started .egcd 240 46 0 0).lastcmd = 0x00000004 ∧
      (started .egcd 240 46 0 0).turns = [] ∧
      (started .egcd 240 46 0 0).opa < 2 ^ (started .egcd 240 46 0 0).width ∧
      (started .egcd 240 46 0 0).opb < 2 ^ (started .egcd 240 46 0 0).width := by decide

theorem test_witness_modinvStart :
    (started .modinv 7 0 0 0).pc = .start ∧ (started .modinv 7 0 0 0).opm = 0 ∧ (started .modinv 5 0 1 0).opm ≠ 0 := by
  decide

/-- No inverse; an inverse; and the bound of the last clause at both ends. -/
theorem test_witness_modinvDone :
    noInverseState.pc = .euDoneInv ∧ noInverseState.work.eB ≠ 1 ∧ (modinvState .euDoneInv).pc = .euDoneInv ∧
      (modinvState .euDoneInv).work.eB = 1 ∧ 1 ≤ (modinvState .euDoneInv).work.tM ∧
      (modinvState .euDoneInv).work.uB.natAbs ≤ (modinvState .euDoneInv).work.tM ∧
      (1 : Int).natAbs ≤ 1 ∧ (-1 : Int).natAbs ≤ 1 := by decide

/-- PRECONDITION, NO_INVERSE, and the inverse of vector V31. -/
theorem test_witness_modinvFindsInverse :
    (started .modinv 17 0 3120 0).pc = .start ∧ (started .modinv 17 0 3120 0).lastcmd = 0x00000003 ∧
      (started .modinv 17 0 3120 0).turns = [] ∧ (started .modinv 7 0 0 0).opm = 0 ∧
      (started .modinv 17 0 3120 0).opm ≠ 0 ∧ Nat.gcd 17 3120 = 1 ∧ Nat.gcd 4 8 ≠ 1 ∧
      2753 < 3120 ∧ 17 * 2753 % 3120 = 1 % 3120 ∧
      17 < 2 ^ (started .modinv 17 0 3120 0).width ∧ 3120 < 2 ^ (started .modinv 17 0 3120 0).width := by decide

theorem test_witness_gcdStartAndDone :
    (started .gcd 12 18 0 0).pc = .start ∧ (gcdState .euDoneGcd).pc = .euDoneGcd := by decide

theorem test_witness_gcdComputesDivisor :
    (started .gcd 0 0 0 0).pc = .start ∧ (started .gcd 0 0 0 0).lastcmd = 0x00000005 ∧
      (started .gcd 0 0 0 0).turns = [] ∧
      (started .gcd 0 0 0 0).opa < 2 ^ (started .gcd 0 0 0 0).width ∧
      (started .gcd 0 0 0 0).opb < 2 ^ (started .gcd 0 0 0 0).width := by decide

theorem test_witness_euclidStepBound (i : Instr) :
    (started i 240 46 3120 0).pc = .start ∧ (started i 240 46 3120 0).lastcmd = encode i ∧
      (started i 240 46 3120 0).turns = [] ∧ 240 < 2 ^ (started i 240 46 3120 0).width ∧
      46 < 2 ^ (started i 240 46 3120 0).width ∧ 3120 < 2 ^ (started i 240 46 3120 0).width :=
  ⟨rfl, rfl, rfl, by show 240 < 2 ^ 32; decide, by show 46 < 2 ^ 32; decide, by show 3120 < 2 ^ 32; decide⟩

/-- Each command in START, with a command-level result. -/
theorem test_witness_microSteps (i : Instr) :
    (started i 65 17 2 1).pc = .start ∧ (started i 65 17 2 1).lastcmd = encode i ∧ (started i 65 17 2 1).turns = [] ∧
      ∃ t, commandLevel i (started i 65 17 2 1) = some t := by
  cases i <;> exact ⟨rfl, rfl, rfl, _, rfl⟩

theorem test_witness_everyStep : Inv powState ∧ ∃ t, step powState = .next t := ⟨test_inv_modexp, _, rfl⟩

theorem test_witness_neverStop : Inv egcdState ∧ Inv holdState ∧ Inv idleBlock :=
  ⟨test_inv_euclid.1, test_inv_hold, test_inv_idle⟩

theorem test_witness_everyCommandCompletes :
    Inv drawState ∧ drawState.turns = [] ∧ drawState.pc ≠ .idle ∧ drawState.rounds.toNat ≤ drawState.offers.length :=
  ⟨test_inv_draw, rfl, by decide, by decide⟩

/-- MODEXP with no turn listed after the WAIT, and MRTEST of vector V15 with its words delivered between the polls, the first
poll followed by no other agent's turn and the second by one. -/
theorem test_witness_waitEnds :
    (Inv { powState with turns := [.wait []] } ∧ powState.pc ≠ .idle ∧
      powState.rounds.toNat ≤ powState.offers.length + (List.takeWhile Turn.betweenPolls []).countP (· ≠ .engine)) ∧
    (Inv { holdState with turns := [.wait [0, 1], .offer 172, .engine, .offer 135, .read 0x001C] } ∧ holdState.pc ≠ .idle ∧
      holdState.rounds.toNat ≤ holdState.offers.length +
        (List.takeWhile Turn.betweenPolls [.offer 172, .engine, .offer 135, .read 0x001C]).countP (· ≠ .engine)) := by
  refine ⟨⟨turns_inv test_inv_modexp _ (by simp), by decide, by decide⟩,
    turns_inv test_inv_hold _ ?_, by decide, by decide⟩
  intro r hr
  simp only [List.mem_cons, Turn.offer.injEq, reduceCtorEq, List.not_mem_nil, false_or, or_false] at hr
  rcases hr with rfl | rfl
  · show 172 < 2 ^ 32
    decide
  · show 135 < 2 ^ 32
    decide

/-- Vector V36 (b) as a program: one poll that shows `BUSY = 1`, the engine's START, and the last poll. -/
theorem test_witness_wellFormedProgram :
    idleBlock.busy = false ∧ Inv idleBlock ∧ wellFormedProgram 1 [.wr 0x0008 6, .wait 0x306] = true ∧
    schedules 1 [.wr 0x0008 6, .wait 0x306] [.write 0x0008 6, .wait [1], .engine] ∧
    ∃ t, run 4 { idleBlock with turns := [.write 0x0008 6, .wait [1], .engine] } = .next t ∧ t.runEnded = true ∧
      programMet 1 [.wr 0x0008 6, .wait 0x306] t.answers.reverse = true :=
  ⟨rfl, test_inv_idle, by decide, rfl, _, rfl, by decide, by decide⟩

/-- EGCD of (0, 9): START, the end of the loop, the completion. -/
theorem test_witness_leftovers :
    (started .egcd 0 9 0 0).pc = .start ∧ (started .egcd 0 9 0 0).turns = [] ∧
      ∃ t, run 3 (started .egcd 0 9 0 0) = .next t ∧ t.pc = .idle :=
  ⟨rfl, rfl, _, rfl, rfl⟩

end Sys2Proof.Tests
end

section
/-! The shape of every engine turn, said once: a completion, or a change confined to the working registers, the words on
offer and `pc`. The state facts below (spec/10_state.md) follow from it and from what a bus write can do. -/

namespace Sys2Proof.Machine

/-- What an engine turn makes of `s` (spec/40_common.md R112 to R115): one of the two completions, or a step inside the
command, which leaves every host-readable register alone. -/
inductive MicroStep (s : State) : State → Prop
  | succeeds (r : Result) : MicroStep s (completeOk s r)
  | fails (e : CmdError) : MicroStep s (completeErr s e)
  | continues (k : Working) (os : List Nat) (p : Phase) : MicroStep s { s with work := k, offers := os, pc := p }

theorem startModexp_microStep (s : State) : MicroStep s (startModexp s) := by
  unfold startModexp
  split
  · exact .fails _
  · exact .continues _ _ _

theorem meLoop_microStep (s : State) : MicroStep s (meLoop s) := by
  unfold meLoop
  split
  · exact .succeeds _
  · exact .continues _ _ _

theorem startMrtest_microStep (s : State) : MicroStep s (startMrtest s) := by
  unfold startMrtest
  split
  · exact .fails _
  split
  · exact .succeeds _
  split
  · exact .succeeds _
  · exact .continues _ _ _

theorem mrDecomp_microStep (s : State) : MicroStep s (mrDecomp s) := by
  unfold mrDecomp
  split
  · exact .continues _ _ _
  · exact .continues _ _ _

theorem mrDraw_microStep (s : State) : MicroStep s (mrDraw s) := by
  unfold mrDraw
  split
  · exact .succeeds _
  split
  · exact .continues s.work s.offers s.pc
  · exact .continues _ _ _

theorem mrPow_microStep (s : State) : MicroStep s (mrPow s) := by
  unfold mrPow
  split
  · exact .continues _ _ _
  split
  · exact .continues _ _ _
  · exact .continues _ _ _

theorem mrCheck_microStep (s : State) : MicroStep s (mrCheck s) := by
  unfold mrCheck
  split
  · exact .continues _ _ _
  split
  · exact .succeeds _
  · exact .continues _ _ _

theorem startModinv_microStep (s : State) : MicroStep s (startModinv s) := by
  unfold startModinv
  split
  · exact .fails _
  · exact .continues _ _ _

theorem euDoneInv_microStep (s : State) : MicroStep s (euDoneInv s) := by
  unfold euDoneInv
  split
  · exact .fails _
  · exact .succeeds _

theorem euLoop_microStep {s t : State} (h : euLoop s = .next t) : MicroStep s t := by
  rcases euLoop_cases h with ⟨-, p, -, rfl⟩ | ⟨-, rfl⟩
  · exact .continues _ _ p
  · exact .continues _ _ _

theorem exec_microStep {i : Instr} {s t : State} (h : exec i s = .next t) : MicroStep s t := by
  cases i with
  | modexp =>
    rcases execModexp_cases h with ⟨-, rfl⟩ | ⟨-, rfl⟩
    · exact startModexp_microStep s
    · exact meLoop_microStep s
  | mrtest =>
    rcases execMrtest_cases h with ⟨-, rfl⟩ | ⟨-, rfl⟩ | ⟨-, rfl⟩ | ⟨-, rfl⟩ | ⟨-, rfl⟩
    · exact startMrtest_microStep s
    · exact mrDecomp_microStep s
    · exact mrDraw_microStep s
    · exact mrPow_microStep s
    · exact mrCheck_microStep s
  | modinv =>
    rcases execModinv_cases h with ⟨-, rfl⟩ | ⟨-, hl⟩ | ⟨-, rfl⟩
    · exact startModinv_microStep s
    · exact euLoop_microStep hl
    · exact euDoneInv_microStep s
  | egcd =>
    rcases execEgcd_cases h with ⟨-, rfl⟩ | ⟨-, hl⟩ | ⟨-, rfl⟩
    · exact .continues _ _ _
    · exact euLoop_microStep hl
    · exact .succeeds _
  | gcd =>
    rcases execGcd_cases h with ⟨-, rfl⟩ | ⟨-, hl⟩ | ⟨-, rfl⟩
    · exact .continues _ _ _
    · exact euLoop_microStep hl
    · exact .succeeds _

/-- The engine's turn in IDLE, which changes nothing, counts as the step that keeps all three parts as they are. -/
theorem engineTurn_microStep {s t : State} (h : engineTurn s = .next t) : MicroStep s t := by
  rcases engineTurn_cases h with ⟨-, rfl⟩ | ⟨-, i, -, hi⟩ | ⟨-, -, rfl⟩
  · exact .continues t.work t.offers t.pc
  · exact exec_microStep hi
  · exact .fails _

end Sys2Proof.Machine
end

section
/-! The width of the block and `PARAM` (spec/10_state.md R35). -/

namespace Sys2Proof.Machine

theorem MicroStep.size_eq {s t : State} (h : MicroStep s t) : t.size = s.size := by
  cases h <;> rfl

theorem writeReg_size (s : State) (r : RegWord) (v : Word) : (writeReg s r v).size = s.size := by
  cases r <;> simp [writeReg]

theorem busWrite_size (s : State) (a : Addr) (v : Word) : (busWrite s a v).size = s.size := by
  rcases busWrite_cases s a v with ⟨-, h, -⟩ | ⟨r, -, h, -⟩
  · rw [h]
  · rw [h, writeReg_size]

theorem hostWait_size (s : State) (gaps : List Nat) : (hostWait s gaps).size = s.size := by
  cases hb : s.busy with
  | false => rw [hostWait_idle s gaps hb, hostRead_size]
  | true => rw [hostWait_busy s gaps hb]

/-- No step, reset among them, changes the width (spec/10_state.md R35). -/
theorem step_size {s t : State} (h : step s = .next t) : t.size = s.size := by
  rcases step_cases h with ⟨-, he⟩ |
    ⟨ts, ⟨-, he⟩ | ⟨a, -, rfl⟩ | ⟨a, v, -, rfl⟩ | ⟨r, -, rfl⟩ | ⟨-, rfl⟩ | ⟨gaps, -, rfl⟩⟩
  · exact (engineTurn_microStep he).size_eq
  · exact (engineTurn_microStep he).size_eq
  · rfl
  · exact busWrite_size _ a v
  · rfl
  · rfl
  · exact hostWait_size _ gaps

theorem width_eq_of_size_eq {s t : State} (h : t.size = s.size) : t.width = s.width := by
  rw [State.width, State.nw, h, ← State.nw, ← State.width]

theorem busRead_param (s : State) : busRead s 0x0004 = .data s.paramWord := rfl

/-- `PARAM` cannot be written (spec/20_memory.md R66, case 3). -/
theorem writeTarget_param (s : State) : writeTarget s 0x0004 = none := rfl

/-- Sixteen bits are enough for every width, 32768 among them. -/
theorem paramWord_toNat (s : State) : s.paramWord.toNat = s.width := by
  have := (width_bounds s).2
  rw [State.paramWord, BitVec.toNat_ofNat]
  exact Nat.mod_eq_of_lt (by omega)

theorem paramWord_low (s : State) : (s.paramWord.extractLsb' 0 16).toNat = s.width := by
  have := (width_bounds s).2
  rw [BitVec.extractLsb'_toNat, paramWord_toNat, Nat.shiftRight_zero]
  exact Nat.mod_eq_of_lt (by omega)

theorem paramWord_high (s : State) : s.paramWord.extractLsb' 16 16 = 0 := by
  have := (width_bounds s).2
  apply BitVec.eq_of_toNat_eq
  rw [BitVec.extractLsb'_toNat, paramWord_toNat, Nat.shiftRight_eq_div_pow, Nat.div_eq_of_lt (by omega)]
  rfl

/-- Settles O10: the width is below `2 ^ 16`, PARAM is no write target, and every step keeps `size`. -/
theorem paramConstant : Obligations.ParamConstant := by
  refine ⟨fun s => ⟨busRead_param s, paramWord_low s, paramWord_high s, ?_⟩, fun s hw => ?_, fun s t h => ?_⟩
  · exact (busWrite_refused 0 (writeTarget_param s)).2
  · rw [State.paramWord, hw]
    rfl
  · have hw := width_eq_of_size_eq (step_size h)
    exact ⟨hw, by rw [State.paramWord, hw, ← State.paramWord]⟩

end Sys2Proof.Machine
end

section
/-! The interrupt registers (spec/10_state.md R38, R39). -/

namespace Sys2Proof.Machine

/-- Bits 31:2 of a two-bit register's word read as 0 (spec/10_state.md R38, R39). -/
theorem twoBitWord_eq_append (b : BitVec 2) : twoBitWord b = 0#30 ++ b := by
  rw [twoBitWord, BitVec.setWidth_eq_append (by decide)]
  rfl

/-- What is read back of a word written to a two-bit register. -/
theorem twoBitWord_setWidth (v : Word) : twoBitWord (v.setWidth 2) = v &&& 3 := by
  apply BitVec.eq_of_toNat_eq
  rw [twoBitWord, BitVec.toNat_setWidth, BitVec.toNat_setWidth, BitVec.toNat_and]
  have : v.toNat &&& 3 = v.toNat % 2 ^ 2 := Nat.and_two_pow_sub_one_eq_mod v.toNat 2
  show v.toNat % 2 ^ 2 % 2 ^ 32 = v.toNat &&& 3
  omega

theorem setWidth_two_eq_extractLsb' (v : Word) : v.setWidth 2 = v.extractLsb' 0 2 :=
  BitVec.setWidth_eq_extractLsb' (by decide)

theorem irq_eq_true_iff (s : State) : s.irq = true ↔ s.irqStat &&& s.irqEn ≠ 0 := by
  rw [State.irq, bne_iff_ne]

/-- A pending bit that is enabled raises `irq` (spec/60_exceptions.md R197). -/
theorem irq_of_pending {s : State} {j : Nat} (hen : s.irqEn.getLsbD j = true) (hst : s.irqStat.getLsbD j = true) :
    s.irq = true := by
  rw [irq_eq_true_iff]
  intro h0
  have hj : (s.irqStat &&& s.irqEn).getLsbD j = true := by rw [BitVec.getLsbD_and, hst, hen]; rfl
  rw [h0] at hj
  simp at hj

theorem irq_of_irqEn_zero {s : State} (h : s.irqEn = 0) : s.irq = false := by
  simp [State.irq, h]

theorem busRead_irqEn (s : State) : busRead s 0x0014 = .data (twoBitWord s.irqEn) := rfl

theorem busRead_irqStat (s : State) : busRead s 0x0018 = .data (twoBitWord s.irqStat) := rfl

theorem busWrite_irqEn (s : State) (v : Word) : busWrite s 0x0014 v = { s with irqEn := v.setWidth 2 } :=
  (busWrite_target v (writeTarget_irqEn s)).1

theorem busWrite_irqStat (s : State) (v : Word) :
    busWrite s 0x0018 v = { s with irqStat := s.irqStat &&& ~~~(v.setWidth 2) } :=
  (busWrite_target v (writeTarget_irqStat s)).1

/-- Settles O15: IRQ_EN is a write target in every state, and its word is the two bits under thirty zeros. -/
theorem irqEnableRegister : Obligations.IrqEnableRegister := by
  refine ⟨atReset_irqEn, fun s v => ⟨irq_of_irqEn_zero, irq_of_pending, irq_of_pending, ?_, ?_, ?_, ?_⟩⟩
  · rw [busRead_irqEn, twoBitWord_eq_append]
  · exact (busWrite_target v (writeTarget_irqEn s)).2
  · rw [busRead_irqEn, busWrite_irqEn, twoBitWord_setWidth]
  · rw [busWrite_irqEn, setWidth_two_eq_extractLsb']

/-- The bits that a write leaves pending: those written as 0 (spec/10_state.md R39). -/
theorem clearWritten_bit (b : BitVec 2) (v : Word) {j : Nat} (hj : j < 2) :
    (b &&& ~~~(v.setWidth 2)).getLsbD j = (b.getLsbD j && !v.getLsbD j) := by
  simp [hj]

/-- IRQ_STAT is at no other address (spec/20_memory.md R61). -/
theorem addr_of_regAt_irqStat {nw : Nat} {a : Addr} (ha : aligned a = true) (h : regAt nw a = some .irqStat) :
    a = 0x0018 := by
  have hmod : a.toNat % 4 = 0 := by simpa [aligned] using ha
  unfold regAt at h
  simp only at h
  split at h
  · rename_i hbank
    have hword : a.toNat % 0x1000 / 4 = 6 := by
      unfold controlWord at h
      split at h <;> simp_all
    apply BitVec.eq_of_toNat_eq
    show a.toNat = 24
    omega
  · split at h
    · unfold bankWord at h
      split at h <;> simp at h
    · cases h

theorem writeReg_irqStat_of_ne {s : State} {r : RegWord} (v : Word) (h : r ≠ .irqStat) :
    (writeReg s r v).irqStat = s.irqStat := by
  cases r with
  | irqStat => contradiction
  | _ => simp [writeReg]

/-- A write to another address keeps IRQ_STAT, the accept step among them (spec/10_state.md R39). -/
theorem busWrite_irqStat_of_ne (s : State) {a : Addr} (v : Word) (ha : a ≠ 0x0018) :
    (busWrite s a v).irqStat = s.irqStat := by
  rcases busWrite_cases s a v with ⟨-, h, -⟩ | ⟨r, hr, h, -⟩
  · rw [h]
  · obtain ⟨hal, hreg, -, -⟩ := writeTarget_some hr
    rw [h]
    refine writeReg_irqStat_of_ne v ?_
    rintro rfl
    exact ha (addr_of_regAt_irqStat hal hreg)

theorem hostWrite_irqStat_of_ne (s : State) {a : Addr} (v : Word) (ha : a ≠ 0x0018) :
    (hostWrite s a v).irqStat = s.irqStat :=
  busWrite_irqStat_of_ne s v ha

theorem hostWait_irqStat (s : State) (gaps : List Nat) : (hostWait s gaps).irqStat = s.irqStat := by
  cases hb : s.busy with
  | false => rw [hostWait_idle s gaps hb, hostRead_irqStat]
  | true => rw [hostWait_busy s gaps hb]

theorem irqStat_sticky_of_eq {s t : State} (h : t.irqStat = s.irqStat) : s.irqStat &&& t.irqStat = s.irqStat := by
  rw [h, BitVec.and_self]

theorem and_or_self_left {w : Nat} (x d : BitVec w) : x &&& (x ||| d) = x := by
  apply BitVec.eq_of_getLsbD_eq
  intro i _
  rw [BitVec.getLsbD_and, BitVec.getLsbD_or]
  exact inf_sup_self

/-- The engine only sets pending bits: a completion ors one in, and no other engine turn touches the register. -/
theorem MicroStep.irqStat_sticky {s t : State} (h : MicroStep s t) : s.irqStat &&& t.irqStat = s.irqStat := by
  cases h with
  | succeeds r => rw [completeOk_irqStat, and_or_self_left]
  | fails e => rw [completeErr_irqStat, and_or_self_left]
  | continues k os p => exact irqStat_sticky_of_eq rfl

/-- "nothing but such a write or reset clears them" (spec/10_state.md R39), over every step. -/
theorem step_irqStat {s t : State} (h : step s = .next t) :
    s.irqStat &&& t.irqStat = s.irqStat ∨ (∃ ts, s.turns = .reset :: ts) ∨
      ∃ w ts, s.turns = .write 0x0018 w :: ts := by
  rcases step_cases h with ⟨-, he⟩ |
    ⟨ts, ⟨-, he⟩ | ⟨a, -, rfl⟩ | ⟨a, v, ht, rfl⟩ | ⟨r, -, rfl⟩ | ⟨ht, -⟩ | ⟨gaps, -, rfl⟩⟩
  · exact .inl (engineTurn_microStep he).irqStat_sticky
  · exact .inl (engineTurn_microStep he).irqStat_sticky
  · exact .inl (irqStat_sticky_of_eq rfl)
  · by_cases ha : a = 0x0018
    · subst ha
      exact .inr (.inr ⟨v, ts, ht⟩)
    · exact .inl (irqStat_sticky_of_eq (hostWrite_irqStat_of_ne _ v ha))
  · exact .inl (irqStat_sticky_of_eq rfl)
  · exact .inr (.inl ⟨ts, ht⟩)
  · exact .inl (irqStat_sticky_of_eq (hostWait_irqStat _ gaps))

/-- Settles O16: the last clause by cases on whose turn the step is, an engine turn being a completion or no change. -/
theorem irqStatusRegister : Obligations.IrqStatusRegister := by
  refine ⟨atReset_irqStat, fun s v r e => ⟨?_, ?_, fun j hj => ?_, ?_,
    completeOk_irqStat s r, completeErr_irqStat s e, accept_irqStat s v, irq_eq_true_iff s,
    fun t h _ => step_irqStat h⟩⟩
  · exact (busWrite_target v (writeTarget_irqStat s)).2
  · rw [busWrite_irqStat, setWidth_two_eq_extractLsb']
  · rw [busWrite_irqStat, clearWritten_bit _ _ hj]
  · rw [hostRead, busRead_irqStat, twoBitWord_eq_append]

end Sys2Proof.Machine
end

section
/-! STATUS and the state at reset (spec/10_state.md R30, R45). -/

namespace Sys2Proof.Machine

/-- The layout of STATUS, bit by bit (spec/10_state.md R30). -/
def State.statusBit (s : State) : Nat → Bool
  | 0 => s.busy
  | 1 => s.done
  | 2 => s.err
  | 3 => s.prime
  | 4 => s.xneg
  | 5 => s.yneg
  | 6 => false
  | 7 => false
  | k + 8 => s.errcode.getLsbD k

theorem statusWord_getLsbD (s : State) (j : Nat) : s.statusWord.getLsbD j = s.statusBit j := by
  change (0#20 ++ s.errcode ++ 0#2 ++ BitVec.ofBool s.yneg ++ BitVec.ofBool s.xneg ++ BitVec.ofBool s.prime
    ++ BitVec.ofBool s.err ++ BitVec.ofBool s.done ++ BitVec.ofBool s.busy).getLsbD j = _
  simp only [BitVec.append_ofBool, BitVec.getLsbD_concat, BitVec.getLsbD_append, BitVec.getLsbD_zero]
  match j with
  | 0 | 1 | 2 | 3 | 4 | 5 | 6 | 7 => rfl
  | k + 8 =>
    by_cases hk : k < 4
    · simp [State.statusBit, hk]
    · simp [State.statusBit, hk, BitVec.getLsbD_of_ge s.errcode k (by omega)]

/-- Bits 7:6 of STATUS are reserved (spec/10_state.md R30). -/
theorem statusWord_reserved_low (s : State) : s.statusWord.extractLsb' 6 2 = 0 := by
  apply BitVec.eq_of_getLsbD_eq
  intro i hi
  rw [BitVec.getLsbD_extractLsb', statusWord_getLsbD]
  match i, hi with
  | 0, _ | 1, _ => rfl

theorem statusWord_errcode (s : State) : s.statusWord.extractLsb' 8 4 = s.errcode := by
  apply BitVec.eq_of_getLsbD_eq
  intro i hi
  rw [BitVec.getLsbD_extractLsb', statusWord_getLsbD, Nat.add_comm 8 i, State.statusBit, decide_eq_true hi,
    Bool.true_and]

/-- Bits 31:12 of STATUS are reserved (spec/10_state.md R30). -/
theorem statusWord_reserved_high (s : State) : s.statusWord.extractLsb' 12 20 = 0 := by
  apply BitVec.eq_of_getLsbD_eq
  intro i _
  have h : s.statusBit (12 + i) = s.errcode.getLsbD (4 + i) := by
    rw [show 12 + i = 4 + i + 8 by omega, State.statusBit]
  rw [BitVec.getLsbD_extractLsb', statusWord_getLsbD, h, BitVec.getLsbD_of_ge _ _ (by omega), Bool.and_false]
  exact (BitVec.getLsbD_zero ..).symm

theorem atReset_statusWord (n : Fin 1024) : (State.atReset n).statusWord = 0 := by
  apply BitVec.eq_of_getLsbD_eq
  intro i _
  rw [statusWord_getLsbD]
  unfold State.statusBit
  split <;> simp

/-- Settles O11: each clause reads the layout off `statusBit`; STATUS is no write target. -/
theorem statusLayout : Obligations.StatusLayout := by
  refine ⟨atReset_statusWord, fun s v => ⟨statusWord_getLsbD s 0, statusWord_getLsbD s 1, statusWord_getLsbD s 2,
    statusWord_getLsbD s 3, statusWord_getLsbD s 4, statusWord_getLsbD s 5, statusWord_reserved_low s,
    statusWord_errcode s, statusWord_reserved_high s, ?_, hostWrite_refused v (writeTarget_status s)⟩⟩
  rw [hostRead, busRead_status]

theorem busRead_id (s : State) : busRead s 0x0000 = .data 0x4D584531 := rfl

theorem atReset_visible (n : Fin 1024) :
    (State.atReset n).visible =
      { size := n, operands := (0, 0, 0, 0), results := (0, 0, 0, 0)
        flags := (false, false, false, false, false, false, 0), control := (0, 0, 0) } := by
  simp [State.visible]

/-- Settles O28: every host-readable register is 0 at reset; `irq` is low since nothing is enabled. -/
theorem resetState : Obligations.ResetState := by
  refine ⟨State.reset_eq, fun n => ⟨atReset_visible n, atReset_pc n, irq_of_irqEn_zero (atReset_irqEn n), ?_,
    busRead_id _, busRead_param _⟩⟩
  rw [busRead_status, atReset_statusWord]

end Sys2Proof.Machine
end

section
/-! The address map read backwards: which addresses a write can act on (spec/20_memory.md R61, R66). -/

namespace Sys2Proof.Machine

/-- A mapped aligned address is a word of the control block or a word of a bank (spec/20_memory.md R61). -/
theorem regAt_some_cases {nw : Nat} {a : Addr} {r : RegWord} (ha : aligned a = true) (h : regAt nw a = some r) :
    (∃ i, a = BitVec.ofNat 15 (4 * i) ∧ controlWord i = some r) ∨
      ∃ b i, i < nw ∧ a = BitVec.ofNat 15 (b * 0x1000 + 4 * i) ∧ bankWord b i = some r := by
  have hmod : a.toNat % 4 = 0 := by simpa [aligned] using ha
  have haddr : ∀ n, a.toNat = n → a = BitVec.ofNat 15 n := by
    rintro _ rfl
    rw [BitVec.ofNat_toNat, BitVec.setWidth_eq]
  unfold regAt at h
  simp only at h
  split at h
  · exact .inl ⟨_, haddr _ (by omega), h⟩
  · split at h
    · rename_i hi
      exact .inr ⟨_, _, hi, haddr _ (by omega), h⟩
    · cases h

/-- The writable words of the control block (spec/20_memory.md R61, R66 case 3). -/
theorem controlWord_writable {i : Nat} {r : RegWord} (h : controlWord i = some r) (hro : r.readOnly = false) :
    (i = 2 ∧ r = .cmd) ∨ (i = 4 ∧ r = .rounds) ∨ (i = 5 ∧ r = .irqEn) ∨ (i = 6 ∧ r = .irqStat) := by
  unfold controlWord at h
  split at h <;> cases h <;> simp [RegWord.readOnly] at hro ⊢

/-- The writable banks are the operands' (spec/20_memory.md R61, R66 case 3). -/
theorem bankWord_writable {b i : Nat} {r : RegWord} (h : bankWord b i = some r) (hro : r.readOnly = false) :
    (b = 1 ∧ r = .opa i) ∨ (b = 2 ∧ r = .opb i) ∨ (b = 3 ∧ r = .opm i) := by
  unfold bankWord at h
  split at h <;> cases h <;> simp [RegWord.readOnly] at hro ⊢

/-- Every address at which a write is performed, with the word it acts on (spec/20_memory.md R66, R68). -/
theorem writeTarget_addr {s : State} {a : Addr} {r : RegWord} (h : writeTarget s a = some r) :
    (a = 0x0008 ∧ r = .cmd) ∨ (a = 0x0010 ∧ r = .rounds) ∨ (a = 0x0014 ∧ r = .irqEn) ∨
      (a = 0x0018 ∧ r = .irqStat) ∨
      ∃ i < s.nw, (a = BitVec.ofNat 15 (0x1000 + 4 * i) ∧ r = .opa i) ∨
        (a = BitVec.ofNat 15 (0x2000 + 4 * i) ∧ r = .opb i) ∨ (a = BitVec.ofNat 15 (0x3000 + 4 * i) ∧ r = .opm i) := by
  obtain ⟨ha, hreg, hro, -⟩ := writeTarget_some h
  rcases regAt_some_cases ha hreg with ⟨i, rfl, hw⟩ | ⟨b, i, hi, rfl, hw⟩
  · rcases controlWord_writable hw hro with ⟨rfl, rfl⟩ | ⟨rfl, rfl⟩ | ⟨rfl, rfl⟩ | ⟨rfl, rfl⟩
    · exact .inl ⟨rfl, rfl⟩
    · exact .inr (.inl ⟨rfl, rfl⟩)
    · exact .inr (.inr (.inl ⟨rfl, rfl⟩))
    · exact .inr (.inr (.inr (.inl ⟨rfl, rfl⟩)))
  · refine .inr (.inr (.inr (.inr ⟨i, hi, ?_⟩)))
    rcases bankWord_writable hw hro with ⟨rfl, rfl⟩ | ⟨rfl, rfl⟩ | ⟨rfl, rfl⟩
    · exact .inl ⟨rfl, rfl⟩
    · exact .inr (.inl ⟨rfl, rfl⟩)
    · exact .inr (.inr ⟨rfl, rfl⟩)

end Sys2Proof.Machine
end

section
/-! Reads of the register window and its byte lanes (spec/20_memory.md R62, R63). -/

namespace Sys2Proof.Machine

theorem busRead_lastcmd (s : State) : busRead s 0x0008 = .data s.lastcmd := rfl

theorem busRead_rounds (s : State) : busRead s 0x0010 = .data s.rounds := rfl

theorem busRead_rcnt (s : State) : busRead s 0x001C = .data s.rcnt := rfl

/-- A bank whose words read as those of `q` reads as the bits of `q` (spec/20_memory.md R62). -/
theorem busRead_bank_bits {s : State} {b i q : Nat} {r : RegWord} (hb : 1 ≤ b ∧ b ≤ 6) (hi : i < s.nw)
    (hw : bankWord b i = some r) (hr : readReg s r = getWord q i) :
    ∃ d : Word, busRead s (BitVec.ofNat 15 (b * 0x1000 + 4 * i)) = .data d ∧
      ∀ j < 32, d.getLsbD j = q.testBit (32 * i + j) := by
  refine ⟨getWord q i, ?_, fun j hj => getWord_bit q i j hj⟩
  rw [busRead_bank s b i r hb hi hw, hr]

/-- Settles O8: the control words one by one, then the one argument of `busRead_bank_bits` for each of the six banks. -/
theorem registerWindowReads : Obligations.RegisterWindowReads := by
  intro s
  refine ⟨busRead_id s, busRead_param s, busRead_lastcmd s, busRead_status s, busRead_rounds s, ?_, ?_, busRead_rcnt s,
    fun p hp i hi => ?_⟩
  · rw [busRead_irqEn, twoBitWord_eq_append]
  · rw [busRead_irqStat, twoBitWord_eq_append]
  · simp only [List.mem_cons, List.not_mem_nil, or_false] at hp
    rcases hp with rfl | rfl | rfl | rfl | rfl | rfl
    · exact busRead_bank_bits (b := 1) (by decide) hi rfl rfl
    · exact busRead_bank_bits (b := 2) (by decide) hi rfl rfl
    · exact busRead_bank_bits (b := 3) (by decide) hi rfl rfl
    · exact busRead_bank_bits (b := 4) (by decide) hi rfl rfl
    · exact busRead_bank_bits (b := 5) (by decide) hi rfl rfl
    · exact busRead_bank_bits (b := 6) (by decide) hi rfl rfl

/-- Only an aligned read carries data (spec/20_memory.md R64, R67). -/
theorem aligned_of_busRead_data {s : State} {a : Addr} {v : Word} (h : busRead s a = .data v) : aligned a = true := by
  unfold busRead at h
  split at h
  · cases h
  · rename_i ha
    simpa using ha

theorem byteLane_eq_extractLsb' (v : Word) (j : Nat) : byteLane v j = v.extractLsb' (8 * j) 8 := by
  apply BitVec.eq_of_toNat_eq
  rw [byteLane, BitVec.toNat_ofNat, BitVec.extractLsb'_toNat, Nat.shiftRight_eq_div_pow]

/-- The four bytes above an aligned address are in the window: no lane wraps round (spec/20_memory.md R63). -/
theorem aligned_add_toNat {a : Addr} {j : Nat} (ha : a.toNat % 4 = 0) (hj : j ≤ 3) :
    (a + BitVec.ofNat 15 j).toNat = a.toNat + j := by
  have := a.isLt
  rw [BitVec.toNat_add, BitVec.toNat_ofNat]
  omega

/-- Settles O9: byte address `a + j` falls in the word at `a`, in its lane `j`. -/
theorem byteLanesAreLittleEndian : Obligations.ByteLanesAreLittleEndian := by
  intro s a v j hread hj
  have hmod : a.toNat % 4 = 0 := by simpa [aligned] using aligned_of_busRead_data hread
  have hword : (a.toNat + j) / 4 * 4 = a.toNat := by omega
  have hlane : (a.toNat + j) % 4 = j := by omega
  rw [byteAt, aligned_add_toNat hmod hj, hword, hlane, BitVec.ofNat_toNat, BitVec.setWidth_eq, hread]
  exact congrArg some (byteLane_eq_extractLsb' v j)

end Sys2Proof.Machine
end

section
/-! Writes to the register window (spec/20_memory.md R68, R71). -/

namespace Sys2Proof.Machine

/-- The register after a write of its word `i`: that word is replaced, the others are kept, and the width is too
(spec/20_memory.md R68, spec/00_scope.md R5). -/
theorem setWord_replaces (s : State) {i : Nat} (q : Nat) (v : Word) (hi : i < s.nw) :
    getWord (setWord q i v) i = v ∧ (∀ j, j ≠ i → getWord (setWord q i v) j = getWord q j) ∧
      (q < 2 ^ s.width → setWord q i v < 2 ^ s.width) :=
  ⟨getWord_setWord_same q i v, fun j hj => getWord_setWord_other q i j v hj, setWord_lt q i s.nw v hi⟩

/-- A write to a word of an operand bank on an idle block (spec/20_memory.md R68). -/
theorem busWrite_operand_idle {s : State} {b i : Nat} {r : RegWord} (v : Word) (hidle : s.busy = false)
    (hb : 1 ≤ b ∧ b ≤ 3) (hi : i < s.nw) (hw : bankWord b i = some r) :
    busWrite s (BitVec.ofNat 15 (b * 0x1000 + 4 * i)) v = writeReg s r v :=
  (busWrite_target v (writeTarget_operand_idle s b i r hidle hb hi hw)).1

/-- A write that changes the block is at an address of R68. -/
theorem busWrite_addr (s : State) (a : Addr) (v : Word) :
    busWrite s a v = s ∨ a = 0x0008 ∨ a = 0x0010 ∨ a = 0x0014 ∨ a = 0x0018 ∨
      ∃ i < s.nw, a = BitVec.ofNat 15 (0x1000 + 4 * i) ∨ a = BitVec.ofNat 15 (0x2000 + 4 * i) ∨
        a = BitVec.ofNat 15 (0x3000 + 4 * i) := by
  rcases busWrite_cases s a v with ⟨-, h, -⟩ | ⟨r, hr, -, -⟩
  · exact .inl h
  · exact .inr ((writeTarget_addr hr).imp And.left (.imp And.left (.imp And.left (.imp And.left
      fun ⟨i, hi, h⟩ => ⟨i, hi, h.imp And.left (.imp And.left And.left)⟩))))

/-- Settles O13: each address of R68 has its write target, and `writeTarget_addr` says that no other address has one. -/
theorem performedWriteEffects : Obligations.PerformedWriteEffects := by
  refine fun s v => ⟨fun hidle i hi => ⟨?_, ?_, ?_⟩, fun hidle => ⟨?_, ?_⟩, ?_, ?_, fun a => busWrite_addr s a v⟩
  · exact ⟨_, busWrite_operand_idle (b := 1) v hidle (by decide) hi rfl, setWord_replaces s s.opa v hi⟩
  · exact ⟨_, busWrite_operand_idle (b := 2) v hidle (by decide) hi rfl, setWord_replaces s s.opb v hi⟩
  · exact ⟨_, busWrite_operand_idle (b := 3) v hidle (by decide) hi rfl, setWord_replaces s s.opm v hi⟩
  · exact (busWrite_target v (writeTarget_rounds_idle s hidle)).1
  · exact (busWrite_target v (writeTarget_cmd_idle s hidle)).1
  · rw [busWrite_irqEn, setWidth_two_eq_extractLsb']
  · rw [busWrite_irqStat, setWidth_two_eq_extractLsb']

/-- While a command runs no locked address has a write target: the only ones left are IRQ_EN and IRQ_STAT
(spec/20_memory.md R71). -/
theorem writeTarget_busyLocked {s : State} {a : Addr} (hb : s.busy = true) (hl : busyLockedAddr a.toNat) :
    writeTarget s a = none := by
  cases h : writeTarget s a with
  | none => rfl
  | some r =>
    have haddr : a = 0x0014 ∨ a = 0x0018 := by
      rcases writeTarget_busy hb h with rfl | rfl
      · exact .inl (by simpa using writeTarget_addr h)
      · exact .inr (by simpa using writeTarget_addr h)
    rcases haddr with rfl | rfl <;> exact absurd hl (by decide)

/-- Settles O14: the locked addresses have no write target, and IRQ_EN and IRQ_STAT have theirs in every state. -/
theorem busyRefusesWrites : Obligations.BusyRefusesWrites := by
  refine fun s a v hb => ⟨fun hl => ?_, ⟨?_, ?_⟩, ?_, ?_⟩
  · exact (busWrite_refused v (writeTarget_busyLocked hb hl)).symm
  · exact (busWrite_target v (writeTarget_irqEn s)).2
  · rw [busWrite_irqEn, setWidth_two_eq_extractLsb']
  · exact (busWrite_target v (writeTarget_irqStat s)).2
  · rw [busWrite_irqStat, setWidth_two_eq_extractLsb']

end Sys2Proof.Machine
end

section
/-! The command words (spec/30_encoding.md R90 to R92, R95): decoding and encoding are inverse to each other, and the legal
words are the five encodings. -/

namespace Sys2Proof

/-- The round trip of `Laws.RoundTrip`, for every row of R92. -/
theorem roundTrip (i : Instr) : Laws.RoundTrip.Statement i := by
  cases i with
  | modexp => exact Laws.RoundTrip.modexp
  | mrtest => exact Laws.RoundTrip.mrtest
  | modinv => exact Laws.RoundTrip.modinv
  | egcd => exact Laws.RoundTrip.egcd
  | gcd => exact Laws.RoundTrip.gcd

theorem decode_encode (i : Instr) : decode (encode i) = .ok i := by
  obtain ⟨-, -, h, -⟩ := roundTrip i
  exact h

theorem legalWord_encode (i : Instr) : legalWord (encode i) = true := by
  obtain ⟨-, h, -⟩ := roundTrip i
  exact h

/-- A word whose field ZERO is 0 is its field OP (spec/30_encoding.md R90). -/
theorem eq_ofNat_of_fields {c : Word} {n : Nat} (hz : zeroField c = 0) (ho : opField c = n) : c = BitVec.ofNat 32 n := by
  have hc : c.toNat = n := by
    unfold zeroField at hz
    unfold opField at ho
    omega
  rw [← hc, BitVec.ofNat_toNat, BitVec.setWidth_eq]

/-- R91's two checks leave only the row's own word. -/
theorem eq_encode_of_decode {c : Word} {i : Instr} (h : decode c = .ok i) : c = encode i := by
  unfold decode at h
  split at h
  · cases h
  · rename_i hz
    have hword : ∀ n, opField c = n → c = BitVec.ofNat 32 n := fun _ => eq_ofNat_of_fields (not_not.mp hz)
    split at h <;> cases h <;> exact hword _ ‹_›

theorem decode_eq_ok_iff {c : Word} {i : Instr} : decode c = .ok i ↔ c = encode i :=
  ⟨eq_encode_of_decode, fun h => h ▸ decode_encode i⟩

/-- R92, R95: a legal word is one of the five rows' words. -/
theorem exists_encode_of_legalWord {c : Word} (h : legalWord c = true) : ∃ i, c = encode i := by
  simp only [legalWord, zeroFieldClear, opcodeNamed, Bool.and_eq_true, beq_iff_eq, decide_eq_true_eq] at h
  obtain ⟨hz, hlow, hhigh⟩ := h
  have hop : opField c = 1 ∨ opField c = 2 ∨ opField c = 3 ∨ opField c = 4 ∨ opField c = 5 := by
    unfold opField
    omega
  rcases hop with h | h | h | h | h
  · exact ⟨.modexp, eq_ofNat_of_fields hz h⟩
  · exact ⟨.mrtest, eq_ofNat_of_fields hz h⟩
  · exact ⟨.modinv, eq_ofNat_of_fields hz h⟩
  · exact ⟨.egcd, eq_ofNat_of_fields hz h⟩
  · exact ⟨.gcd, eq_ofNat_of_fields hz h⟩

theorem legalWord_iff_exists_encode {c : Word} : legalWord c = true ↔ ∃ i, c = encode i := by
  refine ⟨exists_encode_of_legalWord, ?_⟩
  rintro ⟨i, rfl⟩
  exact legalWord_encode i

/-- The decodable words are the legal ones (spec/30_encoding.md R92, R95). -/
theorem legalWord_iff_decodes {c : Word} : legalWord c = true ↔ ∃ i, decode c = .ok i := by
  simp only [legalWord_iff_exists_encode, decode_eq_ok_iff]

/-- R92's mask is all ones, so the masked compare is equality of words. -/
theorem and_commandMask (c : Word) : c &&& 0xFFFFFFFF#32 = c :=
  BitVec.and_allOnes

/-- Settles O2: `decode_eq_ok_iff` under R92's mask, and the legal words are the encodings. -/
theorem decodeEncodeAgree : Obligations.DecodeEncodeAgree := by
  refine ⟨⟨rfl, rfl, rfl, rfl, rfl⟩, fun i _ => decode_encode i, fun c i => ?_, fun c => legalWord_iff_decodes⟩
  rw [and_commandMask]
  exact decode_eq_ok_iff

/-- R91, R95: the decoder rejects an illegal word by name. -/
theorem decode_eq_error_of_illegal {c : Word} (h : legalWord c = false) : ∃ e, decode c = .error e := by
  cases hd : decode c with
  | error e => exact ⟨e, rfl⟩
  | ok i => exact absurd (legalWord_iff_decodes.mpr ⟨i, hd⟩) (by simp [h])

/-- R92, R95: the illegal words are all but 1 to 5. -/
theorem legalWord_eq_false_iff (v : Word) : legalWord v = false ↔ v ≠ 1 ∧ v ≠ 2 ∧ v ≠ 3 ∧ v ≠ 4 ∧ v ≠ 5 := by
  rw [← Bool.not_eq_true, legalWord_iff_exists_encode, not_exists]
  constructor
  · intro h
    exact ⟨h .modexp, h .mrtest, h .modinv, h .egcd, h .gcd⟩
  · rintro ⟨h1, h2, h3, h4, h5⟩ i
    cases i with
    | modexp => exact h1
    | mrtest => exact h2
    | modinv => exact h3
    | egcd => exact h4
    | gcd => exact h5

end Sys2Proof

namespace Sys2Proof.Machine

/-- A word written to CMD on an idle block is accepted, legal or not (spec/20_memory.md R68, spec/40_common.md R111). -/
theorem step_write_cmd_idle (s : State) (v : Word) (ts : List Turn) (ht : s.turns = .write 0x0008 v :: ts)
    (h : s.busy = false) :
    step s = .next { accept s v with turns := ts, answers := .ok :: s.answers } :=
  (step_write s _ v ts ht).trans (congrArg _ (hostWrite_target v (writeTarget_cmd_idle { s with turns := ts } h)))

/-- START on an illegal word, as the step that follows (spec/60_exceptions.md R193). -/
theorem step_start_illegal {s : State} (ht : s.turns = []) (hp : s.pc = .start) (hl : legalWord s.lastcmd = false) :
    step s = .next (completeErr s .illegalCmd) := by
  obtain ⟨e, he⟩ := decode_eq_error_of_illegal hl
  rw [step_engine_nil s ht, engineTurn_illegal s e hp he]

/-- Settles O3: the accept step, then START's on the state it leaves, which holds the illegal word in LASTCMD. -/
theorem illegalWordAcceptedThenFails : Obligations.IllegalWordAcceptedThenFails := by
  refine ⟨legalWord_eq_false_iff, fun s v hidle hl => ?_⟩
  have haccept := step_write_cmd_idle { s with turns := [.write 0x0008 v] } v [] rfl hidle
  refine ⟨haccept, ?_⟩
  rw [run_succ_next 1 haccept]
  exact run_one (step_start_illegal rfl rfl hl)

end Sys2Proof.Machine
end

section
/-! The life cycle of a command (spec/40_common.md section 1): the accept step, the error completion, and what each command's
success completion delivers. -/

namespace Sys2Proof.Machine

/-- What a micro-step of command `i` makes of `s`: while the phase it leads to is not IDLE nothing is said of it; else it is
the error completion, or the success completion with the arguments that `i` has a value for (spec/40_common.md R113). -/
inductive CommandStep (s : State) : Instr → State → Prop
  | runs {i : Instr} {t : State} (h : t.pc ≠ .idle) : CommandStep s i t
  | fails {i : Instr} (e : CmdError) : CommandStep s i (completeErr s e)
  | power (v : Nat) : CommandStep s .modexp (completeOk s { res := v })
  | verdict (prime : Bool) (n : Word) : CommandStep s .mrtest (completeOk s { prime := prime, rcnt := n })
  | inverse (v : Nat) : CommandStep s .modinv (completeOk s { res := v })
  | bezout (g x y : Nat) (xneg yneg : Bool) :
      CommandStep s .egcd (completeOk s { res := g, x := x, xneg := xneg, y := y, yneg := yneg })
  | divisor (g : Nat) : CommandStep s .gcd (completeOk s { res := g })

theorem startModexp_commandStep (s : State) : CommandStep s .modexp (startModexp s) := by
  unfold startModexp
  split
  · exact .fails _
  · exact .runs nofun

theorem meLoop_commandStep {s : State} (hp : s.pc ≠ .idle) : CommandStep s .modexp (meLoop s) := by
  unfold meLoop
  split
  · exact .power _
  · exact .runs hp

theorem startMrtest_commandStep (s : State) : CommandStep s .mrtest (startMrtest s) := by
  unfold startMrtest
  split
  · exact .fails _
  split
  · exact .verdict _ _
  split
  · exact .verdict _ _
  · exact .runs nofun

theorem mrDecomp_pc_ne_idle {s : State} (hp : s.pc ≠ .idle) : (mrDecomp s).pc ≠ .idle := by
  unfold mrDecomp
  split
  · exact hp
  · nofun

theorem mrDraw_commandStep {s : State} (hp : s.pc ≠ .idle) : CommandStep s .mrtest (mrDraw s) := by
  unfold mrDraw
  split
  · exact .verdict _ _
  split
  · exact .runs hp
  · exact .runs nofun

theorem mrPow_pc_ne_idle {s : State} (hp : s.pc ≠ .idle) : (mrPow s).pc ≠ .idle := by
  unfold mrPow
  split
  · exact hp
  split
  · nofun
  · nofun

theorem mrCheck_commandStep {s : State} (hp : s.pc ≠ .idle) : CommandStep s .mrtest (mrCheck s) := by
  unfold mrCheck
  split
  · exact .runs nofun
  split
  · exact .verdict _ _
  · exact .runs hp

theorem startModinv_commandStep (s : State) : CommandStep s .modinv (startModinv s) := by
  unfold startModinv
  split
  · exact .fails _
  · exact .runs nofun

theorem euDoneInv_commandStep (s : State) : CommandStep s .modinv (euDoneInv s) := by
  unfold euDoneInv
  split
  · exact .fails _
  · exact .inverse _

theorem euclidDone_ne_idle {c : Word} {p : Phase} (h : euclidDone c = some p) : p ≠ .idle := by
  unfold euclidDone at h
  split at h <;> cases h <;> nofun

/-- The shared Euclid loop completes no command (spec/43_euclid.md R172). -/
theorem euLoop_pc_ne_idle {s t : State} (hp : s.pc ≠ .idle) (h : euLoop s = .next t) : t.pc ≠ .idle := by
  rcases euLoop_cases h with ⟨-, p, hdone, rfl⟩ | ⟨-, rfl⟩
  · exact euclidDone_ne_idle hdone
  · exact hp

/-- No command has a micro-step in IDLE (spec/40_common.md R121). -/
theorem pc_ne_idle_of_exec {i : Instr} {s t : State} (h : exec i s = .next t) : s.pc ≠ .idle := by
  intro hp
  cases i <;> simp [exec, execModexp, execMrtest, execModinv, execEgcd, execGcd, hp] at h

theorem exec_commandStep {i : Instr} {s t : State} (h : exec i s = .next t) : CommandStep s i t := by
  have hp := pc_ne_idle_of_exec h
  cases i with
  | modexp =>
    rcases execModexp_cases h with ⟨-, rfl⟩ | ⟨-, rfl⟩
    · exact startModexp_commandStep s
    · exact meLoop_commandStep hp
  | mrtest =>
    rcases execMrtest_cases h with ⟨-, rfl⟩ | ⟨-, rfl⟩ | ⟨-, rfl⟩ | ⟨-, rfl⟩ | ⟨-, rfl⟩
    · exact startMrtest_commandStep s
    · exact .runs (mrDecomp_pc_ne_idle hp)
    · exact mrDraw_commandStep hp
    · exact .runs (mrPow_pc_ne_idle hp)
    · exact mrCheck_commandStep hp
  | modinv =>
    rcases execModinv_cases h with ⟨-, rfl⟩ | ⟨-, hl⟩ | ⟨-, rfl⟩
    · exact startModinv_commandStep s
    · exact .runs (euLoop_pc_ne_idle hp hl)
    · exact euDoneInv_commandStep s
  | egcd =>
    rcases execEgcd_cases h with ⟨-, rfl⟩ | ⟨-, hl⟩ | ⟨-, rfl⟩
    · exact .runs nofun
    · exact .runs (euLoop_pc_ne_idle hp hl)
    · exact .bezout _ _ _ _ _
  | gcd =>
    rcases execGcd_cases h with ⟨-, rfl⟩ | ⟨-, hl⟩ | ⟨-, rfl⟩
    · exact .runs nofun
    · exact .runs (euLoop_pc_ne_idle hp hl)
    · exact .divisor _

/-- "Every command passes 0 for the arguments it has no value for" (spec/40_common.md R113), read off a completed step; an
error completion delivers nothing. -/
theorem CommandStep.unused_results_zero {i : Instr} {s t : State} (h : CommandStep s i t) (hpc : t.pc = .idle) :
    (i ≠ .egcd → t.resx = 0 ∧ t.resy = 0 ∧ t.xneg = false ∧ t.yneg = false) ∧
    (i ≠ .mrtest → t.prime = false ∧ t.rcnt = 0) ∧ (i = .mrtest → t.res = 0) := by
  cases h with
  | runs hrun => exact absurd hpc hrun
  | fails e => simp
  | power v => simp
  | verdict prime n => simp
  | inverse v => simp
  | bezout g x y xneg yneg => simp
  | divisor g => simp

/-! Each completion's bit is one of the two of IRQ_STAT: `DONE_IP` is bit 0, `ERR_IP` bit 1 (spec/10_state.md R39). -/

@[simp] theorem doneBit_getElem_zero : doneBit[0] = true := rfl

@[simp] theorem doneBit_getElem_one : doneBit[1] = false := rfl

@[simp] theorem errBit_getElem_zero : errBit[0] = false := rfl

@[simp] theorem errBit_getElem_one : errBit[1] = true := rfl

/-- Settles O22: the zero results from the shape of the step, then the field laws of `completeOk`, its written fields first. -/
theorem successCompletion : Obligations.SuccessCompletion := by
  refine ⟨fun i s t h hpc => (exec_commandStep h).unused_results_zero hpc, fun s r => ⟨?_, ?_⟩⟩
  · simp
  · simp

/-- Settles O21: the field laws of `completeErr` for what it writes and what it keeps, and between them the codes. -/
theorem errorCompletion : Obligations.ErrorCompletion := by
  refine fun s e => ⟨?_, ⟨rfl, rfl, rfl⟩, ?_⟩
  · simp
  · simp

/-- Settles O20: the write to CMD on an idle block is the accept step, and it is answered `OK`. -/
theorem acceptStep : Obligations.AcceptStep :=
  fun _ v ts hidle => step_write_cmd_idle _ v ts rfl hidle

end Sys2Proof.Machine
end

section
/-! MODEXP (spec/41_modexp.md): START's arm and the loop as steps, and the loop run to its end. -/

namespace Sys2Proof.Machine

theorem exec_modexp_start {s : State} (h : s.pc = .start) : exec .modexp s = .next (startModexp s) := by
  simp [exec, execModexp, h]

theorem exec_modexp_meLoop {s : State} (h : s.pc = .meLoop) : exec .modexp s = .next (meLoop s) := by
  simp [exec, execModexp, h]

theorem startModexp_of_opm_eq_zero {s : State} (h : s.opm = 0) : startModexp s = completeErr s .precondition :=
  if_pos h

theorem startModexp_of_opm_ne_zero {s : State} (h : s.opm ≠ 0) :
    startModexp s = { s with
      work := { s.work with tM := s.opm, tR := 1 % s.opm, tB := s.opa % s.opm, tE := s.opb }, pc := .meLoop } :=
  if_neg h

theorem meLoop_of_tE_eq_zero {s : State} (h : s.work.tE = 0) : meLoop s = completeOk s { res := s.work.tR } :=
  if_pos h

theorem meLoop_of_tE_ne_zero {s : State} (h : s.work.tE ≠ 0) : meLoop s = { s with work := powstep s.work } :=
  if_neg h

/-- Settles O30: START's arm on a zero and on a nonzero modulus. -/
theorem modexpStart : Obligations.ModexpStart := by
  refine fun s hp => ⟨fun hm => ?_, fun hm => ?_⟩
  · rw [exec_modexp_start hp, startModexp_of_opm_eq_zero hm]
  · rw [exec_modexp_start hp, startModexp_of_opm_ne_zero hm]

/-- With no turn listed, a step of a running command is that command's micro-step (spec/40_common.md R115). -/
theorem step_command_nil {s : State} {i : Instr} (ht : s.turns = []) (hc : s.lastcmd = encode i) (hp : s.pc ≠ .idle) :
    step s = exec i s := by
  rw [step_engine_nil s ht, engineTurn_command s i hp (decode_eq_ok_iff.mpr hc)]

theorem step_modexp_start {s : State} (ht : s.turns = []) (hc : s.lastcmd = encode .modexp) (hp : s.pc = .start) :
    step s = .next (startModexp s) := by
  rw [step_command_nil ht hc (by simp [hp]), exec_modexp_start hp]

theorem step_modexp_meLoop {s : State} (ht : s.turns = []) (hc : s.lastcmd = encode .modexp) (hp : s.pc = .meLoop) :
    step s = .next (meLoop s) := by
  rw [step_command_nil ht hc (by simp [hp]), exec_modexp_meLoop hp]

/-- Halving takes off one bit: what makes the loop's length the exponent's bit length (spec/41_modexp.md R142). -/
theorem size_eq_size_half_succ {n : Nat} (h : n ≠ 0) : Nat.size n = Nat.size (n / 2) + 1 := by
  have hbit := Nat.size_bit (b := n.bodd) (n := n.div2) (by rwa [Nat.bit_bodd_div2])
  rwa [Nat.bit_bodd_div2, Nat.div2_val] at hbit

/-- ME_LOOP run to its end: one micro-step per exponent bit and one to complete. The result is the invariant
`T_R · T_B ^ T_E mod T_M` of the state the loop begins in, which every `powstep` keeps (spec/40_common.md R123). -/
theorem run_meLoop (n : Nat) {s : State} (ht : s.turns = []) (hc : s.lastcmd = encode .modexp) (hp : s.pc = .meLoop)
    (hr : s.work.tR < s.work.tM) (hn : Nat.size s.work.tE = n) :
    run (n + 1) s = .next (completeOk s { res := s.work.tR * s.work.tB ^ s.work.tE % s.work.tM }) := by
  induction n generalizing s with
  | zero =>
    have hE : s.work.tE = 0 := Nat.size_eq_zero.mp hn
    have hvalue : s.work.tR * s.work.tB ^ s.work.tE % s.work.tM = s.work.tR := by
      rw [hE, pow_zero, mul_one, Nat.mod_eq_of_lt hr]
    rw [hvalue, ← meLoop_of_tE_eq_zero hE]
    exact run_one (step_modexp_meLoop ht hc hp)
  | succ n ih =>
    have hE : s.work.tE ≠ 0 := fun h => by simp [h] at hn
    have hM : 1 ≤ s.work.tM := Nat.one_le_of_lt hr
    have hhalf : Nat.size (powstep s.work).tE = n :=
      Nat.succ.inj ((size_eq_size_half_succ hE).symm.trans hn)
    have hstep : step s = .next { s with work := powstep s.work } := by
      rw [step_modexp_meLoop ht hc hp, meLoop_of_tE_ne_zero hE]
    rw [run_succ_next _ hstep, ← powstep_value s.work hM]
    exact ih (s := { s with work := powstep s.work }) ht hc hp (powstep_lt s.work hM hr).1 hhalf

/-- Settles O32: START establishes the invariant of `run_meLoop` with the value `(1 mod m) · (OPA mod m) ^ OPB mod m`. -/
theorem modexpComputesPower : Obligations.ModexpComputesPower := by
  refine fun s hp hc ht => ⟨fun hm => ?_, fun hm => ?_⟩
  · rw [step_modexp_start ht hc hp, startModexp_of_opm_eq_zero hm]
  · have hstart := step_modexp_start ht hc hp
    rw [startModexp_of_opm_ne_zero hm] at hstart
    have hvalue : 1 % s.opm * (s.opa % s.opm) ^ s.opb % s.opm = s.opa ^ s.opb % s.opm := by
      rw [Nat.mod_mul_mod, one_mul, ← Nat.pow_mod]
    rw [run_succ_next _ hstart, ← hvalue]
    exact run_meLoop _ ht hc rfl (Nat.mod_lt 1 (Nat.pos_of_ne_zero hm)) rfl

end Sys2Proof.Machine
end

section
/-! MRTEST (spec/42_miller_rabin.md): START's arm, the loop phases as equations, and the rounds run to their end. -/

namespace Sys2Proof.Machine

theorem exec_mrtest_start {s : State} (h : s.pc = .start) : exec .mrtest s = .next (startMrtest s) := by
  simp [exec, execMrtest, h]

theorem exec_mrtest_mrDecomp {s : State} (h : s.pc = .mrDecomp) : exec .mrtest s = .next (mrDecomp s) := by
  simp [exec, execMrtest, h]

theorem exec_mrtest_mrDraw {s : State} (h : s.pc = .mrDraw) : exec .mrtest s = .next (mrDraw s) := by
  simp [exec, execMrtest, h]

theorem exec_mrtest_mrPow {s : State} (h : s.pc = .mrPow) : exec .mrtest s = .next (mrPow s) := by
  simp [exec, execMrtest, h]

theorem exec_mrtest_mrCheck {s : State} (h : s.pc = .mrCheck) : exec .mrtest s = .next (mrCheck s) := by
  simp [exec, execMrtest, h]

/-! START, an equation per arm (spec/42_miller_rabin.md R151). -/

theorem startMrtest_precondition {s : State} (h : s.opm < 2 ∨ s.rounds = 0) :
    startMrtest s = completeErr s .precondition :=
  if_pos h

theorem startMrtest_of_opm_eq_two {s : State} (h : s.opm = 2) (hr : s.rounds ≠ 0) :
    startMrtest s = completeOk s { prime := true } := by
  rw [startMrtest, if_neg (not_or.mpr ⟨by omega, hr⟩), if_pos h]

theorem startMrtest_of_even {s : State} (h : 2 < s.opm) (hr : s.rounds ≠ 0) (he : s.opm % 2 = 0) :
    startMrtest s = completeOk s { prime := false } := by
  rw [startMrtest, if_neg (not_or.mpr ⟨by omega, hr⟩), if_neg (by omega), if_pos he]

theorem startMrtest_of_odd {s : State} (h : 2 < s.opm) (hr : s.rounds ≠ 0) (ho : s.opm % 2 = 1) :
    startMrtest s = { s with
      work := { s.work with tM := s.opm, tK := s.rounds.toNat, tD := s.opm - 1, tS := 0, tJ := 0 }
      pc := .mrDecomp } := by
  rw [startMrtest, if_neg (not_or.mpr ⟨by omega, hr⟩), if_neg (by omega), if_neg (by omega)]

/-- Settles O33: one equation of `startMrtest` per arm, bit 0 of `OPM` being its parity. -/
theorem mrtestStart : Obligations.MrtestStart := by
  refine fun s hp => ⟨fun h => ?_, fun h hr => ?_, fun h hr hb => ?_, fun h hr hb => ?_⟩
  · rw [exec_mrtest_start hp, startMrtest_precondition h]
  · rw [exec_mrtest_start hp, startMrtest_of_opm_eq_two h hr]
  · rw [Nat.testBit_zero, decide_eq_false_iff_not] at hb
    rw [exec_mrtest_start hp, startMrtest_of_even h hr (by omega)]
  · rw [Nat.testBit_zero, decide_eq_true_iff] at hb
    rw [exec_mrtest_start hp, startMrtest_of_odd h hr hb]

/-! The loop phases, an equation per arm (spec/42_miller_rabin.md R152 to R155). -/

theorem mrDecomp_of_even {s : State} (h : s.work.tD % 2 = 0) :
    mrDecomp s = { s with work := { s.work with tD := s.work.tD / 2, tS := s.work.tS + 1 } } :=
  if_pos h

theorem mrDecomp_of_odd {s : State} (h : s.work.tD % 2 = 1) : mrDecomp s = { s with pc := .mrDraw } :=
  if_neg (by omega)

theorem mrDraw_of_rounds_done {s : State} (h : s.work.tJ = s.work.tK) :
    mrDraw s = completeOk s { prime := true, rcnt := BitVec.ofNat 32 s.work.tK } :=
  if_pos h

theorem mrDraw_of_offer {s : State} {r : Nat} {ws : List Nat} (h : s.work.tJ ≠ s.work.tK) (ho : s.offers = r :: ws) :
    mrDraw s = mrTake s r ws := by
  simp [mrDraw, h, ho]

theorem mrPow_of_tE_ne_zero {s : State} (h : s.work.tE ≠ 0) : mrPow s = { s with work := powstep s.work } :=
  if_pos h

theorem mrPow_of_one {s : State} (hE : s.work.tE = 0) (hR : s.work.tR = 1) : mrPow s = { s with pc := .mrDraw } := by
  simp [mrPow, hE, hR]

theorem mrPow_of_ne_one {s : State} (hE : s.work.tE = 0) (hR : s.work.tR ≠ 1) :
    mrPow s = { s with work := { s.work with tX := s.work.tR, tT := 0 }, pc := .mrCheck } := by
  simp [mrPow, hE, hR]

theorem mrCheck_of_hit {s : State} (hX : s.work.tX + 1 = s.work.tM) : mrCheck s = { s with pc := .mrDraw } :=
  if_pos hX

theorem mrCheck_of_last {s : State} (hX : s.work.tX + 1 ≠ s.work.tM) (hT : s.work.tT + 1 = s.work.tS) :
    mrCheck s = completeOk s { prime := false, rcnt := BitVec.ofNat 32 s.work.tJ } := by
  rw [mrCheck, if_neg hX, if_pos hT]

theorem mrCheck_of_more {s : State} (hX : s.work.tX + 1 ≠ s.work.tM) (hT : s.work.tT + 1 ≠ s.work.tS) :
    mrCheck s = { s with
      work := { s.work with tX := mulmod s.work.tX s.work.tX s.work.tM, tT := s.work.tT + 1 } } := by
  rw [mrCheck, if_neg hX, if_neg hT]

/-- Settles O37: one equation of `mrCheck` per arm, the integer comparisons read without their subtraction. -/
theorem mrtestCheck : Obligations.MrtestCheck := by
  refine ⟨mulmod_pos, fun s hp => ⟨fun hX => ?_, fun hX hT => ?_, fun hX hT => ?_⟩⟩
  · rw [exec_mrtest_mrCheck hp, mrCheck_of_hit (by omega)]
  · rw [exec_mrtest_mrCheck hp, mrCheck_of_last (by omega) (by omega)]
  · rw [exec_mrtest_mrCheck hp, mrCheck_of_more (by omega) (by omega)]

end Sys2Proof.Machine
end

section
/-! States reached in some number of steps, whatever the number. -/

namespace Sys2Proof.Machine

/-- Some run of the machine leads from `s` to `t`. -/
def Reaches (s t : State) : Prop :=
  ∃ k, run k s = .next t

theorem Reaches.refl (s : State) : Reaches s s :=
  ⟨0, run_zero s⟩

theorem Reaches.trans {s t u : State} (h : Reaches s t) (h' : Reaches t u) : Reaches s u := by
  obtain ⟨j, hj⟩ := h
  obtain ⟨k, hk⟩ := h'
  exact ⟨j + k, (run_add j k hj).trans hk⟩

/-- A micro-step of MRTEST, with no turn listed, as the first of a run. -/
theorem Reaches.mrtest {s t : State} (ht : s.turns = []) (hc : s.lastcmd = encode .mrtest)
    (h : exec .mrtest s = .next t) : Reaches s t :=
  ⟨1, run_one ((step_command_nil ht hc (pc_ne_idle_of_exec h)).trans h)⟩

end Sys2Proof.Machine
end

section
/-! One round of MRTEST (spec/42_miller_rabin.md R152 to R155): the loops of its phases, each by induction on what is left
of it, and `roundPasses` as what decides between them. -/

namespace Sys2Proof.Machine

variable {n e d c j : Nat} {s : State}

/-- What the registers that outlive a round hold: the candidate `n` with `n - 1 = 2 ^ e · d`, `c` rounds asked for and `j`
begun (spec/42_miller_rabin.md R151 to R153). -/
structure RoundsAt (n e d c j : Nat) (k : Working) : Prop where
  modulus : k.tM = n
  twos : k.tS = e
  oddPart : k.tD = d
  asked : k.tK = c
  begun : k.tJ = j

theorem RoundsAt.powstep {k : Working} (h : RoundsAt n e d c j k) : RoundsAt n e d c j (powstep k) :=
  ⟨h.modulus, h.twos, h.oddPart, h.asked, h.begun⟩

/-- MR_CHECK's own two registers are free to change. -/
theorem RoundsAt.check {k : Working} (h : RoundsAt n e d c j k) (x t : Nat) :
    RoundsAt n e d c j { k with tX := x, tT := t } :=
  ⟨h.modulus, h.twos, h.oddPart, h.asked, h.begun⟩

/-- A witness word taken begins one more round (spec/42_miller_rabin.md R153). -/
theorem RoundsAt.take (h : RoundsAt n e d c j s.work) (r : Nat) (ws : List Nat) :
    RoundsAt n e d c (j + 1) (mrTake s r ws).work :=
  ⟨h.modulus, h.twos, h.oddPart, h.asked, congrArg (· + 1) h.begun⟩

/-- MR_DECOMP run to its end: `i` halvings split `T_D` (spec/42_miller_rabin.md R152). -/
theorem reaches_mrDraw_of_mrDecomp (i : Nat) (ht : s.turns = []) (hc : s.lastcmd = encode .mrtest)
    (hp : s.pc = .mrDecomp) (hd : d % 2 = 1) (hD : s.work.tD = 2 ^ i * d) (hS : s.work.tS + i = e) :
    Reaches s { s with work := { s.work with tD := d, tS := e }, pc := .mrDraw } := by
  induction i generalizing s with
  | zero =>
    obtain rfl : s.work.tD = d := by simpa using hD
    obtain rfl : s.work.tS = e := hS
    refine .mrtest ht hc ?_
    rw [exec_mrtest_mrDecomp hp, mrDecomp_of_odd hd]
  | succ i ih =>
    have hD' : s.work.tD = 2 * (2 ^ i * d) := by rw [hD, pow_succ]; ring
    have hstep := exec_mrtest_mrDecomp hp
    rw [mrDecomp_of_even (by omega)] at hstep
    exact (Reaches.mrtest ht hc hstep).trans (ih ht hc hp (by simp only; omega) (by simp only; omega))

/-- MR_POW's loop run to its end, where `T_R` is the power (spec/42_miller_rabin.md R154): every `powstep` keeps
`T_R · T_B ^ T_E mod T_M`. -/
theorem reaches_mrPow_end (ht : s.turns = []) (hc : s.lastcmd = encode .mrtest) (hp : s.pc = .mrPow)
    (h : RoundsAt n e d c j s.work) (hr : s.work.tR < n) :
    ∃ k, Reaches s { s with work := k } ∧ RoundsAt n e d c j k ∧ k.tE = 0 ∧
      k.tR = s.work.tR * s.work.tB ^ s.work.tE % n := by
  induction hE : s.work.tE using Nat.strong_induction_on generalizing s with
  | _ b ih =>
    obtain rfl := h.modulus
    by_cases h0 : s.work.tE = 0
    · refine ⟨s.work, .refl s, h, h0, ?_⟩
      rw [← hE, h0, pow_zero, mul_one, Nat.mod_eq_of_lt hr]
    · have hM : 1 ≤ s.work.tM := Nat.one_le_of_lt hr
      have hstep := exec_mrtest_mrPow hp
      rw [mrPow_of_tE_ne_zero h0] at hstep
      obtain ⟨k, hk, hinv, hend, hvalue⟩ := ih (s.work.tE / 2) (by omega) (s := { s with work := powstep s.work })
        ht hc hp h.powstep (powstep_lt s.work hM hr).1 rfl
      refine ⟨k, (Reaches.mrtest ht hc hstep).trans hk, hinv, hend, ?_⟩
      rw [hvalue, ← hE]
      exact powstep_value s.work hM

theorem squares_mulmod (n x i : Nat) : squares n (mulmod x x n) i = squares n x (i + 1) := by
  induction i with
  | zero => rfl
  | succ i ih => rw [squares, ih, ← squares]

/-- `round_passes` as R150 writes it, its `n - 1` without a subtraction (spec/42_miller_rabin.md R150). -/
theorem roundPasses_iff (hn : 1 ≤ n) (a : Nat) :
    roundPasses n e d a = true ↔ a ^ d % n = 1 ∨ ∃ i < e, squares n (a ^ d % n) i + 1 = n := by
  have hpred : ∀ x, x = n - 1 ↔ x + 1 = n := by omega
  simp [roundPasses, modulo_pos _ _ hn, hpred]

/-- MR_CHECK compares the next square, where `T_X` is not `n - 1` and comparisons are left (spec/42_miller_rabin.md R155). -/
theorem reaches_next_square (ht : s.turns = []) (hc : s.lastcmd = encode .mrtest) (hp : s.pc = .mrCheck)
    (h : RoundsAt n e d c j s.work) (hX : s.work.tX + 1 ≠ n) (hT : s.work.tT + 1 < e) :
    Reaches s { s with work := { s.work with tX := mulmod s.work.tX s.work.tX n, tT := s.work.tT + 1 } } := by
  obtain rfl := h.modulus
  obtain rfl := h.twos
  refine .mrtest ht hc ?_
  rw [exec_mrtest_mrCheck hp, mrCheck_of_more hX hT.ne]

/-- MR_CHECK passes the round where `T_X` is `n - 1` (spec/42_miller_rabin.md R155). -/
theorem reaches_mrDraw_of_hit (ht : s.turns = []) (hc : s.lastcmd = encode .mrtest) (hp : s.pc = .mrCheck)
    (h : RoundsAt n e d c j s.work) (hX : s.work.tX + 1 = n) : Reaches s { s with pc := .mrDraw } := by
  refine .mrtest ht hc ?_
  rw [exec_mrtest_mrCheck hp, mrCheck_of_hit (hX.trans h.modulus.symm)]

/-- MR_CHECK passes the round where one of the squares still to be compared is `n - 1`
(spec/42_miller_rabin.md R155). -/
theorem reaches_mrDraw_of_square (i : Nat) (ht : s.turns = []) (hc : s.lastcmd = encode .mrtest)
    (hp : s.pc = .mrCheck) (h : RoundsAt n e d c j s.work) (hi : s.work.tT + i < e)
    (hsq : squares n s.work.tX i + 1 = n) :
    ∃ k, Reaches s { s with work := k, pc := .mrDraw } ∧ RoundsAt n e d c j k := by
  induction i generalizing s with
  | zero => exact ⟨s.work, reaches_mrDraw_of_hit ht hc hp h hsq, h⟩
  | succ i ih =>
    by_cases hX : s.work.tX + 1 = n
    · exact ⟨s.work, reaches_mrDraw_of_hit ht hc hp h hX, h⟩
    · rw [← squares_mulmod] at hsq
      obtain ⟨k, hk, hinv⟩ := ih (s := { s with
        work := { s.work with tX := mulmod s.work.tX s.work.tX n, tT := s.work.tT + 1 } })
        ht hc hp (h.check _ _) (by simp only; omega) hsq
      exact ⟨k, (reaches_next_square ht hc hp h hX (by omega)).trans hk, hinv⟩

/-- MR_CHECK answers "composite" where none of the `i + 1` squares still to be compared is `n - 1`
(spec/42_miller_rabin.md R155). -/
theorem reaches_composite_of_squares (i : Nat) (ht : s.turns = []) (hc : s.lastcmd = encode .mrtest)
    (hp : s.pc = .mrCheck) (h : RoundsAt n e d c j s.work) (hi : s.work.tT + i + 1 = e)
    (hsq : ∀ l ≤ i, squares n s.work.tX l + 1 ≠ n) :
    Reaches s (completeOk s { prime := false, rcnt := BitVec.ofNat 32 j }) := by
  have hX : s.work.tX + 1 ≠ n := hsq 0 (Nat.zero_le i)
  induction i generalizing s with
  | zero =>
    obtain rfl := h.modulus
    obtain rfl := h.begun
    refine .mrtest ht hc ?_
    rw [exec_mrtest_mrCheck hp, mrCheck_of_last hX (hi.trans h.twos.symm)]
  | succ i ih =>
    have hsq' : ∀ l ≤ i, squares n (mulmod s.work.tX s.work.tX n) l + 1 ≠ n := by
      intro l hl
      rw [squares_mulmod]
      exact hsq (l + 1) (Nat.succ_le_succ hl)
    exact (reaches_next_square ht hc hp h hX (by omega)).trans
      (ih ht hc hp (h.check _ _) (by simp only; omega) hsq' (hsq' 0 (Nat.zero_le i)))

/-- A round begun in MR_DRAW gets to the end of MR_POW with `x_0` in `T_R` (spec/42_miller_rabin.md R150, R153). -/
theorem reaches_power_of_draw {r : Nat} {ws : List Nat} (ht : s.turns = []) (hc : s.lastcmd = encode .mrtest)
    (hp : s.pc = .mrDraw) (h : RoundsAt n e d c j s.work) (hn : 3 ≤ n) (hj : j ≠ c) (ho : s.offers = r :: ws) :
    ∃ k, Reaches s { s with work := k, offers := ws, pc := .mrPow } ∧ RoundsAt n e d c (j + 1) k ∧ k.tE = 0 ∧
      k.tR = witness n r ^ d % n := by
  have hexec := exec_mrtest_mrDraw hp
  rw [mrDraw_of_offer (by rwa [h.begun, h.asked]) ho] at hexec
  obtain ⟨k, hk, hinv, hend, hvalue⟩ := reaches_mrPow_end (s := mrTake s r ws) ht hc rfl (h.take r ws)
    (by show 1 < n; omega)
  refine ⟨k, (Reaches.mrtest ht hc hexec).trans hk, hinv, hend, ?_⟩
  rw [hvalue, ← h.modulus, ← h.oddPart]
  exact congrArg (· % s.work.tM) (one_mul _)

/-- MR_POW's last micro-step where `x_0` is not 1 (spec/42_miller_rabin.md R154). -/
theorem reaches_mrCheck_of_power (ht : s.turns = []) (hc : s.lastcmd = encode .mrtest) (hp : s.pc = .mrPow)
    (hE : s.work.tE = 0) (hR : s.work.tR ≠ 1) :
    Reaches s { s with work := { s.work with tX := s.work.tR, tT := 0 }, pc := .mrCheck } := by
  refine .mrtest ht hc ?_
  rw [exec_mrtest_mrPow hp, mrPow_of_ne_one hE hR]

/-- A round that passes gets back to MR_DRAW, its word taken (spec/42_miller_rabin.md R150). -/
theorem reaches_mrDraw_of_roundPasses {r : Nat} {ws : List Nat} (ht : s.turns = []) (hc : s.lastcmd = encode .mrtest)
    (hp : s.pc = .mrDraw) (h : RoundsAt n e d c j s.work) (hn : 3 ≤ n) (hj : j ≠ c) (ho : s.offers = r :: ws)
    (hpass : roundPasses n e d (witness n r) = true) :
    ∃ k, Reaches s { s with work := k, offers := ws, pc := .mrDraw } ∧ RoundsAt n e d c (j + 1) k := by
  obtain ⟨k, hk, hinv, hend, hvalue⟩ := reaches_power_of_draw ht hc hp h hn hj ho
  rw [roundPasses_iff (by omega), ← hvalue] at hpass
  by_cases hR : k.tR = 1
  · have hexec := exec_mrtest_mrPow (s := { s with work := k, offers := ws, pc := .mrPow }) rfl
    rw [mrPow_of_one hend hR] at hexec
    exact ⟨k, hk.trans (.mrtest ht hc hexec), hinv⟩
  · obtain ⟨i, hi, hsq⟩ := hpass.resolve_left hR
    have hcheck := reaches_mrCheck_of_power (s := { s with work := k, offers := ws, pc := .mrPow }) ht hc rfl hend hR
    obtain ⟨k', hk', hinv'⟩ := reaches_mrDraw_of_square i
      (s := { s with work := { k with tX := k.tR, tT := 0 }, offers := ws, pc := .mrCheck }) ht hc rfl
      (hinv.check _ _) (by simpa using hi) hsq
    exact ⟨k', (hk.trans hcheck).trans hk', hinv'⟩

/-- A round that fails completes with "composite" and its own number (spec/42_miller_rabin.md R150). -/
theorem reaches_composite_of_not_roundPasses {r : Nat} {ws : List Nat} (ht : s.turns = [])
    (hc : s.lastcmd = encode .mrtest) (hp : s.pc = .mrDraw) (h : RoundsAt n e d c j s.work) (hn : 3 ≤ n)
    (he : 1 ≤ e) (hj : j ≠ c) (ho : s.offers = r :: ws) (hfail : ¬ roundPasses n e d (witness n r) = true) :
    Reaches s (completeOk { s with offers := ws } { prime := false, rcnt := BitVec.ofNat 32 (j + 1) }) := by
  obtain ⟨k, hk, hinv, hend, hvalue⟩ := reaches_power_of_draw ht hc hp h hn hj ho
  rw [roundPasses_iff (by omega), ← hvalue, not_or] at hfail
  obtain ⟨hR, hsq⟩ := hfail
  have hcheck := reaches_mrCheck_of_power (s := { s with work := k, offers := ws, pc := .mrPow }) ht hc rfl hend hR
  have hcomposite := reaches_composite_of_squares (e - 1)
    (s := { s with work := { k with tX := k.tR, tT := 0 }, offers := ws, pc := .mrCheck }) ht hc rfl
    (hinv.check _ _) (by simp only; omega) (fun l hl heq => hsq ⟨l, by omega, heq⟩)
  exact (hk.trans hcheck).trans hcomposite

end Sys2Proof.Machine
end

section
/-! MRTEST from START to its end (spec/42_miller_rabin.md R150). -/

namespace Sys2Proof.Machine

/-- The state in which MRTEST stands, begun in `s` with `c` rounds, when its rounds have come to the given end
(spec/42_miller_rabin.md R150, spec/70_reset_and_hazards.md R236). -/
def StandsAfter (s : State) (c : Nat) (t : State) : Rounds → Prop
  | .passed rest => t = completeOk { s with offers := rest } { prime := true, rcnt := BitVec.ofNat 32 c }
  | .failed j rest => t = completeOk { s with offers := rest } { prime := false, rcnt := BitVec.ofNat 32 j }
  | .waiting => t.pc = .mrDraw ∧ t.offers = [] ∧ t.busy = s.busy

/-- What a round changes does not matter for the end. -/
theorem standsAfter_round {s t : State} {c : Nat} {o : Rounds} (k : Working) (ws : List Nat) (p : Phase) :
    StandsAfter { s with work := k, offers := ws, pc := p } c t o ↔ StandsAfter s c t o := by
  cases o with
  | passed rest => exact Iff.rfl
  | failed j rest => exact Iff.rfl
  | waiting => exact Iff.rfl

/-- The rounds from MR_DRAW on, with `j` begun and `m` left: by induction on `m`, a round passed or failed at a time. -/
theorem reaches_end_of_rounds {n e d c : Nat} (m : Nat) {j : Nat} {s : State} (ht : s.turns = [])
    (hc : s.lastcmd = encode .mrtest) (hp : s.pc = .mrDraw) (h : RoundsAt n e d c j s.work) (hn : 3 ≤ n) (he : 1 ≤ e)
    (hm : j + m = c) :
    ∃ t, Reaches s t ∧ StandsAfter s c t (runRounds n e d m j s.offers) := by
  induction m generalizing j s with
  | zero =>
    refine ⟨_, ?_, rfl⟩
    obtain rfl := h.asked
    refine .mrtest ht hc ?_
    rw [exec_mrtest_mrDraw hp, mrDraw_of_rounds_done (h.begun.trans hm)]
  | succ m ih =>
    have hj : j ≠ c := by omega
    cases ho : s.offers with
    | nil => exact ⟨s, .refl s, hp, ho, rfl⟩
    | cons r ws =>
      rw [runRounds]
      split
      next hpass =>
        obtain ⟨k, hk, hinv⟩ := reaches_mrDraw_of_roundPasses ht hc hp h hn hj ho hpass
        obtain ⟨t, htt, hend⟩ := ih (s := { s with work := k, offers := ws, pc := .mrDraw }) ht hc rfl hinv (by omega)
        exact ⟨t, hk.trans htt, (standsAfter_round _ _ _).mp hend⟩
      next hfail => exact ⟨_, reaches_composite_of_not_roundPasses ht hc hp h hn he hj ho hfail, rfl⟩

/-- An even number is split with at least one halving (spec/42_miller_rabin.md R152). -/
theorem one_le_twos {n e d : Nat} (hn : n % 2 = 1) (hsplit : n - 1 = 2 ^ e * d) (hd : d % 2 = 1) : 1 ≤ e := by
  cases e with
  | zero => rw [pow_zero, one_mul] at hsplit; omega
  | succ e => exact Nat.succ_pos e

/-- MRTEST of an odd number from START: START's arm, MR_DECOMP to its end, then the rounds. -/
theorem reaches_end_of_mrtest {e d : Nat} {s : State} (ht : s.turns = []) (hc : s.lastcmd = encode .mrtest)
    (hp : s.pc = .start) (hn : 2 < s.opm) (hr : s.rounds ≠ 0) (ho : s.opm % 2 = 1) (hsplit : s.opm - 1 = 2 ^ e * d)
    (hd : d % 2 = 1) :
    ∃ t, Reaches s t ∧ StandsAfter s s.rounds.toNat t (runRounds s.opm e d s.rounds.toNat 0 s.offers) := by
  have hstart := exec_mrtest_start hp
  rw [startMrtest_of_odd hn hr ho] at hstart
  have hdraw := (Reaches.mrtest ht hc hstart).trans
    (reaches_mrDraw_of_mrDecomp e ht hc rfl hd hsplit (Nat.zero_add e))
  obtain ⟨t, htt, hend⟩ := reaches_end_of_rounds s.rounds.toNat (s := { s with
      work := { s.work with tM := s.opm, tK := s.rounds.toNat, tD := d, tS := e, tJ := 0 }, pc := .mrDraw })
    ht hc rfl ⟨rfl, rfl, rfl, rfl, rfl⟩ hn (one_le_twos ho hsplit hd) (Nat.zero_add _)
  exact ⟨t, hdraw.trans htt, (standsAfter_round _ s.offers _).mp hend⟩

/-- Settles O38: START alone decides the early cases; the rounds' end is read off `StandsAfter`. -/
theorem mrtestRunsRounds : Obligations.MrtestRunsRounds := by
  intro s hp (hc : s.lastcmd = encode .mrtest) ht
  have hstep : step s = .next (startMrtest s) := by
    rw [step_command_nil ht hc (by simp [hp]), exec_mrtest_start hp]
  refine ⟨fun h => ?_, fun h hr => ?_, fun h hr he => ?_, fun e d hn hr ho hsplit hd => ?_⟩
  · rw [hstep, startMrtest_precondition h]
  · rw [hstep, startMrtest_of_opm_eq_two h hr]
  · rw [hstep, startMrtest_of_even h hr he]
  · obtain ⟨t, ⟨k, hk⟩, hend⟩ := reaches_end_of_mrtest ht hc hp hn hr ho hsplit hd
    revert hend
    cases runRounds s.opm e d s.rounds.toNat 0 s.offers with
    | passed rest =>
      rintro rfl
      rw [BitVec.ofNat_toNat, BitVec.setWidth_eq] at hk
      exact ⟨k, hk⟩
    | failed j rest =>
      rintro rfl
      exact ⟨k, hk⟩
    | waiting => exact fun hend => ⟨k, t, hk, hend⟩

end Sys2Proof.Machine
end

section
/-! R170's recursion as number theory (spec/43_euclid.md R170, R175): its divisor, its identity, and the inverse that its first
coefficient is. The inductions follow `Nat.gcd.induction`, the recursion's own pattern. -/

namespace Sys2Proof.Machine

variable {a m : Nat}

theorem egcd_fst_eq_gcd (a b : Nat) : (egcd a b).1 = Nat.gcd a b := by
  induction a, b using Nat.gcd.induction with
  | H0 b => rw [egcd_zero, Nat.gcd_zero_left]
  | H1 a b ha ih => rw [egcd_pos a b ha, ih, ← Nat.gcd_rec]

/-- Bezout's identity (spec/43_euclid.md R170). -/
theorem egcd_bezout (a b : Nat) :
    (a : Int) * (egcd a b).2.1 + (b : Int) * (egcd a b).2.2 = ((egcd a b).1 : Int) := by
  induction a, b using Nat.gcd.induction with
  | H0 b => simp [egcd_zero]
  | H1 a b ha ih =>
    have hdm : ((b % a : Nat) : Int) + (a : Int) * (b / a : Nat) = b := by exact_mod_cast Nat.mod_add_div b a
    rw [egcd_pos a b ha]
    calc (a : Int) * ((egcd (b % a) a).2.2 - (b / a : Nat) * (egcd (b % a) a).2.1) + b * (egcd (b % a) a).2.1
        = (b - a * (b / a : Nat)) * (egcd (b % a) a).2.1 + a * (egcd (b % a) a).2.2 := by ring
      _ = ((b % a : Nat) : Int) * (egcd (b % a) a).2.1 + a * (egcd (b % a) a).2.2 := by
        rw [← eq_sub_of_add_eq hdm]
      _ = ((egcd (b % a) a).1 : Int) := ih

theorem modInt_lt (x : Int) (hm : 1 ≤ m) : modInt x m < m := by
  have hlt : x % (m : Int) < m := Int.emod_lt_of_pos x (by omega)
  rw [← modInt_pos x m hm] at hlt
  exact_mod_cast hlt

/-- The first coefficient, reduced, is an inverse of `a` (spec/43_euclid.md R175): Bezout's identity modulo `m`. -/
theorem mul_modInt_egcd_modEq_one (hm : 1 ≤ m) (hg : Nat.gcd a m = 1) : a * modInt (egcd a m).2.1 m ≡ 1 [MOD m] := by
  have hone : (a : Int) * (egcd a m).2.1 + m * (egcd a m).2.2 = 1 := by
    rw [egcd_bezout, egcd_fst_eq_gcd, hg, Nat.cast_one]
  rw [← Int.natCast_modEq_iff]
  push_cast
  rw [modInt_pos _ m hm]
  calc (a : Int) * ((egcd a m).2.1 % m)
      ≡ a * (egcd a m).2.1 [ZMOD m] := (Int.mod_modEq _ _).mul_left _
    _ ≡ a * (egcd a m).2.1 + m * (egcd a m).2.2 [ZMOD m] := Int.modEq_iff_add_fac.mpr ⟨_, rfl⟩
    _ = 1 := hone

/-- An inverse in `[0, m)` is the only one (spec/43_euclid.md R175). -/
theorem inverse_unique {x y : Nat} (hg : Nat.gcd a m = 1) (hx : x < m) (hy : y < m) (hax : a * x ≡ 1 [MOD m])
    (hay : a * y ≡ 1 [MOD m]) : y = x :=
  ((hay.trans hax.symm).cancel_left_of_coprime (by rwa [Nat.gcd_comm])).eq_of_lt_of_lt hy hx

end Sys2Proof.Machine
end

section
/-! EGCD, MODINV, GCD (spec/43_euclid.md): each phase's micro-step as an equation per arm. -/

namespace Sys2Proof.Machine

theorem exec_egcd_start {s : State} (h : s.pc = .start) : exec .egcd s = .next (startEgcd s) := by
  simp [exec, execEgcd, h]

theorem exec_egcd_euDoneEgcd {s : State} (h : s.pc = .euDoneEgcd) : exec .egcd s = .next (euDoneEgcd s) := by
  simp [exec, execEgcd, h]

theorem exec_modinv_start {s : State} (h : s.pc = .start) : exec .modinv s = .next (startModinv s) := by
  simp [exec, execModinv, h]

theorem exec_modinv_euDoneInv {s : State} (h : s.pc = .euDoneInv) : exec .modinv s = .next (euDoneInv s) := by
  simp [exec, execModinv, h]

theorem exec_gcd_start {s : State} (h : s.pc = .start) : exec .gcd s = .next (startGcd s) := by
  simp [exec, execGcd, h]

theorem exec_gcd_euDoneGcd {s : State} (h : s.pc = .euDoneGcd) : exec .gcd s = .next (euDoneGcd s) := by
  simp [exec, execGcd, h]

/-- EU_LOOP is one micro-step, shared by the three commands (spec/43_euclid.md R172). -/
theorem exec_euLoop {i : Instr} {s : State} (hi : i = .egcd ∨ i = .modinv ∨ i = .gcd) (h : s.pc = .euLoop) :
    exec i s = euLoop s := by
  rcases hi with rfl | rfl | rfl
  · simp [exec, execEgcd, h]
  · simp [exec, execModinv, h]
  · simp [exec, execGcd, h]

theorem startModinv_of_opm_eq_zero {s : State} (h : s.opm = 0) : startModinv s = completeErr s .precondition :=
  if_pos h

theorem startModinv_of_opm_ne_zero {s : State} (h : s.opm ≠ 0) :
    startModinv s = { s with work := { euclidStart s.work s.opa s.opm with tM := s.opm }, pc := .euLoop } :=
  if_neg h

theorem euLoop_of_eA_ne_zero {s : State} (h : s.work.eA ≠ 0) :
    euLoop s = .next { s with work := euclidDivide s.work } :=
  if_neg h

theorem euLoop_of_eA_eq_zero {s : State} {p : Phase} (h : s.work.eA = 0) (hdone : euclidDone s.lastcmd = some p) :
    euLoop s = .next { s with pc := p } := by
  rw [euLoop, if_pos h, hdone]

theorem euDoneInv_of_eB_ne_one {s : State} (h : s.work.eB ≠ 1) : euDoneInv s = completeErr s .noInverse :=
  if_pos h

theorem euDoneInv_of_eB_eq_one {s : State} (h : s.work.eB = 1) :
    euDoneInv s = completeOk s { res := modInt s.work.uB s.work.tM } :=
  if_neg (not_not.mpr h)

/-- Settles O42: EGCD's arm of START is `startEgcd`, which sets these registers and no other. -/
theorem egcdStart : Obligations.EgcdStart :=
  fun _ hp => exec_egcd_start hp

/-- Settles O44: the micro-step is `euDoneEgcd`; 0 is not negative. -/
theorem egcdDone : Obligations.EgcdDone := by
  refine fun s hp => ⟨exec_egcd_euDoneEgcd hp, fun hu => ?_, fun hv => ?_⟩
  · simp [hu]
  · simp [hv]

/-- Settles O47: MODINV's arm of START on a zero and on a nonzero modulus. -/
theorem modinvStart : Obligations.ModinvStart := by
  refine fun s hp => ⟨fun hm => ?_, fun hm => ?_⟩
  · rw [exec_modinv_start hp, startModinv_of_opm_eq_zero hm]
  · rw [exec_modinv_start hp, startModinv_of_opm_ne_zero hm]
    rfl

end Sys2Proof.Machine
end

section
/-! EU_LOOP run to its end, and with it GCD and MODINV from START (spec/43_euclid.md R172, R174, R175, R178). -/

namespace Sys2Proof.Machine

/-- How the loop ends on registers that hold `k`, by R170's recursion on `k`'s own pair: the recursion's coefficients combine
`k`'s two columns into the one the loop delivers (spec/43_euclid.md R174). -/
structure EuclidEnd (k k' : Working) : Prop where
  modulus : k'.tM = k.tM
  divisor : k'.eB = (egcd k.eA k.eB).1
  coeffU : k'.uB = k.uA * (egcd k.eA k.eB).2.1 + k.uB * (egcd k.eA k.eB).2.2
  coeffV : k'.vB = k.vA * (egcd k.eA k.eB).2.1 + k.vB * (egcd k.eA k.eB).2.2

theorem EuclidEnd.of_eA_eq_zero {k : Working} (h : k.eA = 0) : EuclidEnd k k := by
  constructor <;> simp [h, egcd_zero]

/-- A division is one unfolding of the recursion, so it does not change how the loop ends. -/
theorem EuclidEnd.of_divide {k k' : Working} (hA : k.eA ≠ 0) (h : EuclidEnd (euclidDivide k) k') : EuclidEnd k k' := by
  have hrec := egcd_pos k.eA k.eB (Nat.pos_of_ne_zero hA)
  refine ⟨h.modulus, ?_, ?_, ?_⟩
  · rw [h.divisor, hrec]
    rfl
  · rw [h.coeffU, hrec]
    simp only [euclidDivide]
    ring
  · rw [h.coeffV, hrec]
    simp only [euclidDivide]
    ring

/-- On the registers START sets, the columns are the unit vectors and the loop ends with the recursion's own values. -/
theorem EuclidEnd.values_of_start {k k' : Working} {a b : Nat} (h : EuclidEnd (euclidStart k a b) k') :
    k'.eB = (egcd a b).1 ∧ k'.uB = (egcd a b).2.1 ∧ k'.vB = (egcd a b).2.2 := by
  refine ⟨h.divisor, ?_, ?_⟩
  · simp [h.coeffU, euclidStart]
  · simp [h.coeffV, euclidStart]

/-- A micro-step of a command, with no turn listed, as the first of a run. -/
theorem Reaches.command {i : Instr} {s t : State} (ht : s.turns = []) (hc : s.lastcmd = encode i)
    (h : exec i s = .next t) : Reaches s t :=
  ⟨1, run_one ((step_command_nil ht hc (pc_ne_idle_of_exec h)).trans h)⟩

/-- EU_LOOP comes to the command's last phase: by induction on `E_A`, which every division lowers. -/
theorem reaches_euclid_end {i : Instr} {p : Phase} {s : State} (hi : i = .egcd ∨ i = .modinv ∨ i = .gcd)
    (ht : s.turns = []) (hc : s.lastcmd = encode i) (hdone : euclidDone (encode i) = some p) (hp : s.pc = .euLoop) :
    ∃ k, Reaches s { s with work := k, pc := p } ∧ EuclidEnd s.work k := by
  induction hA : s.work.eA using Nat.strong_induction_on generalizing s with
  | _ a ih =>
    have hexec := exec_euLoop hi hp
    by_cases h0 : s.work.eA = 0
    · rw [euLoop_of_eA_eq_zero h0 (hc ▸ hdone)] at hexec
      exact ⟨s.work, .command ht hc hexec, .of_eA_eq_zero h0⟩
    · rw [euLoop_of_eA_ne_zero h0] at hexec
      have hlt : s.work.eB % s.work.eA < a := hA ▸ Nat.mod_lt _ (Nat.pos_of_ne_zero h0)
      obtain ⟨k, hk, hend⟩ := ih _ hlt (s := { s with work := euclidDivide s.work }) ht hc hp rfl
      exact ⟨k, (Reaches.command ht hc hexec).trans hk, hend.of_divide h0⟩

/-- GCD from START: the last phase delivers `E_B`, the divisor of the recursion on the operands. -/
theorem reaches_end_of_gcd {s : State} (ht : s.turns = []) (hc : s.lastcmd = encode .gcd) (hp : s.pc = .start) :
    Reaches s (completeOk s { res := Nat.gcd s.opa s.opb }) := by
  obtain ⟨k, hk, hend⟩ := reaches_euclid_end (s := startGcd s) (.inr (.inr rfl)) ht hc rfl rfl
  obtain ⟨hdivisor, -, -⟩ := hend.values_of_start
  have hdone := exec_gcd_euDoneGcd (s := { startGcd s with work := k, pc := .euDoneGcd }) rfl
  rw [← egcd_fst_eq_gcd, ← hdivisor]
  exact ((Reaches.command ht hc (exec_gcd_start hp)).trans hk).trans (.command ht hc hdone)

/-- Settles O51: `reaches_end_of_gcd`, whatever the operands. -/
theorem gcdComputesDivisor : Obligations.GcdComputesDivisor :=
  fun _ hp hc ht => reaches_end_of_gcd ht hc hp

/-- MODINV from START gets to its last phase with the divisor, the first coefficient and the modulus it needs there. -/
theorem reaches_euDoneInv {s : State} (ht : s.turns = []) (hc : s.lastcmd = encode .modinv) (hp : s.pc = .start)
    (hm : s.opm ≠ 0) :
    ∃ k, Reaches s { s with work := k, pc := .euDoneInv } ∧ k.eB = Nat.gcd s.opa s.opm ∧
      k.uB = (egcd s.opa s.opm).2.1 ∧ k.tM = s.opm := by
  have hstart := exec_modinv_start hp
  rw [startModinv_of_opm_ne_zero hm] at hstart
  obtain ⟨k, hk, hend⟩ := reaches_euclid_end (s := { s with
    work := { euclidStart s.work s.opa s.opm with tM := s.opm }, pc := .euLoop }) (.inr (.inl rfl)) ht hc rfl rfl
  obtain ⟨hdivisor, hcoeff, -⟩ := EuclidEnd.values_of_start (k := { s.work with tM := s.opm }) hend
  exact ⟨k, (Reaches.command ht hc hstart).trans hk, hdivisor.trans (egcd_fst_eq_gcd _ _), hcoeff, hend.modulus⟩

theorem reaches_noInverse {s : State} (ht : s.turns = []) (hc : s.lastcmd = encode .modinv) (hp : s.pc = .start)
    (hm : s.opm ≠ 0) (hg : Nat.gcd s.opa s.opm ≠ 1) : Reaches s (completeErr s .noInverse) := by
  obtain ⟨k, hk, hdivisor, -, -⟩ := reaches_euDoneInv ht hc hp hm
  have hdone := exec_modinv_euDoneInv (s := { s with work := k, pc := .euDoneInv }) rfl
  rw [euDoneInv_of_eB_ne_one (hdivisor ▸ hg)] at hdone
  exact hk.trans (.command ht hc hdone)

theorem reaches_inverse {s : State} (ht : s.turns = []) (hc : s.lastcmd = encode .modinv) (hp : s.pc = .start)
    (hm : s.opm ≠ 0) (hg : Nat.gcd s.opa s.opm = 1) :
    Reaches s (completeOk s { res := modInt (egcd s.opa s.opm).2.1 s.opm }) := by
  obtain ⟨k, hk, hdivisor, hcoeff, hmodulus⟩ := reaches_euDoneInv ht hc hp hm
  have hdone := exec_modinv_euDoneInv (s := { s with work := k, pc := .euDoneInv }) rfl
  rw [euDoneInv_of_eB_eq_one (hdivisor.trans hg)] at hdone
  rw [← hcoeff, ← hmodulus]
  exact hk.trans (.command ht hc hdone)

/-- Settles O49: the runs above, and the reduced coefficient as the one inverse in `[0, OPM)`. -/
theorem modinvFindsInverse : Obligations.ModinvFindsInverse := by
  intro s hp (hc : s.lastcmd = encode .modinv) ht
  refine ⟨fun hm => ?_, fun hm => ?_⟩
  · rw [step_command_nil ht hc (by simp [hp]), exec_modinv_start hp, startModinv_of_opm_eq_zero hm]
  · have hm1 : 1 ≤ s.opm := Nat.pos_of_ne_zero hm
    by_cases hg : Nat.gcd s.opa s.opm = 1
    · obtain ⟨k, hk⟩ := reaches_inverse ht hc hp hm hg
      have hlt := modInt_lt (egcd s.opa s.opm).2.1 hm1
      have hinv := mul_modInt_egcd_modEq_one hm1 hg
      exact ⟨k, fun hne => absurd hg hne, fun _ => ⟨_, hlt, hinv,
        fun y hy hay => inverse_unique hg hlt hy hinv hay, modInt_pos _ _ hm1, hk⟩⟩
    · obtain ⟨k, hk⟩ := reaches_noInverse ht hc hp hm hg
      exact ⟨k, fun _ => hk, fun h => absurd h hg⟩

end Sys2Proof.Machine
end

section
/-! Bus errors (spec/60_exceptions.md R194): the address classes of R66 and R69 are the cases of the model's address map. -/

namespace Sys2Proof.Machine

theorem controlWord_eq_none_iff (i : Nat) : controlWord i = none ↔ 8 ≤ i := by
  match i with
  | 0 | 1 | 2 | 3 | 4 | 5 | 6 | 7 => decide
  | n + 8 => simp [controlWord]

theorem bankWord_eq_none_iff {b : Nat} (i : Nat) (hb : b ≠ 0) : bankWord b i = none ↔ 7 ≤ b := by
  match b with
  | 0 => contradiction
  | 1 | 2 | 3 | 4 | 5 | 6 => simp [bankWord]
  | n + 7 => simp [bankWord]

/-- The aligned addresses without a register word (spec/20_memory.md R69). -/
theorem regAt_eq_none_iff {nw : Nat} {a : Addr} (hmod : a.toNat % 4 = 0) :
    regAt nw a = none ↔ unmappedAddr nw a.toNat := by
  unfold regAt
  simp only
  split
  · rw [controlWord_eq_none_iff]
    omega
  · rename_i hbank
    split
    · rw [bankWord_eq_none_iff _ hbank]
      omega
    · simp only [true_iff]
      omega

theorem controlWord_readOnly_busyLocked_iff {i : Nat} {r : RegWord} (h : controlWord i = some r) :
    (r.readOnly = true ↔ readOnlyAddr (4 * i)) ∧ (r.busyLocked = true ↔ busyLockedAddr (4 * i)) := by
  unfold controlWord at h
  split at h <;> cases h <;> decide

theorem bankWord_readOnly_busyLocked_iff {b i : Nat} {r : RegWord} (h : bankWord b i = some r) (hi : i < 1024) :
    (r.readOnly = true ↔ readOnlyAddr (b * 0x1000 + 4 * i)) ∧
      (r.busyLocked = true ↔ busyLockedAddr (b * 0x1000 + 4 * i)) := by
  unfold bankWord at h
  split at h <;> cases h <;> simp only [RegWord.readOnly, RegWord.busyLocked, Bool.false_eq_true,
    false_iff, true_iff] <;> omega

/-- A word is read-only, or locked while a command runs, exactly as its address says (spec/20_memory.md R66, R70, R71). -/
theorem regAt_readOnly_busyLocked_iff {nw : Nat} {a : Addr} {r : RegWord} (hn : nw ≤ 1024) (ha : aligned a = true)
    (h : regAt nw a = some r) :
    (r.readOnly = true ↔ readOnlyAddr a.toNat) ∧ (r.busyLocked = true ↔ busyLockedAddr a.toNat) := by
  rcases regAt_some_cases ha h with ⟨i, rfl, hw⟩ | ⟨b, i, hi, rfl, hw⟩
  · have hi : i < 8 := by
      by_contra hge
      simp [(controlWord_eq_none_iff i).2 (by omega)] at hw
    rw [BitVec.toNat_ofNat, Nat.mod_eq_of_lt (by omega)]
    exact controlWord_readOnly_busyLocked_iff hw
  · have hb : b ≤ 7 := by
      by_contra hge
      simp [(bankWord_eq_none_iff i (by omega : b ≠ 0)).2 (by omega)] at hw
    rw [bankAddr_toNat b i hb (by omega)]
    exact bankWord_readOnly_busyLocked_iff hw (by omega)

/-- A read is refused where the address is misaligned or unmapped (spec/20_memory.md R67). -/
theorem busRead_eq_err_iff (s : State) (a : Addr) :
    busRead s a = .err ↔ a.toNat % 4 ≠ 0 ∨ unmappedAddr s.nw a.toNat := by
  by_cases hmod : a.toNat % 4 = 0
  · rw [← regAt_eq_none_iff hmod]
    cases hreg : regAt s.nw a <;> simp [busRead, aligned, hmod, hreg]
  · simp [busRead, aligned, hmod]

/-- A write has no target in exactly four cases (spec/20_memory.md R66). -/
theorem writeTarget_eq_none_iff (s : State) (a : Addr) :
    writeTarget s a = none ↔ a.toNat % 4 ≠ 0 ∨ unmappedAddr s.nw a.toNat ∨ readOnlyAddr a.toNat ∨
      (s.busy = true ∧ busyLockedAddr a.toNat) := by
  by_cases hmod : a.toNat % 4 = 0
  · have ha : aligned a = true := by simp [aligned, hmod]
    rw [← regAt_eq_none_iff hmod]
    cases hreg : regAt s.nw a with
    | none => simp [writeTarget, ha, hreg]
    | some r =>
      obtain ⟨hro, hlock⟩ := regAt_readOnly_busyLocked_iff (nw_le s) ha hreg
      rw [← hro, ← hlock]
      cases hr : r.readOnly <;> simp [writeTarget, ha, hreg, hmod, hr]
  · simp [writeTarget, aligned, hmod]

theorem busWriteAnswer_eq_err_iff (s : State) (a : Addr) : busWriteAnswer s a = .err ↔ writeTarget s a = none := by
  unfold busWriteAnswer
  cases writeTarget s a <;> simp

/-- Settles O12: the refused reads and writes by the address classes; a refused write has no target, so it changes nothing. -/
theorem busErrorsExactly : Obligations.BusErrorsExactly := by
  refine fun s a v => ⟨busRead_eq_err_iff s a, ?_, fun hne => ?_, fun herr => ?_, rfl⟩
  · exact (busWriteAnswer_eq_err_iff s a).trans (writeTarget_eq_none_iff s a)
  · rcases busWrite_cases s a v with ⟨-, -, herr⟩ | ⟨r, -, -, hok⟩
    · exact absurd herr hne
    · exact hok
  · exact hostWrite_refused v ((busWriteAnswer_eq_err_iff s a).1 herr)

end Sys2Proof.Machine
end

section
/-! The interrupt line (spec/60_exceptions.md R197). -/

namespace Sys2Proof.Machine

theorem irq_eq_or (s : State) :
    s.irq = ((s.irqStat.getLsbD 0 && s.irqEn.getLsbD 0) || (s.irqStat.getLsbD 1 && s.irqEn.getLsbD 1)) := by
  unfold State.irq
  generalize s.irqStat = p
  generalize s.irqEn = e
  revert p e
  decide

/-- An enable written while its bit is pending raises `irq` at once (spec/60_exceptions.md R197). -/
theorem irq_of_hostWrite_irqEn {s : State} {v : Word} {j : Nat} (hpend : s.irqStat.getLsbD j = true)
    (hv : v.getLsbD j = true) : (hostWrite s 0x0014 v).irq = true := by
  have hj : j < 2 := BitVec.lt_of_getLsbD hpend
  rw [hostWrite_target v (writeTarget_irqEn s)]
  refine irq_of_pending (j := j) ?_ hpend
  simp [writeReg, hj, hv]

/-- A write to IRQ_STAT clears only the bits it writes as 1 (spec/10_state.md R39). -/
theorem written_of_irqStat_cleared {s : State} {v : Word} {j : Nat} (hset : s.irqStat.getLsbD j = true)
    (hclear : (hostWrite s 0x0018 v).irqStat.getLsbD j = false) : v.getLsbD j = true := by
  have hbit := clearWritten_bit s.irqStat v (BitVec.lt_of_getLsbD hset)
  rw [hostWrite_target v (writeTarget_irqStat s)] at hclear
  simpa [hset] using hbit.symm.trans hclear

/-- Settles O17: the completions by the field laws of their bits; of the steps, `step_irqStat` leaves reset and the write to
IRQ_STAT, which clears by its 1 bits alone. -/
theorem interruptLineAndPendingBits : Obligations.InterruptLineAndPendingBits := by
  refine ⟨irq_eq_or, fun s r e => ?_, fun s v j => irq_of_hostWrite_irqEn, fun s t j hstep hset hclear => ?_⟩
  · simp
  · rcases step_irqStat hstep with hsticky | hreset | ⟨v, ts, ht⟩
    · have hkept := congrArg (·.getLsbD j) hsticky
      simp [hset, hclear] at hkept
    · exact .inl hreset
    · obtain rfl : hostWrite { s with turns := ts } 0x0018 v = t := by
        simpa [step_write s _ v ts ht] using hstep
      exact .inr ⟨v, ts, ht, written_of_irqStat_cleared (s := { s with turns := ts }) hset hclear⟩

end Sys2Proof.Machine
end

section
/-! Primes and the rounds of MRTEST (spec/42_miller_rabin.md R157 (c), (g)): Fermat's little theorem and the square
roots of 1 modulo a prime let every witness pass its round. -/

namespace Sys2Proof.Machine

variable {n e d : Nat}

theorem cast_squares (hn : 1 ≤ n) (x i : Nat) : (squares n x i : ZMod n) = (x : ZMod n) ^ 2 ^ i := by
  induction i with
  | zero => simp [squares]
  | succ i ih => rw [squares, mulmod_pos _ _ _ hn, ZMod.natCast_mod, Nat.cast_mul, ih, ← sq, ← pow_mul, ← pow_succ]

theorem squares_lt {x : Nat} (hx : x < n) (i : Nat) : squares n x i < n := by
  cases i with
  | zero => exact hx
  | succ i => exact mulmod_lt _ _ _ (by omega)

/-- Where 1 has no square roots but 1 and -1, repeated squaring that ends in 1 begins with 1 or meets -1 on the way. -/
theorem eq_one_or_neg_one_of_squarings {R : Type} [CommRing R] [NoZeroDivisors R] {x : R} (h : x ^ 2 ^ e = 1) :
    x = 1 ∨ ∃ i < e, x ^ 2 ^ i = -1 := by
  induction e with
  | zero => exact .inl (by simpa using h)
  | succ e ih =>
    rw [pow_succ, pow_mul, sq, mul_self_eq_one_iff] at h
    rcases h with h | h
    · exact (ih h).imp_right fun ⟨i, hi, hx⟩ => ⟨i, by omega, hx⟩
    · exact .inr ⟨e, by omega, h⟩

/-- A prime passes every round (spec/42_miller_rabin.md R157 (g)): `x_e` would be `a ^ (n - 1) = 1`. -/
theorem roundPasses_of_prime (hn : n.Prime) (hsplit : n - 1 = 2 ^ e * d) {a : Nat} (ha : 1 ≤ a) (han : a < n) :
    roundPasses n e d a = true := by
  have := Fact.mk hn
  have hone : 1 < n := hn.one_lt
  have hne : (a : ZMod n) ≠ 0 := by
    rw [Ne, ZMod.natCast_eq_zero_iff]
    exact Nat.not_dvd_of_pos_of_lt ha han
  have hfermat : ((a : ZMod n) ^ d) ^ 2 ^ e = 1 := by
    rw [← pow_mul, mul_comm, ← hsplit, ZMod.pow_card_sub_one_eq_one hne]
  rw [roundPasses_iff hone.le]
  refine (eq_one_or_neg_one_of_squarings hfermat).imp (fun h => ?_) fun ⟨i, hi, h⟩ => ⟨i, hi, ?_⟩
  · have hmod : a ^ d ≡ 1 [MOD n] := (ZMod.natCast_eq_natCast_iff _ _ _).mp (by exact_mod_cast h)
    rw [hmod, Nat.mod_eq_of_lt hone]
  · have hlt := squares_lt (Nat.mod_lt (a ^ d) (by omega : 0 < n)) i
    have hzero : ((squares n (a ^ d % n) i + 1 : Nat) : ZMod n) = 0 := by
      rw [Nat.cast_succ, cast_squares hone.le, ZMod.natCast_mod, Nat.cast_pow, h, neg_add_cancel]
    have hle := Nat.le_of_dvd (Nat.succ_pos _) ((ZMod.natCast_eq_zero_iff _ _).mp hzero)
    omega

/-- Where every witness passes, the rounds take their words and no more (spec/42_miller_rabin.md R150). -/
theorem runRounds_of_all_pass (h : ∀ r, roundPasses n e d (witness n r) = true) (k j : Nat) (ws : List Nat)
    (hk : k ≤ ws.length) : runRounds n e d k j ws = .passed (ws.drop k) := by
  induction k generalizing j ws with
  | zero => rfl
  | succ k ih =>
    cases ws with
    | nil => simp at hk
    | cons r ws => rw [runRounds, if_pos (h r), ih _ _ (by simpa using hk), List.drop_succ_cons]

/-- Settles O39: 2 is accepted in START; an odd prime passes every round, by `roundPasses_of_prime`. -/
theorem mrtestAcceptsEveryPrime : Obligations.MrtestAcceptsEveryPrime := by
  intro s hp hc ht hprime hr hwords
  obtain ⟨-, htwo, -, hrounds⟩ := mrtestRunsRounds s hp hc ht
  split
  next h2 => exact ⟨1, run_one (htwo h2 hr)⟩
  next h2 =>
    have hodd : s.opm % 2 = 1 := hprime.eq_two_or_odd.resolve_left h2
    have hlarge : 2 < s.opm := lt_of_le_of_ne hprime.two_le (Ne.symm h2)
    obtain ⟨hsplit, hd⟩ := decomposition_spec s.opm hprime.two_le
    have hpass : ∀ r, roundPasses s.opm (decomposition s.opm).1 (decomposition s.opm).2 (witness s.opm r) = true := by
      intro r
      obtain ⟨hlow, hhigh⟩ := witness_range s.opm r hlarge
      exact roundPasses_of_prime hprime hsplit.symm (by omega) hhigh
    have hrun := hrounds _ _ hlarge hr hodd hsplit.symm hd
    rwa [runRounds_of_all_pass hpass _ _ _ hwords] at hrun

end Sys2Proof.Machine
end

section
/-! EGCD from START (spec/43_euclid.md R170, R173), and the number of steps the three Euclid commands take
(spec/40_common.md R122). -/

namespace Sys2Proof.Machine

/-- EGCD from START: the loop ends with the recursion's own values, which the last phase delivers in sign and
magnitude. -/
theorem reaches_end_of_egcd {s : State} (ht : s.turns = []) (hc : s.lastcmd = encode .egcd) (hp : s.pc = .start) :
    Reaches s (egcdCommand s) := by
  obtain ⟨k, hk, hend⟩ := reaches_euclid_end (s := startEgcd s) (.inl rfl) ht hc rfl rfl
  obtain ⟨hdivisor, hu, hv⟩ := hend.values_of_start
  have hdone := exec_egcd_euDoneEgcd (s := { startEgcd s with work := k, pc := .euDoneEgcd }) rfl
  have hvalue : euDoneEgcd { startEgcd s with work := k, pc := .euDoneEgcd } = egcdCommand s := by
    simp only [euDoneEgcd, hdivisor, hu, hv]
    rfl
  rw [hvalue] at hdone
  exact ((Reaches.command ht hc (exec_egcd_start hp)).trans hk).trans (.command ht hc hdone)

/-- Settles O46: `egcdCommand` is the completion with the recursion's values. -/
theorem egcdDeliversRecursion : Obligations.EgcdDeliversRecursion :=
  fun _ hp hc ht => reaches_end_of_egcd ht hc hp

/-- Two divisions halve `E_A` (spec/40_common.md R122): the second takes the remainder by a divisor below `E_A`. -/
theorem eA_divide_twice_le (k : Working) (hA : k.eA ≠ 0) (h : (euclidDivide k).eA ≠ 0) :
    2 * (euclidDivide (euclidDivide k)).eA ≤ k.eA := by
  have hlt : (euclidDivide k).eA < k.eA := Nat.mod_lt k.eB (Nat.pos_of_ne_zero hA)
  have hmod : k.eA % (euclidDivide k).eA < (euclidDivide k).eA := Nat.mod_lt k.eA (Nat.pos_of_ne_zero h)
  have hquot : 0 < k.eA / (euclidDivide k).eA := Nat.div_pos hlt.le (Nat.pos_of_ne_zero h)
  have hdm := Nat.div_add_mod k.eA (euclidDivide k).eA
  have := Nat.le_mul_of_pos_right (euclidDivide k).eA hquot
  show 2 * (k.eA % (euclidDivide k).eA) ≤ k.eA
  omega

theorem step_euLoop {i : Instr} {s : State} (hi : i = .egcd ∨ i = .modinv ∨ i = .gcd) (ht : s.turns = [])
    (hc : s.lastcmd = encode i) (hp : s.pc = .euLoop) : step s = euLoop s := by
  rw [step_command_nil ht hc (by simp [hp]), exec_euLoop hi hp]

/-- EU_LOOP is left after at most `2 w + 1` micro-steps where `E_A` has at most `w` bits (spec/40_common.md R122). -/
theorem run_euLoop_le {i : Instr} {p : Phase} (w : Nat) {s : State} (hi : i = .egcd ∨ i = .modinv ∨ i = .gcd)
    (ht : s.turns = []) (hc : s.lastcmd = encode i) (hdone : euclidDone (encode i) = some p) (hp : s.pc = .euLoop)
    (hA : s.work.eA < 2 ^ w) :
    ∃ n k, n ≤ 2 * w + 1 ∧ run n s = .next { s with work := k, pc := p } := by
  have hleave : ∀ k : Working, k.eA = 0 → step { s with work := k } = .next { s with work := k, pc := p } :=
    fun k h0 => (step_euLoop (s := { s with work := k }) hi ht hc hp).trans (euLoop_of_eA_eq_zero h0 (hc ▸ hdone))
  have hdivide : ∀ k : Working, k.eA ≠ 0 → step { s with work := k } = .next { s with work := euclidDivide k } :=
    fun k hk => (step_euLoop (s := { s with work := k }) hi ht hc hp).trans (euLoop_of_eA_ne_zero hk)
  induction w generalizing s with
  | zero => exact ⟨1, s.work, by omega, run_one (hleave s.work (by simpa using hA))⟩
  | succ w ih =>
    by_cases h0 : s.work.eA = 0
    · exact ⟨1, s.work, by omega, run_one (hleave s.work h0)⟩
    by_cases h1 : (euclidDivide s.work).eA = 0
    · exact ⟨2, euclidDivide s.work, by omega, (run_succ_next 1 (hdivide _ h0)).trans (run_one (hleave _ h1))⟩
    · have hhalf := eA_divide_twice_le s.work h0 h1
      obtain ⟨n, k, hn, hrun⟩ := ih (s := { s with work := euclidDivide (euclidDivide s.work) }) ht hc hp
        (by rw [pow_succ] at hA; simp only; omega) hleave hdivide
      exact ⟨n + 2, k, by omega, (run_succ_next (n + 1) (hdivide _ h0)).trans
        ((run_succ_next n (hdivide _ h1)).trans hrun)⟩

/-- The block after a completion (spec/40_common.md R113, R114). -/
def Completed (t : State) : Prop :=
  t.pc = .idle ∧ t.busy = false ∧ t.done = true

theorem completeOk_completed (s : State) (r : Result) : Completed (completeOk s r) :=
  ⟨rfl, rfl, rfl⟩

theorem completeErr_completed (s : State) (e : CmdError) : Completed (completeErr s e) :=
  ⟨rfl, rfl, rfl⟩

theorem euDoneInv_completed (s : State) : Completed (euDoneInv s) := by
  unfold euDoneInv
  split
  · exact completeErr_completed _ _
  · exact completeOk_completed _ _

/-- From EU_LOOP on, the loop and the last phase take at most `2 W + 2` micro-steps. -/
theorem run_euclid_completes {i : Instr} {s : State} (hi : i = .egcd ∨ i = .modinv ∨ i = .gcd) (ht : s.turns = [])
    (hc : s.lastcmd = encode i) (hp : s.pc = .euLoop) (w : Nat) (hA : s.work.eA < 2 ^ w) :
    ∃ n t, n ≤ 2 * w + 2 ∧ run n s = .next t ∧ Completed t := by
  obtain ⟨p, hdone, hlast⟩ : ∃ p, euclidDone (encode i) = some p ∧
      ∀ u : State, u.pc = p → ∃ t, exec i u = .next t ∧ Completed t := by
    rcases hi with rfl | rfl | rfl
    · exact ⟨.euDoneEgcd, rfl, fun u hu => ⟨_, exec_egcd_euDoneEgcd hu, completeOk_completed _ _⟩⟩
    · exact ⟨.euDoneInv, rfl, fun u hu => ⟨_, exec_modinv_euDoneInv hu, euDoneInv_completed u⟩⟩
    · exact ⟨.euDoneGcd, rfl, fun u hu => ⟨_, exec_gcd_euDoneGcd hu, completeOk_completed _ _⟩⟩
  obtain ⟨n, k, hn, hrun⟩ := run_euLoop_le w hi ht hc hdone hp hA
  obtain ⟨t, hexec, hcompleted⟩ := hlast { s with work := k, pc := p } rfl
  have hstep := (step_command_nil (s := { s with work := k, pc := p }) ht hc (pc_ne_idle_of_exec hexec)).trans hexec
  exact ⟨n + 1, t, by omega, (run_add n 1 hrun).trans (run_one hstep), hcompleted⟩

/-- START's arm of a Euclid command, as far as the bound needs it: completion, or EU_LOOP with `OPA` in `E_A`. -/
theorem exec_euclid_start {i : Instr} {s : State} (hi : i = .egcd ∨ i = .modinv ∨ i = .gcd) (hp : s.pc = .start) :
    (∃ t, exec i s = .next t ∧ Completed t) ∨
      ∃ k : Working, exec i s = .next { s with work := k, pc := .euLoop } ∧ k.eA = s.opa := by
  rcases hi with rfl | rfl | rfl
  · exact .inr ⟨_, exec_egcd_start hp, rfl⟩
  · rw [exec_modinv_start hp]
    by_cases hm : s.opm = 0
    · rw [startModinv_of_opm_eq_zero hm]
      exact .inl ⟨_, rfl, completeErr_completed _ _⟩
    · rw [startModinv_of_opm_ne_zero hm]
      exact .inr ⟨_, rfl, rfl⟩
  · exact .inr ⟨_, exec_gcd_start hp, rfl⟩

/-- Settles O52: START, then at most `2 W + 2` micro-steps, `E_A` being `OPA`. -/
theorem euclidStepBound : Obligations.EuclidStepBound := by
  intro i s hi hp hc ht ha _ _
  have hstep := step_command_nil ht hc (by simp [hp])
  rcases exec_euclid_start hi hp with ⟨t, hexec, hcompleted⟩ | ⟨k, hexec, hA⟩
  · exact ⟨1, t, by omega, run_one (hstep.trans hexec), hcompleted⟩
  · obtain ⟨n, t, hn, hrun, hcompleted⟩ := run_euclid_completes (s := { s with work := k, pc := .euLoop }) hi ht hc rfl
      s.width (by simpa [hA] using ha)
    exact ⟨n + 1, t, by omega, (run_succ_next n (hstep.trans hexec)).trans hrun, hcompleted⟩

end Sys2Proof.Machine
end

section
/-! The micro-steps against the command level (spec/00_scope.md R9). -/

namespace Sys2Proof.Machine

theorem reaches_modexpCommand {s : State} (ht : s.turns = []) (hc : s.lastcmd = encode .modexp) (hp : s.pc = .start) :
    Reaches s (modexpCommand s) := by
  obtain ⟨hzero, hpower⟩ := modexpComputesPower s hp hc ht
  unfold modexpCommand
  split
  next hm => exact ⟨1, run_one (hzero hm)⟩
  next hm => exact ⟨_, hpower hm⟩

/-- MRTEST's command level has a result where the words suffice; the micro-steps then come to it. -/
theorem reaches_mrtestCommand {s t : State} (ht : s.turns = []) (hc : s.lastcmd = encode .mrtest) (hp : s.pc = .start)
    (h : mrtestCommand s = some t) : Reaches s t := by
  obtain ⟨hpre, htwo, heven, hrounds⟩ := mrtestRunsRounds s hp hc ht
  unfold mrtestCommand at h
  split at h
  next h1 =>
    cases h
    exact ⟨1, run_one (hpre h1)⟩
  next h1 =>
  obtain ⟨hn, hr⟩ := not_or.mp h1
  split at h
  next h2 =>
    cases h
    exact ⟨1, run_one (htwo h2 hr)⟩
  next h2 =>
  have hlarge : 2 < s.opm := by omega
  split at h
  next h3 =>
    cases h
    exact ⟨1, run_one (heven hlarge hr h3)⟩
  next h3 =>
  obtain ⟨hsplit, hd⟩ := decomposition_spec s.opm hlarge.le
  have hrun := hrounds _ _ hlarge hr (by omega) hsplit.symm hd
  cases hend : runRounds s.opm (decomposition s.opm).1 (decomposition s.opm).2 s.rounds.toNat 0 s.offers with
  | passed rest =>
    rw [hend] at h hrun
    cases h
    exact hrun
  | failed j rest =>
    rw [hend] at h hrun
    cases h
    exact hrun
  | waiting => simp [hend] at h

theorem reaches_modinvCommand {s : State} (ht : s.turns = []) (hc : s.lastcmd = encode .modinv) (hp : s.pc = .start) :
    Reaches s (modinvCommand s) := by
  unfold modinvCommand
  split
  next hm =>
    refine .command ht hc ?_
    rw [exec_modinv_start hp, startModinv_of_opm_eq_zero hm]
  next hm =>
    have hg := egcd_fst_eq_gcd s.opa s.opm
    show Reaches s (if (egcd s.opa s.opm).1 ≠ 1 then _ else _)
    rw [hg]
    split
    next h1 => exact reaches_noInverse ht hc hp hm h1
    next h1 => exact reaches_inverse ht hc hp hm (not_not.mp h1)

/-- Settles O53: one run to the end per command. -/
theorem microStepsMatchCommandLevel : Obligations.MicroStepsMatchCommandLevel := by
  intro i s t hp hc ht h
  cases i with
  | modexp =>
    cases h
    exact reaches_modexpCommand ht hc hp
  | mrtest => exact reaches_mrtestCommand ht hc hp h
  | modinv =>
    cases h
    exact reaches_modinvCommand ht hc hp
  | egcd =>
    cases h
    exact reaches_end_of_egcd ht hc hp
  | gcd =>
    cases h
    exact reaches_end_of_gcd ht hc hp

end Sys2Proof.Machine
end

section
/-! The invariants where a step changes little (spec/10_state.md R46): the state at reset, the completions, and the
frames of a step inside a command, of the agents' turns, and of a host write on an idle block. -/

namespace Sys2Proof.Machine

variable {s t : State}

theorem Inv.busy_of_running (h : Inv s) (hp : s.pc ≠ .idle) : s.busy = true :=
  h.busy.busyIff.mpr hp

theorem Inv.pc_idle (h : Inv s) (hb : s.busy = false) : s.pc = .idle := by
  by_contra hp
  simp [h.busy_of_running hp] at hb

theorem workInv_of_idle (h : s.pc = .idle) : WorkInv s := by
  simp [WorkInv, h]

/-- Words that fit at reset fit in every register of a block that holds nothing else (spec/10_state.md R45). -/
theorem inv_of_reset (heq : t = { State.atReset t.size with
      work := t.work, freeCount := t.freeCount, turns := t.turns, offers := t.offers, answers := t.answers })
    (ho : ∀ r ∈ t.offers, r < 2 ^ t.width) (ht : ∀ r, Turn.offer r ∈ t.turns → r < 2 ^ t.width) : Inv t := by
  have h0 : 0 < 2 ^ t.width := Nat.two_pow_pos _
  have hidle : t.pc = .idle := by rw [heq]; rfl
  refine ⟨?_, ?_, ?_, .inl hidle, ?_, workInv_of_idle hidle⟩
  · rw [heq]
    constructor <;> simp
  · rw [heq]
    constructor <;> simp
  · rw [heq]
    constructor <;> simp
  · exact ⟨(congrArg State.opa heq).trans_lt h0, (congrArg State.opb heq).trans_lt h0,
      (congrArg State.opm heq).trans_lt h0, (congrArg State.res heq).trans_lt h0,
      (congrArg State.resx heq).trans_lt h0, (congrArg State.resy heq).trans_lt h0, ho, ht⟩

/-- Settles O54: nothing is on offer and no turn is listed. -/
theorem resetSatisfiesInvariants : Obligations.ResetSatisfiesInvariants :=
  fun n => inv_of_reset (t := State.atReset n) rfl (by simp) (by simp)

/-- The interrupt registers, the turns, the words on offer and the answers enter the invariants only by the size of
words. -/
theorem Inv.of_agents (h : Inv s) (heq : t = { s with
      irqEn := t.irqEn, irqStat := t.irqStat, turns := t.turns, offers := t.offers, answers := t.answers })
    (ho : ∀ r ∈ t.offers, r < 2 ^ s.width) (ht : ∀ r, Turn.offer r ∈ t.turns → r < 2 ^ s.width) : Inv t := by
  obtain ⟨⟨b1, b2, b3⟩, ⟨e1, e2, e3, e4⟩, ⟨f1, f2, f3⟩, hphase, ⟨w1, w2, w3, w4, w5, w6, -, -⟩, hwork⟩ := h
  rw [heq]
  exact ⟨⟨b1, b2, b3⟩, ⟨e1, e2, e3, e4⟩, ⟨f1, f2, f3⟩, hphase, ⟨w1, w2, w3, w4, w5, w6, ho, ht⟩, hwork⟩

/-- On an idle block the operands may take any value of the width (spec/20_memory.md R68). -/
theorem Inv.of_operands (h : Inv s) (hb : s.busy = false)
    (heq : t = { s with opa := t.opa, opb := t.opb, opm := t.opm, rounds := t.rounds })
    (ha : t.opa < 2 ^ s.width) (hb' : t.opb < 2 ^ s.width) (hm : t.opm < 2 ^ s.width) : Inv t := by
  have hidle := h.pc_idle hb
  obtain ⟨⟨b1, b2, b3⟩, ⟨e1, e2, e3, e4⟩, ⟨f1, f2, f3⟩, -, ⟨-, -, -, w4, w5, w6, w7, w8⟩, -⟩ := h
  rw [heq]
  exact ⟨⟨b1, b2, b3⟩, ⟨e1, e2, e3, e4⟩, ⟨f1, f2, f3⟩, .inl hidle, ⟨ha, hb', hm, w4, w5, w6, w7, w8⟩,
    workInv_of_idle hidle⟩

theorem Inv.accept (h : Inv s) (v : Word) : Inv (accept s v) := by
  obtain ⟨-, -, ⟨f1, f2, -⟩, -, ⟨w1, w2, w3, w4, w5, w6, w7, w8⟩, -⟩ := h
  refine ⟨?_, ?_, ⟨f1, f2, ?_⟩, .inr (.inl rfl), ⟨w1, w2, w3, w4, w5, w6, w7, w8⟩, trivial⟩
  · constructor <;> simp
  · constructor <;> simp
  · simp

theorem CmdError.code_ne_zero (e : CmdError) : e.code ≠ 0 := by
  cases e <;> decide

theorem CmdError.code_toNat_le (e : CmdError) : e.code.toNat ≤ 3 := by
  cases e <;> decide

theorem Inv.completeErr (h : Inv s) (e : CmdError) : Inv (completeErr s e) := by
  have h0 : 0 < 2 ^ s.width := Nat.two_pow_pos _
  obtain ⟨-, -, -, -, ⟨w1, w2, w3, -, -, -, w7, w8⟩, -⟩ := h
  refine ⟨?_, ⟨?_, e.code_toNat_le, ?_, ?_⟩, ?_, .inl rfl, ⟨w1, w2, w3, h0, h0, h0, w7, w8⟩, trivial⟩
  · constructor <;> simp
  · exact ⟨fun _ => e.code_ne_zero, fun _ => rfl⟩
  · simp
  · simp
  · constructor <;> simp

/-- A success completion keeps the invariants where its results fit, its signs are those of nonzero magnitudes, and only
MRTEST delivers PRIME. -/
theorem Inv.completeOk (h : Inv s) {r : Result} (hres : r.res < 2 ^ s.width) (hx : r.x < 2 ^ s.width)
    (hy : r.y < 2 ^ s.width) (hxneg : r.xneg = true → r.x ≠ 0) (hyneg : r.yneg = true → r.y ≠ 0)
    (hprime : r.prime = true → s.lastcmd = encode .mrtest) : Inv (completeOk s r) := by
  obtain ⟨-, -, -, -, ⟨w1, w2, w3, -, -, -, w7, w8⟩, -⟩ := h
  refine ⟨?_, ?_, ⟨hxneg, hyneg, fun hr _ => hprime hr⟩, .inl rfl, ⟨w1, w2, w3, hres, hx, hy, w7, w8⟩, trivial⟩
  · constructor <;> simp
  · constructor <;> simp

/-- The completion of MODEXP, MODINV and GCD, which deliver RES alone. -/
theorem Inv.completeOk_res (h : Inv s) {v : Nat} (hv : v < 2 ^ s.width) :
    Inv (Machine.completeOk s { res := v }) :=
  h.completeOk hv (Nat.two_pow_pos _) (Nat.two_pow_pos _) nofun nofun nofun

/-- The completion of MRTEST, which delivers no register of the width. -/
theorem Inv.completeOk_verdict (h : Inv s) (hd : decode s.lastcmd = .ok .mrtest) (prime : Bool) (n : Word) :
    Inv (Machine.completeOk s { prime := prime, rcnt := n }) :=
  h.completeOk (Nat.two_pow_pos _) (Nat.two_pow_pos _) (Nat.two_pow_pos _) nofun nofun
    fun _ => eq_encode_of_decode hd

theorem ne_idle_of_mem_phasesOf {i : Instr} {p : Phase} (h : p ∈ phasesOf i) : p ≠ .idle := by
  rintro rfl
  cases i <;> simp [phasesOf] at h

/-- A step inside command `i` keeps the invariants where it leads to a phase of `i` whose registers are in order. -/
theorem Inv.continues {i : Instr} {k : Working} {os : List Nat} {p : Phase} (h : Inv s) (hp : s.pc ≠ .idle)
    (hd : decode s.lastcmd = .ok i) (hmem : p ∈ phasesOf i) (ho : ∀ r ∈ os, r ∈ s.offers)
    (hw : WorkInv { s with work := k, offers := os, pc := p }) : Inv { s with work := k, offers := os, pc := p } := by
  have hb := h.busy_of_running hp
  obtain ⟨⟨-, b2, b3⟩, ⟨e1, e2, e3, e4⟩, ⟨f1, f2, f3⟩, -, ⟨w1, w2, w3, w4, w5, w6, w7, w8⟩, -⟩ := h
  exact ⟨⟨⟨fun _ => ne_idle_of_mem_phasesOf hmem, fun _ => hb⟩, b2, b3⟩, ⟨e1, e2, e3, e4⟩, ⟨f1, f2, f3⟩,
    .inr (.inr ⟨i, hd, hmem⟩), ⟨w1, w2, w3, w4, w5, w6, fun r hr => w7 r (ho r hr), w8⟩, hw⟩

end Sys2Proof.Machine
end

section
/-! The working registers' invariants (spec/40_common.md R120, spec/42_miller_rabin.md R152 to R155, spec/43_euclid.md
R180) under each operation of a micro-step. -/

namespace Sys2Proof.Machine

variable {n c m w : Nat} {k k' : Working}

theorem PowInv.powstep (h : PowInv m w k) : PowInv m w (powstep k) := by
  have hM : 1 ≤ k.tM := h.modulus ▸ h.positive
  have hlt := powstep_lt k hM (h.modulus ▸ h.accumulator)
  rw [h.modulus] at hlt
  exact ⟨h.modulus, h.positive, hlt.1, hlt.2, lt_of_le_of_lt (Nat.div_le_self _ _) h.exponent⟩

/-- START of MRTEST on an odd candidate (spec/42_miller_rabin.md R151). -/
theorem DecompInv.of_start (k : Working) (hn : 3 ≤ n) (hodd : n % 2 = 1) :
    DecompInv n c { k with tM := n, tK := c, tD := n - 1, tS := 0, tJ := 0 } :=
  ⟨rfl, hodd, hn, rfl, by simp, Nat.zero_le _⟩

theorem DecompInv.halve (h : DecompInv n c k) (heven : k.tD % 2 = 0) :
    DecompInv n c { k with tD := k.tD / 2, tS := k.tS + 1 } := by
  refine ⟨h.modulus, h.odd, h.large, h.rounds, ?_, h.started⟩
  rw [← h.split, pow_succ, mul_assoc, Nat.mul_div_cancel' (Nat.dvd_of_mod_eq_zero heven)]

/-- "On leaving": `n - 1` is even, so an odd `T_D` has been halved (spec/42_miller_rabin.md R152). -/
theorem DecompInv.leave (h : DecompInv n c k) (hodd : k.tD % 2 = 1) : SplitInv n c k :=
  ⟨h, hodd, one_le_twos h.odd h.split.symm hodd⟩

theorem DecompInv.oddPart_le (h : DecompInv n c k) : k.tD ≤ n - 1 :=
  h.split ▸ Nat.le_mul_of_pos_left _ (Nat.two_pow_pos _)

/-- A round keeps what MR_DRAW left: it writes only the power's and the comparison's registers. -/
theorem RoundInv.of_frame (h : RoundInv n c k)
    (heq : k' = { k with tR := k'.tR, tB := k'.tB, tE := k'.tE, tX := k'.tX, tT := k'.tT }) : RoundInv n c k' := by
  obtain ⟨⟨⟨h1, h2, h3, h4, h5, h6⟩, h7, h8⟩, h9, h10, h11⟩ := h
  rw [heq]
  exact ⟨⟨⟨h1, h2, h3, h4, h5, h6⟩, h7, h8⟩, h9, h10, h11⟩

/-- A round begins with the witness in range (spec/42_miller_rabin.md R153, R156). -/
theorem SplitInv.take {s : State} (h : SplitInv n c s.work) (hj : s.work.tJ ≠ s.work.tK) (r : Nat) (rest : List Nat) :
    RoundInv n c (mrTake s r rest).work := by
  have hrange := witness_range n r h.large
  obtain ⟨⟨h1, h2, h3, h4, h5, h6⟩, h7, h8⟩ := h
  have hlt := lt_of_le_of_ne h6 hj
  rw [← h1] at hrange ⊢
  exact ⟨⟨⟨rfl, h1 ▸ h2, h1 ▸ h3, h4, h1 ▸ h5, hlt⟩, h7, h8⟩, Nat.succ_pos _, hrange.1, hrange.2⟩

theorem SplitInv.take_pow {s : State} (h : SplitInv n c s.work) (hn : n < 2 ^ w) (r : Nat) (rest : List Nat) :
    PowInv n w (mrTake s r rest).work := by
  have hlarge := h.large
  have hrange := witness_range n r hlarge
  refine ⟨h.modulus, by omega, ?_, ?_, ?_⟩
  · show 1 < n
    omega
  · show witness s.work.tM r < n
    rw [h.modulus]
    exact hrange.2
  · show s.work.tD < 2 ^ w
    have := h.oddPart_le
    omega

/-- The bounds on the coefficients a Euclid command delivers (spec/43_euclid.md R180), and on its divisor. -/
theorem EuclidInv.results_lt {a b : Nat} (h : EuclidInv a b k) (hA : k.eA = 0) (hone : 1 < 2 ^ w) (ha : a < 2 ^ w)
    (hb : b < 2 ^ w) : k.eB < 2 ^ w ∧ k.uB.natAbs < 2 ^ w ∧ k.vB.natAbs < 2 ^ w := by
  refine ⟨?_, ?_, ?_⟩
  · have hg : k.eB = Nat.gcd a b := by rw [← h.gcd, hA, Nat.gcd_zero_left]
    rw [hg]
    rcases Nat.eq_zero_or_pos a with rfl | hpos
    · rwa [Nat.gcd_zero_left]
    · exact lt_of_le_of_lt (Nat.gcd_le_left b hpos) ha
  · have := h.boundUB
    omega
  · have := h.boundVB
    omega

end Sys2Proof.Machine
end

section
/-! Every micro-step keeps the invariants (spec/40_common.md R120), phase by phase. -/

namespace Sys2Proof.Machine

variable {s t : State}

/-! What `WorkInv` says in each phase. -/

theorem workInv_meLoop (hp : s.pc = .meLoop) : WorkInv s ↔ PowInv s.opm s.width s.work := by
  simp only [WorkInv, hp]

theorem workInv_mrDecomp (hp : s.pc = .mrDecomp) : WorkInv s ↔ DecompInv s.opm s.rounds.toNat s.work := by
  simp only [WorkInv, hp]

theorem workInv_mrDraw (hp : s.pc = .mrDraw) : WorkInv s ↔ SplitInv s.opm s.rounds.toNat s.work := by
  simp only [WorkInv, hp]

theorem workInv_mrPow (hp : s.pc = .mrPow) :
    WorkInv s ↔ RoundInv s.opm s.rounds.toNat s.work ∧ PowInv s.opm s.width s.work := by
  simp only [WorkInv, hp]

theorem workInv_mrCheck (hp : s.pc = .mrCheck) :
    WorkInv s ↔ RoundInv s.opm s.rounds.toNat s.work ∧ s.work.tX < s.opm ∧ s.work.tT < s.work.tS := by
  simp only [WorkInv, hp]

theorem workInv_euLoop (hp : s.pc = .euLoop) :
    WorkInv s ↔ EuclidInv s.opa (euclidSecond s) s.work ∧ ModulusInv s := by
  simp only [WorkInv, hp]

/-- The three last phases of the Euclid commands keep one invariant: the loop's, with `E_A = 0`. -/
theorem workInv_euDone (hp : s.pc = .euDoneEgcd ∨ s.pc = .euDoneInv ∨ s.pc = .euDoneGcd) :
    WorkInv s ↔ EuclidInv s.opa (euclidSecond s) s.work ∧ ModulusInv s ∧ s.work.eA = 0 := by
  rcases hp with hp | hp | hp <;> simp only [WorkInv, hp]

theorem startModexp_inv (h : Inv s) (hp : s.pc = .start) (hd : decode s.lastcmd = .ok .modexp) :
    Inv (startModexp s) := by
  unfold startModexp
  split
  · exact h.completeErr _
  next hm =>
    have hpos : 1 ≤ s.opm := Nat.pos_of_ne_zero hm
    refine h.continues (by simp [hp]) hd (by simp [phasesOf]) (fun _ => id) ?_
    exact ⟨rfl, hpos, Nat.mod_lt _ hpos, Nat.mod_lt _ hpos, h.width.opb⟩

theorem meLoop_inv (h : Inv s) (hp : s.pc = .meLoop) (hd : decode s.lastcmd = .ok .modexp) : Inv (meLoop s) := by
  have hpow := (workInv_meLoop hp).mp h.work
  unfold meLoop
  split
  · exact h.completeOk_res (hpow.accumulator.trans h.width.opm)
  · exact h.continues (by simp [hp]) hd (by simp [hp, phasesOf]) (fun _ => id)
      ((workInv_meLoop (by exact hp)).mpr hpow.powstep)

theorem startMrtest_inv (h : Inv s) (hp : s.pc = .start) (hd : decode s.lastcmd = .ok .mrtest) :
    Inv (startMrtest s) := by
  unfold startMrtest
  split
  · exact h.completeErr _
  split
  · exact h.completeOk_verdict hd _ _
  split
  · exact h.completeOk_verdict hd _ _
  next h1 h2 h3 =>
    have hlarge : 3 ≤ s.opm := by omega
    have hodd : s.opm % 2 = 1 := by omega
    exact h.continues (by simp [hp]) hd (by simp [phasesOf]) (fun _ => id) (DecompInv.of_start s.work hlarge hodd)

theorem mrDecomp_inv (h : Inv s) (hp : s.pc = .mrDecomp) (hd : decode s.lastcmd = .ok .mrtest) :
    Inv (mrDecomp s) := by
  have hw := (workInv_mrDecomp hp).mp h.work
  unfold mrDecomp
  split
  next heven =>
    exact h.continues (by simp [hp]) hd (by simp [hp, phasesOf]) (fun _ => id)
      ((workInv_mrDecomp (by exact hp)).mpr (hw.halve heven))
  next hodd => exact h.continues (by simp [hp]) hd (by simp [phasesOf]) (fun _ => id) (hw.leave (by omega))

theorem mrDraw_inv (h : Inv s) (hp : s.pc = .mrDraw) (hd : decode s.lastcmd = .ok .mrtest) : Inv (mrDraw s) := by
  have hw := (workInv_mrDraw hp).mp h.work
  unfold mrDraw
  split
  · exact h.completeOk_verdict hd _ _
  next hj =>
  split
  · exact h
  next r rest ho =>
    refine h.continues (by simp [hp]) hd (by simp [phasesOf]) (fun r' hr => ?_)
      ⟨hw.take hj r rest, hw.take_pow h.width.opm r rest⟩
    rw [ho]
    exact List.mem_cons_of_mem _ hr

theorem mrPow_inv (h : Inv s) (hp : s.pc = .mrPow) (hd : decode s.lastcmd = .ok .mrtest) : Inv (mrPow s) := by
  obtain ⟨hround, hpow⟩ := (workInv_mrPow hp).mp h.work
  unfold mrPow
  split
  · exact h.continues (by simp [hp]) hd (by simp [hp, phasesOf]) (fun _ => id)
      ((workInv_mrPow (by exact hp)).mpr ⟨hround.of_frame rfl, hpow.powstep⟩)
  split
  · exact h.continues (by simp [hp]) hd (by simp [phasesOf]) (fun _ => id) hround.toSplitInv
  · exact h.continues (by simp [hp]) hd (by simp [phasesOf]) (fun _ => id)
      ⟨hround.of_frame rfl, hpow.accumulator, hround.halved⟩

theorem mrCheck_inv (h : Inv s) (hp : s.pc = .mrCheck) (hd : decode s.lastcmd = .ok .mrtest) : Inv (mrCheck s) := by
  obtain ⟨hround, -, hT⟩ := (workInv_mrCheck hp).mp h.work
  unfold mrCheck
  split
  · exact h.continues (by simp [hp]) hd (by simp [phasesOf]) (fun _ => id) hround.toSplitInv
  split
  · exact h.completeOk_verdict hd _ _
  next hlast =>
    have hlt : mulmod s.work.tX s.work.tX s.work.tM < s.opm := by
      rw [hround.modulus]
      exact mulmod_lt _ _ _ (by have := hround.large; omega)
    exact h.continues (by simp [hp]) hd (by simp [hp, phasesOf]) (fun _ => id)
      ((workInv_mrCheck (by exact hp)).mpr ⟨hround.of_frame rfl, hlt, lt_of_le_of_ne (Nat.succ_le_of_lt hT) hlast⟩)

theorem opField_encode_eq_three_iff (i : Instr) : opField (encode i) = 3 ↔ i = .modinv := by
  cases i <;> decide

/-- START of EGCD, which is also the model's START of GCD (notes/assumptions/13.md). -/
theorem startEgcd_inv {i : Instr} (h : Inv s) (hp : s.pc = .start) (hd : decode s.lastcmd = .ok i)
    (hi : i = .egcd ∨ i = .gcd) : Inv (startEgcd s) := by
  have hop : opField s.lastcmd ≠ 3 := by
    rw [eq_encode_of_decode hd, Ne, opField_encode_eq_three_iff]
    rcases hi with rfl | rfl <;> decide
  have hsecond : euclidSecond (startEgcd s) = s.opb := if_neg hop
  refine h.continues (by simp [hp]) hd ?_ (fun _ => id) ((workInv_euLoop (s := startEgcd s) rfl).mpr ⟨?_, ?_⟩)
  · rcases hi with rfl | rfl <;> simp [phasesOf]
  · rw [hsecond]
    exact euclidStart_inv _ _ _
  · exact fun h3 => absurd h3 hop

theorem startModinv_inv (h : Inv s) (hp : s.pc = .start) (hd : decode s.lastcmd = .ok .modinv) :
    Inv (startModinv s) := by
  have hop : opField s.lastcmd = 3 := by rw [eq_encode_of_decode hd, opField_encode_eq_three_iff]
  by_cases hm : s.opm = 0
  · rw [startModinv_of_opm_eq_zero hm]
    exact h.completeErr _
  · rw [startModinv_of_opm_ne_zero hm]
    refine h.continues (by simp [hp]) hd (by simp [phasesOf]) (fun _ => id) ((workInv_euLoop rfl).mpr ⟨?_, ?_⟩)
    · obtain ⟨h1, h2, h3, h4, h5, h6, h7, h8, h9, h10, h11⟩ := euclidStart_inv s.work s.opa s.opm
      rw [euclidSecond, if_pos hop]
      exact ⟨h1, h2, h3, h4, h5, h6, h7, h8, h9, h10, h11⟩
    · exact fun _ => ⟨rfl, Nat.pos_of_ne_zero hm⟩

/-- The phase that the loop's end leads to is the command's own last one (spec/43_euclid.md R172). -/
theorem euclidDone_encode {i : Instr} {p : Phase} (h : euclidDone (encode i) = some p) :
    p ∈ phasesOf i ∧ (p = .euDoneEgcd ∨ p = .euDoneInv ∨ p = .euDoneGcd) := by
  cases i <;> cases h <;> decide

theorem euLoop_inv {i : Instr} (h : Inv s) (hp : s.pc = .euLoop) (hd : decode s.lastcmd = .ok i)
    (hmem : .euLoop ∈ phasesOf i) (hexec : euLoop s = .next t) : Inv t := by
  obtain ⟨heuclid, hmod⟩ := (workInv_euLoop hp).mp h.work
  rcases euLoop_cases hexec with ⟨h0, p, hdone, rfl⟩ | ⟨h0, rfl⟩
  · rw [eq_encode_of_decode hd] at hdone
    obtain ⟨hlast, hphase⟩ := euclidDone_encode hdone
    exact h.continues (by simp [hp]) hd hlast (fun _ => id) ((workInv_euDone hphase).mpr ⟨heuclid, hmod, h0⟩)
  · exact h.continues (by simp [hp]) hd (by rwa [hp]) (fun _ => id)
      ((workInv_euLoop (by exact hp)).mpr ⟨euclidDivide_keeps heuclid h0, hmod⟩)

theorem euclidSecond_lt (h : Inv s) : euclidSecond s < 2 ^ s.width := by
  unfold euclidSecond
  split
  · exact h.width.opm
  · exact h.width.opb

/-- What a Euclid command delivers fits (spec/43_euclid.md R180). -/
theorem Inv.euclid_results_lt (h : Inv s) (hp : s.pc = .euDoneEgcd ∨ s.pc = .euDoneInv ∨ s.pc = .euDoneGcd) :
    s.work.eB < 2 ^ s.width ∧ s.work.uB.natAbs < 2 ^ s.width ∧ s.work.vB.natAbs < 2 ^ s.width := by
  obtain ⟨heuclid, -, h0⟩ := (workInv_euDone hp).mp h.work
  exact heuclid.results_lt h0 (lt_width_of_lt s 1 (by decide)) h.width.opa (euclidSecond_lt h)

theorem euDoneEgcd_inv (h : Inv s) (hp : s.pc = .euDoneEgcd) : Inv (euDoneEgcd s) := by
  obtain ⟨hdivisor, hu, hv⟩ := h.euclid_results_lt (.inl hp)
  refine h.completeOk hdivisor hu hv (fun hneg => ?_) (fun hneg => ?_) nofun
  · exact Int.natAbs_ne_zero.mpr (of_decide_eq_true hneg).ne
  · exact Int.natAbs_ne_zero.mpr (of_decide_eq_true hneg).ne

theorem euDoneInv_inv (h : Inv s) (hp : s.pc = .euDoneInv) (hd : decode s.lastcmd = .ok .modinv) :
    Inv (euDoneInv s) := by
  obtain ⟨-, hmod, -⟩ := (workInv_euDone (.inr (.inl hp))).mp h.work
  have hop : opField s.lastcmd = 3 := by rw [eq_encode_of_decode hd, opField_encode_eq_three_iff]
  obtain ⟨hM, hpos⟩ := hmod hop
  unfold euDoneInv
  split
  · exact h.completeErr _
  · refine h.completeOk_res ?_
    rw [hM]
    exact (modInt_lt _ hpos).trans h.width.opm

theorem euDoneGcd_inv (h : Inv s) (hp : s.pc = .euDoneGcd) : Inv (euDoneGcd s) :=
  h.completeOk_res (h.euclid_results_lt (.inr (.inr hp))).1

/-- Every micro-step of every command keeps the invariants. -/
theorem exec_inv {i : Instr} (h : Inv s) (hd : decode s.lastcmd = .ok i) (hexec : exec i s = .next t) : Inv t := by
  cases i with
  | modexp =>
    rcases execModexp_cases hexec with ⟨hp, rfl⟩ | ⟨hp, rfl⟩
    · exact startModexp_inv h hp hd
    · exact meLoop_inv h hp hd
  | mrtest =>
    rcases execMrtest_cases hexec with ⟨hp, rfl⟩ | ⟨hp, rfl⟩ | ⟨hp, rfl⟩ | ⟨hp, rfl⟩ | ⟨hp, rfl⟩
    · exact startMrtest_inv h hp hd
    · exact mrDecomp_inv h hp hd
    · exact mrDraw_inv h hp hd
    · exact mrPow_inv h hp hd
    · exact mrCheck_inv h hp hd
  | modinv =>
    rcases execModinv_cases hexec with ⟨hp, rfl⟩ | ⟨hp, hl⟩ | ⟨hp, rfl⟩
    · exact startModinv_inv h hp hd
    · exact euLoop_inv h hp hd (by simp [phasesOf]) hl
    · exact euDoneInv_inv h hp hd
  | egcd =>
    rcases execEgcd_cases hexec with ⟨hp, rfl⟩ | ⟨hp, hl⟩ | ⟨hp, rfl⟩
    · exact startEgcd_inv h hp hd (.inl rfl)
    · exact euLoop_inv h hp hd (by simp [phasesOf]) hl
    · exact euDoneEgcd_inv h hp
  | gcd =>
    rcases execGcd_cases hexec with ⟨hp, rfl⟩ | ⟨hp, hl⟩ | ⟨hp, rfl⟩
    · exact startEgcd_inv h hp hd (.inr rfl)
    · exact euLoop_inv h hp hd (by simp [phasesOf]) hl
    · exact euDoneGcd_inv h hp

theorem engineTurn_inv (h : Inv s) (he : engineTurn s = .next t) : Inv t := by
  rcases engineTurn_cases he with ⟨-, rfl⟩ | ⟨-, i, hd, hexec⟩ | ⟨-, -, rfl⟩
  · exact h
  · exact exec_inv h hd hexec
  · exact h.completeErr _

end Sys2Proof.Machine
end

section
/-! Every step keeps the invariants: the turns of the host and of the witness source, and the whole step. -/

namespace Sys2Proof.Machine

variable {s t : State}

/-- A turn taken off the list. -/
theorem Inv.tail {u : Turn} {ts : List Turn} (h : Inv s) (ht : s.turns = u :: ts) : Inv { s with turns := ts } := by
  refine h.of_agents rfl h.width.offers fun r hr => h.width.turns r ?_
  rw [ht]
  exact List.mem_cons_of_mem _ hr

theorem Inv.answered (h : Inv s) (as : List BusAnswer) : Inv { s with answers := as } :=
  h.of_agents rfl h.width.offers h.width.turns

/-- A write keeps the invariants: of the busy block it reaches the interrupt registers alone (spec/20_memory.md R71). -/
theorem busWrite_inv (h : Inv s) (a : Addr) (v : Word) : Inv (busWrite s a v) := by
  rcases busWrite_cases s a v with ⟨-, heq, -⟩ | ⟨r, htarget, heq, -⟩
  · rwa [heq]
  rw [heq]
  obtain ⟨-, hreg, hro, hlock⟩ := writeTarget_some htarget
  have hidle : r.busyLocked = true → s.busy = false := by
    intro hl
    by_contra hb
    simp [hlock (by simpa using hb)] at hl
  rcases writeReg_cases s r v hro with
    ⟨i, rfl, hw⟩ | ⟨i, rfl, hw⟩ | ⟨i, rfl, hw⟩ | ⟨rfl, hw⟩ | ⟨rfl, hw⟩ | ⟨rfl, hw⟩ | ⟨rfl, hw⟩ <;> rw [hw]
  · exact h.of_operands (hidle rfl) rfl (setWord_lt _ _ _ v (regAt_bank_index (.inl hreg)) h.width.opa) h.width.opb
      h.width.opm
  · exact h.of_operands (hidle rfl) rfl h.width.opa
      (setWord_lt _ _ _ v (regAt_bank_index (.inr (.inl hreg))) h.width.opb) h.width.opm
  · exact h.of_operands (hidle rfl) rfl h.width.opa h.width.opb
      (setWord_lt _ _ _ v (regAt_bank_index (.inr (.inr hreg))) h.width.opm)
  · exact h.of_operands (hidle rfl) rfl h.width.opa h.width.opb h.width.opm
  · exact h.of_agents rfl h.width.offers h.width.turns
  · exact h.of_agents rfl h.width.offers h.width.turns
  · exact h.accept v

theorem offerWord_inv (h : Inv s) {r : Nat} (hr : r < 2 ^ s.width) : Inv (offerWord s r) := by
  refine h.of_agents rfl (fun r' hr' => ?_) h.width.turns
  rcases List.mem_append.mp hr' with hold | hnew
  · exact h.width.offers r' hold
  · rwa [List.mem_singleton.mp hnew]

theorem resetStep_inv (h : Inv s) : Inv (resetStep s) :=
  inv_of_reset rfl h.width.offers h.width.turns

theorem hostWait_inv (h : Inv s) (gaps : List Nat) : Inv (hostWait s gaps) := by
  cases hb : s.busy with
  | false =>
    rw [hostWait_idle s gaps hb]
    exact h.answered _
  | true =>
    rw [hostWait_busy s gaps hb]
    exact h.of_agents rfl h.width.offers fun r hr => h.width.turns r ((offer_mem_pollAgain gaps s.turns r).mp hr)

/-- Settles O55: by cases on whose turn the step is. -/
theorem everyStepKeepsInvariants : Obligations.EveryStepKeepsInvariants := by
  intro s t h hstep
  rcases step_cases hstep with ⟨-, he⟩ |
    ⟨ts, ⟨ht, he⟩ | ⟨a, ht, rfl⟩ | ⟨a, v, ht, rfl⟩ | ⟨r, ht, rfl⟩ | ⟨ht, rfl⟩ | ⟨gaps, ht, rfl⟩⟩
  · exact engineTurn_inv h he
  · exact engineTurn_inv (h.tail ht) he
  · exact (h.tail ht).answered _
  · exact (busWrite_inv (h.tail ht) a v).answered _
  · exact offerWord_inv (h.tail ht) (h.width.turns r (by simp [ht]))
  · exact resetStep_inv (h.tail ht)
  · exact hostWait_inv (h.tail ht) gaps

theorem run_inv (k : Nat) (h : Inv s) (hrun : run k s = .next t) : Inv t := by
  induction k generalizing s with
  | zero =>
    rw [run_zero] at hrun
    cases hrun
    exact h
  | succ k ih =>
    obtain ⟨u, hstep, hrest⟩ := run_succ_cases k hrun
    exact ih (everyStepKeepsInvariants s u h hstep) hrest

/-- A command in one of its own phases has a micro-step there (spec/70_reset_and_hazards.md R242). -/
theorem exec_next_of_mem {i : Instr} (hc : s.lastcmd = encode i) (hp : s.pc = .start ∨ s.pc ∈ phasesOf i) :
    ∃ t, exec i s = .next t := by
  have hloop : ∀ p, euclidDone (encode i) = some p → ∃ t, euLoop s = .next t := by
    intro p hdone
    by_cases h0 : s.work.eA = 0
    · exact ⟨_, euLoop_of_eA_eq_zero h0 (hc ▸ hdone)⟩
    · exact ⟨_, euLoop_of_eA_ne_zero h0⟩
  cases i with
  | modexp =>
    rcases hp with hp | hp
    · exact ⟨_, exec_modexp_start hp⟩
    · exact ⟨_, exec_modexp_meLoop (by simpa [phasesOf] using hp)⟩
  | mrtest =>
    simp only [phasesOf, List.mem_cons, List.not_mem_nil, or_false] at hp
    rcases hp with hp | hp | hp | hp | hp
    · exact ⟨_, exec_mrtest_start hp⟩
    · exact ⟨_, exec_mrtest_mrDecomp hp⟩
    · exact ⟨_, exec_mrtest_mrDraw hp⟩
    · exact ⟨_, exec_mrtest_mrPow hp⟩
    · exact ⟨_, exec_mrtest_mrCheck hp⟩
  | modinv =>
    simp only [phasesOf, List.mem_cons, List.not_mem_nil, or_false] at hp
    rcases hp with hp | hp | hp
    · exact ⟨_, exec_modinv_start hp⟩
    · rw [exec_euLoop (.inr (.inl rfl)) hp]
      exact hloop _ rfl
    · exact ⟨_, exec_modinv_euDoneInv hp⟩
  | egcd =>
    simp only [phasesOf, List.mem_cons, List.not_mem_nil, or_false] at hp
    rcases hp with hp | hp | hp
    · exact ⟨_, exec_egcd_start hp⟩
    · rw [exec_euLoop (.inl rfl) hp]
      exact hloop _ rfl
    · exact ⟨_, exec_egcd_euDoneEgcd hp⟩
  | gcd =>
    simp only [phasesOf, List.mem_cons, List.not_mem_nil, or_false] at hp
    rcases hp with hp | hp | hp
    · exact ⟨_, exec_gcd_start hp⟩
    · rw [exec_euLoop (.inr (.inr rfl)) hp]
      exact hloop _ rfl
    · exact ⟨_, exec_gcd_euDoneGcd hp⟩

theorem engineTurn_next (h : PhaseInv s) : ∃ t, engineTurn s = .next t := by
  by_cases hp : s.pc = .idle
  · exact ⟨s, engineTurn_idle s hp⟩
  cases hd : decode s.lastcmd with
  | ok i =>
    rw [engineTurn_command s i hp hd]
    refine exec_next_of_mem (eq_encode_of_decode hd) ?_
    rcases h with hidle | hstart | ⟨j, hj, hmem⟩
    · exact absurd hidle hp
    · exact .inl hstart
    · rw [hd] at hj
      cases hj
      exact .inr hmem
  | error e =>
    rcases h with hidle | hstart | ⟨j, hj, -⟩
    · exact absurd hidle hp
    · exact ⟨_, engineTurn_illegal s e hstart hd⟩
    · rw [hd] at hj
      cases hj

/-- Settles O56: only the engine's turn could stop, and `PhaseInv` gives it a micro-step. -/
theorem invariantStatesNeverStop : Obligations.InvariantStatesNeverStop := by
  intro s h
  unfold step
  split
  · exact engineTurn_next h.phase
  · exact engineTurn_next h.phase
  all_goals exact ⟨_, rfl⟩

end Sys2Proof.Machine
end

section
/-! Progress (spec/40_common.md R122, spec/70_reset_and_hazards.md R242): every micro-step but the hold in MR_DRAW
lowers a rank, and none needs more words than it leaves. -/

namespace Sys2Proof.Machine

variable {s t : State}

/-- How far a phase stands from completion. -/
def Phase.stage : Phase → Nat
  | .idle => 0
  | .meLoop | .mrDraw | .mrPow | .mrCheck | .euDoneEgcd | .euDoneInv | .euDoneGcd => 1
  | .mrDecomp | .euLoop => 2
  | .start => 3

/-- The order of the phases of one round of MRTEST, from the last to the first. -/
def Phase.inRound : Phase → Nat
  | .mrPow => 2
  | .mrCheck => 1
  | .idle | .start | .meLoop | .mrDecomp | .mrDraw | .euLoop | .euDoneEgcd | .euDoneInv | .euDoneGcd => 0

/-- What the loop of a phase counts down. -/
def State.loopCount (s : State) : Nat :=
  match s.pc with
  | .meLoop | .mrPow => s.work.tE
  | .mrDecomp => s.work.tD
  | .mrCheck => s.work.tS - s.work.tT
  | .euLoop => s.work.eA
  | .idle | .start | .mrDraw | .euDoneEgcd | .euDoneInv | .euDoneGcd => 0

/-- The measure that micro-steps lower, in lexicographic order: the stage, the rounds left, the place in the round,
the count of the loop. -/
def State.rank (s : State) : ℕ ×ₗ ℕ ×ₗ ℕ ×ₗ ℕ :=
  toLex (s.pc.stage, toLex (s.work.tK - s.work.tJ, toLex (s.pc.inRound, s.loopCount)))

/-- The witness words that the command in progress may still take (spec/42_miller_rabin.md R150). -/
def State.wordsNeeded (s : State) : Nat :=
  match s.pc with
  | .start => s.rounds.toNat
  | .mrDecomp | .mrDraw | .mrPow | .mrCheck => s.work.tK - s.work.tJ
  | .idle | .meLoop | .euLoop | .euDoneEgcd | .euDoneInv | .euDoneGcd => 0

theorem rank_lt_iff : t.rank < s.rank ↔ t.pc.stage < s.pc.stage ∨ t.pc.stage = s.pc.stage ∧
    (t.work.tK - t.work.tJ < s.work.tK - s.work.tJ ∨ t.work.tK - t.work.tJ = s.work.tK - s.work.tJ ∧
      (t.pc.inRound < s.pc.inRound ∨ t.pc.inRound = s.pc.inRound ∧ t.loopCount < s.loopCount)) := by
  simp only [State.rank, Prod.Lex.toLex_lt_toLex]

theorem stage_pos {p : Phase} (h : p ≠ .idle) : 0 < p.stage := by
  cases p with
  | idle => contradiction
  | _ => decide

/-- A micro-step that comes nearer to completion, and takes as many words as it no longer needs. -/
structure Advances (s t : State) : Prop where
  rank : t.rank < s.rank
  words : t.wordsNeeded + s.offers.length ≤ s.wordsNeeded + t.offers.length

/-- The one state of a running command that has no enabled micro-step (spec/20_memory.md R79). -/
def Holds (s : State) : Prop :=
  s.pc = .mrDraw ∧ s.work.tJ < s.work.tK ∧ s.offers = []

theorem advances_of_idle (hp : s.pc ≠ .idle) (ht : t.pc = .idle) (ho : t.offers = s.offers) : Advances s t := by
  have hstage := stage_pos hp
  constructor
  · rw [rank_lt_iff, ht]
    exact .inl hstage
  · simp [State.wordsNeeded, ht, ho]

theorem advances_completeOk (hp : s.pc ≠ .idle) (r : Result) : Advances s (completeOk s r) :=
  advances_of_idle hp rfl rfl

theorem advances_completeErr (hp : s.pc ≠ .idle) (e : CmdError) : Advances s (completeErr s e) :=
  advances_of_idle hp rfl rfl

/-- A step that takes no word advances where its rank falls and it needs no more words. -/
theorem advances_of_rank {k : Working} {p : Phase} (hrank : State.rank { s with work := k, pc := p } < s.rank)
    (hwords : State.wordsNeeded { s with work := k, pc := p } ≤ s.wordsNeeded) :
    Advances s { s with work := k, pc := p } :=
  ⟨hrank, Nat.add_le_add_right hwords _⟩

theorem startModexp_advances (hp : s.pc = .start) : Advances s (startModexp s) := by
  unfold startModexp
  split
  · exact advances_completeErr (by simp [hp]) _
  · exact advances_of_rank (by simp [rank_lt_iff, hp, Phase.stage]) (by simp [State.wordsNeeded])

theorem meLoop_advances (hp : s.pc = .meLoop) : Advances s (meLoop s) := by
  unfold meLoop
  split
  · exact advances_completeOk (by simp [hp]) _
  next hE =>
    have hhalf : s.work.tE / 2 < s.work.tE := Nat.div_lt_self (Nat.pos_of_ne_zero hE) (by decide)
    exact advances_of_rank (by simpa [rank_lt_iff, hp, State.loopCount, powstep] using hhalf)
      (by simp [State.wordsNeeded, hp])

theorem startMrtest_advances (hp : s.pc = .start) : Advances s (startMrtest s) := by
  unfold startMrtest
  split
  · exact advances_completeErr (by simp [hp]) _
  split
  · exact advances_completeOk (by simp [hp]) _
  split
  · exact advances_completeOk (by simp [hp]) _
  · exact advances_of_rank (by simp [rank_lt_iff, hp, Phase.stage]) (by simp [State.wordsNeeded, hp])

theorem mrDecomp_advances (h : Inv s) (hp : s.pc = .mrDecomp) : Advances s (mrDecomp s) := by
  have hw := (workInv_mrDecomp hp).mp h.work
  have hpos : 0 < s.work.tD := by
    by_contra h0
    have hsplit := hw.split
    have hlarge := hw.large
    rw [Nat.eq_zero_of_not_pos h0, Nat.mul_zero] at hsplit
    omega
  unfold mrDecomp
  split
  · have hhalf : s.work.tD / 2 < s.work.tD := Nat.div_lt_self hpos (by decide)
    exact advances_of_rank (by simpa [rank_lt_iff, hp, State.loopCount] using hhalf) (by simp [State.wordsNeeded, hp])
  · exact advances_of_rank (by simp [rank_lt_iff, hp, Phase.stage]) (by simp [State.wordsNeeded, hp])

theorem mrDraw_advances (h : Inv s) (hp : s.pc = .mrDraw) :
    Advances s (mrDraw s) ∨ Holds s ∧ mrDraw s = s := by
  have hstarted := ((workInv_mrDraw hp).mp h.work).started
  unfold mrDraw
  split
  · exact .inl (advances_completeOk (by simp [hp]) _)
  next hj =>
  have hlt : s.work.tJ < s.work.tK := lt_of_le_of_ne hstarted hj
  split
  next ho => exact .inr ⟨⟨hp, hlt, ho⟩, rfl⟩
  next r rest ho =>
    refine .inl ⟨?_, ?_⟩
    · refine rank_lt_iff.mpr (.inr ⟨by simp [hp, mrTake, Phase.stage], .inl ?_⟩)
      show s.work.tK - (s.work.tJ + 1) < s.work.tK - s.work.tJ
      omega
    · simp only [State.wordsNeeded, hp, mrTake, ho, List.length_cons]
      omega

theorem mrPow_advances (hp : s.pc = .mrPow) : Advances s (mrPow s) := by
  unfold mrPow
  split
  next hE =>
    have hhalf : s.work.tE / 2 < s.work.tE := Nat.div_lt_self (Nat.pos_of_ne_zero hE) (by decide)
    exact advances_of_rank (by simpa [rank_lt_iff, hp, State.loopCount, powstep] using hhalf)
      (by simp [State.wordsNeeded, hp, powstep])
  split
  · exact advances_of_rank (by simp [rank_lt_iff, hp, Phase.stage, Phase.inRound]) (by simp [State.wordsNeeded, hp])
  · exact advances_of_rank (by simp [rank_lt_iff, hp, Phase.stage, Phase.inRound]) (by simp [State.wordsNeeded, hp])

theorem mrCheck_advances (h : Inv s) (hp : s.pc = .mrCheck) : Advances s (mrCheck s) := by
  obtain ⟨-, -, hT⟩ := (workInv_mrCheck hp).mp h.work
  unfold mrCheck
  split
  · exact advances_of_rank (by simp [rank_lt_iff, hp, Phase.stage, Phase.inRound]) (by simp [State.wordsNeeded, hp])
  split
  · exact advances_completeOk (by simp [hp]) _
  · have hcount : s.work.tS - (s.work.tT + 1) < s.work.tS - s.work.tT := by omega
    exact advances_of_rank (by simpa [rank_lt_iff, hp, State.loopCount] using hcount) (by simp [State.wordsNeeded, hp])

theorem startEgcd_advances (hp : s.pc = .start) : Advances s (startEgcd s) :=
  advances_of_rank (by simp [rank_lt_iff, hp, Phase.stage]) (by simp [State.wordsNeeded])

theorem startModinv_advances (hp : s.pc = .start) : Advances s (startModinv s) := by
  unfold startModinv
  split
  · exact advances_completeErr (by simp [hp]) _
  · exact advances_of_rank (by simp [rank_lt_iff, hp, Phase.stage]) (by simp [State.wordsNeeded])

theorem euDoneInv_advances (hp : s.pc ≠ .idle) : Advances s (euDoneInv s) := by
  unfold euDoneInv
  split
  · exact advances_completeErr hp _
  · exact advances_completeOk hp _

theorem euLoop_advances {i : Instr} (hc : s.lastcmd = encode i) (hp : s.pc = .euLoop) (hexec : euLoop s = .next t) :
    Advances s t := by
  rcases euLoop_cases hexec with ⟨-, p, hdone, rfl⟩ | ⟨hA, rfl⟩
  · rw [hc] at hdone
    obtain ⟨-, rfl | rfl | rfl⟩ := euclidDone_encode hdone <;>
      exact advances_of_rank (by simp [rank_lt_iff, hp, Phase.stage]) (by simp [State.wordsNeeded])
  · have hlt : s.work.eB % s.work.eA < s.work.eA := Nat.mod_lt _ (Nat.pos_of_ne_zero hA)
    exact advances_of_rank (by simpa [rank_lt_iff, hp, State.loopCount, euclidDivide] using hlt)
      (by simp [State.wordsNeeded, hp])

theorem exec_advances {i : Instr} (h : Inv s) (hc : s.lastcmd = encode i) (hexec : exec i s = .next t) :
    Advances s t ∨ Holds s ∧ t = s := by
  have hne := pc_ne_idle_of_exec hexec
  cases i with
  | modexp =>
    rcases execModexp_cases hexec with ⟨hp, rfl⟩ | ⟨hp, rfl⟩
    · exact .inl (startModexp_advances hp)
    · exact .inl (meLoop_advances hp)
  | mrtest =>
    rcases execMrtest_cases hexec with ⟨hp, rfl⟩ | ⟨hp, rfl⟩ | ⟨hp, rfl⟩ | ⟨hp, rfl⟩ | ⟨hp, rfl⟩
    · exact .inl (startMrtest_advances hp)
    · exact .inl (mrDecomp_advances h hp)
    · exact mrDraw_advances h hp
    · exact .inl (mrPow_advances hp)
    · exact .inl (mrCheck_advances h hp)
  | modinv =>
    rcases execModinv_cases hexec with ⟨hp, rfl⟩ | ⟨hp, hl⟩ | ⟨-, rfl⟩
    · exact .inl (startModinv_advances hp)
    · exact .inl (euLoop_advances hc hp hl)
    · exact .inl (euDoneInv_advances hne)
  | egcd =>
    rcases execEgcd_cases hexec with ⟨hp, rfl⟩ | ⟨hp, hl⟩ | ⟨-, rfl⟩
    · exact .inl (startEgcd_advances hp)
    · exact .inl (euLoop_advances hc hp hl)
    · exact .inl (advances_completeOk hne _)
  | gcd =>
    rcases execGcd_cases hexec with ⟨hp, rfl⟩ | ⟨hp, hl⟩ | ⟨-, rfl⟩
    · exact .inl (startEgcd_advances hp)
    · exact .inl (euLoop_advances hc hp hl)
    · exact .inl (advances_completeOk hne _)

theorem engineTurn_advances (h : Inv s) (hp : s.pc ≠ .idle) (he : engineTurn s = .next t) :
    Advances s t ∨ Holds s ∧ t = s := by
  rcases engineTurn_cases he with ⟨hidle, -⟩ | ⟨-, i, hd, hexec⟩ | ⟨-, -, rfl⟩
  · exact absurd hidle hp
  · exact exec_advances h (eq_encode_of_decode hd) hexec
  · exact .inl (advances_completeErr hp _)

theorem mrDraw_of_no_offer (hj : s.work.tJ ≠ s.work.tK) (ho : s.offers = []) : mrDraw s = s := by
  simp [mrDraw, hj, ho]

/-- Where the engine holds, its turn changes nothing (notes/assumptions/6.md). -/
theorem engineTurn_of_holds (h : PhaseInv s) (hold : Holds s) : engineTurn s = .next s := by
  obtain ⟨hp, hj, ho⟩ := hold
  obtain ⟨i, hd, hmem⟩ : ∃ i, decode s.lastcmd = .ok i ∧ s.pc ∈ phasesOf i := by simpa [PhaseInv, hp] using h
  obtain rfl : i = .mrtest := by
    rw [hp] at hmem
    cases i <;> simp [phasesOf] at hmem ⊢
  rw [engineTurn_command s _ (by simp [hp]) hd, exec_mrtest_mrDraw hp, mrDraw_of_no_offer hj.ne ho]

/-- Settles O5: a step that changes nothing does not advance, so it is IDLE's or the hold. -/
theorem onlyHoldIsMissingWitness : Obligations.OnlyHoldIsMissingWitness := by
  intro s h ht
  rw [step_engine_nil s ht]
  constructor
  · intro he
    by_cases hp : s.pc = .idle
    · exact .inl hp
    · rcases engineTurn_advances h hp he with hadv | ⟨hold, -⟩
      · exact absurd hadv.rank (lt_irrefl _)
      · exact .inr hold
  · rintro (hp | hold)
    · exact engineTurn_idle s hp
    · exact engineTurn_of_holds h.phase hold

end Sys2Proof.Machine
end

section
/-! Completion (spec/40_common.md R122, spec/30_encoding.md R99): a command with the words it may still need comes to
its end, whatever of the engine's and the witness source's turns falls between the polls of a WAIT. -/

namespace Sys2Proof.Machine

variable {s t : State}

theorem MicroStep.turns_eq (h : MicroStep s t) : t.turns = s.turns := by
  cases h <;> rfl

/-- A micro-step that leads to IDLE is a completion (spec/40_common.md R113, R114). -/
theorem CommandStep.completed {i : Instr} (h : CommandStep s i t) (hpc : t.pc = .idle) : Completed t := by
  cases h with
  | runs hrun => exact absurd hpc hrun
  | fails e => exact completeErr_completed s e
  | power _ | verdict _ _ | inverse _ | bezout _ _ _ _ _ | divisor _ => exact completeOk_completed s _

theorem engineTurn_completed (hp : s.pc ≠ .idle) (he : engineTurn s = .next t) (hpc : t.pc = .idle) : Completed t := by
  rcases engineTurn_cases he with ⟨hidle, -⟩ | ⟨-, i, -, hexec⟩ | ⟨-, -, rfl⟩
  · exact absurd hidle hp
  · exact (exec_commandStep hexec).completed hpc
  · exact completeErr_completed s _

theorem wordsNeeded_le_rounds (h : Inv s) : s.wordsNeeded ≤ s.rounds.toNat := by
  have hle : ∀ k : Working, k.tK = s.rounds.toNat → k.tK - k.tJ ≤ s.rounds.toNat := fun k hk => by omega
  cases hp : s.pc with
  | start => simp [State.wordsNeeded, hp]
  | mrDecomp => simpa only [State.wordsNeeded, hp] using hle _ ((workInv_mrDecomp hp).mp h.work).rounds
  | mrDraw => simpa only [State.wordsNeeded, hp] using hle _ ((workInv_mrDraw hp).mp h.work).rounds
  | mrPow => simpa only [State.wordsNeeded, hp] using hle _ ((workInv_mrPow hp).mp h.work).1.rounds
  | mrCheck => simpa only [State.wordsNeeded, hp] using hle _ ((workInv_mrCheck hp).mp h.work).1.rounds
  | idle | meLoop | euLoop | euDoneEgcd | euDoneInv | euDoneGcd => simp [State.wordsNeeded, hp]

theorem wordsNeeded_pos_of_holds (h : Holds s) : 0 < s.wordsNeeded := by
  obtain ⟨hp, hj, -⟩ := h
  simpa [State.wordsNeeded, hp] using hj

/-- The command has completed, or runs and the words on offer with `n` words still to be offered are enough for it. -/
def Supplied (n : Nat) (s : State) : Prop :=
  Completed s ∨ s.pc ≠ .idle ∧ s.wordsNeeded ≤ s.offers.length + n

/-- An engine turn keeps a supplied command supplied; with no word still to come it advances it. -/
theorem Supplied.engine {n : Nat} (hs : Supplied n s) (h : Inv s) :
    ∃ t, engineTurn s = .next t ∧ Supplied n t ∧ (n = 0 → s.pc ≠ .idle → t.rank < s.rank) := by
  obtain ⟨t, he⟩ := engineTurn_next h.phase
  refine ⟨t, he, ?_⟩
  rcases hs with hdone | ⟨hp, hwords⟩
  · have hsame : t = s := by simpa [engineTurn_idle s hdone.1] using he.symm
    exact ⟨.inl (hsame ▸ hdone), fun _ hp => absurd hdone.1 hp⟩
  · rcases engineTurn_advances h hp he with hadv | ⟨hold, rfl⟩
    · refine ⟨?_, fun _ _ => hadv.rank⟩
      by_cases hpc : t.pc = .idle
      · exact .inl (engineTurn_completed hp he hpc)
      · have := hadv.words
        exact .inr ⟨hpc, by omega⟩
    · refine ⟨.inr ⟨hp, hwords⟩, fun hn _ => ?_⟩
      have hneed := wordsNeeded_pos_of_holds hold
      obtain ⟨-, -, ho⟩ := hold
      simp only [ho, hn, List.length_nil] at hwords
      omega

theorem Reaches.step (h : step s = .next t) : Reaches s t :=
  ⟨1, run_one h⟩

theorem Reaches.inv (hr : Reaches s t) (h : Inv s) : Inv t := by
  obtain ⟨k, hrun⟩ := hr
  exact run_inv k h hrun

/-- With no other agent's turn listed, a supplied command completes: by induction on the rank. -/
theorem reaches_completed (h : Inv s) (ht : s.turns = []) (hs : Supplied 0 s) : ∃ t, Reaches s t ∧ Completed t := by
  induction hr : s.rank using WellFoundedLT.induction generalizing s with
  | _ r ih =>
    subst hr
    by_cases hp : s.pc = .idle
    · exact ⟨s, .refl s, hs.resolve_right fun hrun => hrun.1 hp⟩
    · obtain ⟨u, he, hu, hrank⟩ := hs.engine h
      have hstep : Reaches s u := .step ((step_engine_nil s ht).trans he)
      obtain ⟨t, hreach, hdone⟩ := ih u.rank (hrank rfl hp) (engineTurn_inv h he)
        ((engineTurn_microStep he).turns_eq.trans ht) hu rfl
      exact ⟨t, hstep.trans hreach, hdone⟩

/-- Settles O57: no phase needs more words than ROUNDS. -/
theorem everyCommandCompletes : Obligations.EveryCommandCompletes := by
  intro s h ht hp hwords
  obtain ⟨t, ⟨k, hrun⟩, hdone⟩ := reaches_completed h ht (.inr ⟨hp, (wordsNeeded_le_rounds h).trans hwords⟩)
  exact ⟨k, t, hrun, hdone⟩

/-! WAIT. Between its polls fall turns of the engine and of the witness source; a poll of a running command puts the
WAIT further back, and the poll after completion is the last. -/

/-- The words that a list of turns offers, where only engine and offer turns are listed. -/
def wordsIn (ts : List Turn) : Nat :=
  ts.countP (· ≠ .engine)

theorem wordsIn_engine_cons (ts : List Turn) : wordsIn (.engine :: ts) = wordsIn ts := by
  simp [wordsIn]

theorem wordsIn_offer_cons (r : Nat) (ts : List Turn) : wordsIn (.offer r :: ts) = wordsIn ts + 1 := by
  simp [wordsIn]

theorem wordsIn_append (ts us : List Turn) : wordsIn (ts ++ us) = wordsIn ts + wordsIn us :=
  List.countP_append

/-- The poll that shows `BUSY = 0` (spec/30_encoding.md R99): it leaves what is listed after the WAIT. -/
theorem step_last_poll {gaps : List Nat} {ts : List Turn} (ht : s.turns = .wait gaps :: ts) (hb : s.busy = false) :
    step s = .next { s with turns := ts, answers := .data s.statusWord :: s.answers } := by
  simp only [step, ht]
  exact congrArg _ (hostWait_idle { s with turns := ts } gaps hb)

/-- A poll that shows `BUSY = 1`. -/
theorem step_busy_poll {gaps : List Nat} {ts : List Turn} (ht : s.turns = .wait gaps :: ts) (hb : s.busy = true) :
    step s = .next { s with turns := pollAgain gaps ts, answers := .data s.statusWord :: s.answers } := by
  simp only [step, ht]
  exact congrArg _ (hostWait_busy { s with turns := ts } gaps hb)

/-- Turns of the other agents performed: what they offer is then on offer. -/
theorem reaches_after_between (before rest : List Turn) {n : Nat} (hall : ∀ u ∈ before, u.betweenPolls = true)
    (h : Inv s) (ht : s.turns = before ++ rest) (hs : Supplied (wordsIn before + n) s) :
    ∃ t, Reaches s t ∧ t.turns = rest ∧ Supplied n t := by
  induction before generalizing s with
  | nil => exact ⟨s, .refl s, ht, by simpa [wordsIn] using hs⟩
  | cons u before ih =>
    obtain ⟨hu, hrest⟩ := List.forall_mem_cons.mp hall
    have htail := h.tail ht
    obtain ⟨s', hstep, hturns, hs'⟩ : ∃ s', step s = .next s' ∧ s'.turns = before ++ rest ∧
        Supplied (wordsIn before + n) s' := by
      cases u with
      | engine =>
        rw [wordsIn_engine_cons] at hs
        obtain ⟨s', he, hs', -⟩ := Supplied.engine (s := { s with turns := before ++ rest }) hs htail
        exact ⟨s', (step_engine_cons s _ ht).trans he, (engineTurn_microStep he).turns_eq, hs'⟩
      | offer r =>
        rw [wordsIn_offer_cons] at hs
        refine ⟨offerWord { s with turns := before ++ rest } r, by simp only [step, ht, List.cons_append], rfl, ?_⟩
        refine hs.imp id fun ⟨hp, hwords⟩ => ⟨hp, ?_⟩
        show s.wordsNeeded ≤ (s.offers ++ [r]).length + (wordsIn before + n)
        rw [List.length_append, List.length_singleton]
        omega
      | read | write | reset | wait => simp [Turn.betweenPolls] at hu
    obtain ⟨t, hreach, hdone⟩ := ih hrest (everyStepKeepsInvariants s s' h hstep) hturns hs'
    exact ⟨t, (Reaches.step hstep).trans hreach, hdone⟩

/-- How a WAIT before `ts` ends (spec/30_encoding.md R99): only turns of the other agents have been performed of `ts`,
and the last answer is STATUS with `BUSY = 0` and `DONE = 1`. -/
def WaitEnds (s : State) (ts : List Turn) : Prop :=
  ∃ t before, Reaches s t ∧ ts = before ++ t.turns ∧ (∀ u ∈ before, u.betweenPolls = true) ∧ t.pc = .idle ∧
    t.answers.head? = some (.data t.statusWord) ∧ t.statusWord.getLsbD 0 = false ∧ t.statusWord.getLsbD 1 = true

theorem WaitEnds.of_completed {gaps : List Nat} {ts : List Turn} (ht : s.turns = .wait gaps :: ts)
    (hdone : Completed s) : WaitEnds s ts := by
  obtain ⟨hp, hbusy, hd⟩ := hdone
  refine ⟨_, [], .step (step_last_poll ht hbusy), rfl, nofun, hp, rfl, ?_, ?_⟩
  · rw [statusWord_getLsbD]
    exact hbusy
  · rw [statusWord_getLsbD]
    exact hd

/-- Turns performed between two polls leave the end of the WAIT as it is. -/
theorem WaitEnds.of_reaches {before after : List Turn} (hr : Reaches s t)
    (hall : ∀ u ∈ before, u.betweenPolls = true) (h : WaitEnds t after) : WaitEnds s (before ++ after) := by
  obtain ⟨u, before', hreach, rfl, hall', hend⟩ := h
  exact ⟨u, before ++ before', hr.trans hreach, (List.append_assoc ..).symm,
    fun v hv => (List.mem_append.mp hv).elim (hall v) (hall' v), hend⟩

/-- A WAIT with no gap left and no other agent's turn after it gives the engine one turn before each poll, so it ends:
by induction on the rank. -/
theorem waitEnds_of_engine_turns {ts : List Turn} (hnone : ts.takeWhile Turn.betweenPolls = []) (h : Inv s)
    (ht : s.turns = .wait [] :: ts) (hs : Supplied 0 s) : WaitEnds s ts := by
  induction hr : s.rank using WellFoundedLT.induction generalizing s with
  | _ r ih =>
    subst hr
    by_cases hp : s.pc = .idle
    · exact .of_completed ht (hs.resolve_right fun hrun => hrun.1 hp)
    · have hdrop : ts.dropWhile Turn.betweenPolls = ts := by
        simpa [hnone] using List.takeWhile_append_dropWhile (p := Turn.betweenPolls) (l := ts)
      have hpoll := step_busy_poll ht (h.busy_of_running hp)
      simp only [pollAgain, hnone, hdrop, List.nil_append] at hpoll
      have hinv := everyStepKeepsInvariants _ _ h hpoll
      obtain ⟨u, he, hu, hrank⟩ := Supplied.engine (s := { s with
        turns := .wait [] :: ts, answers := .data s.statusWord :: s.answers }) hs (hinv.tail rfl)
      have hreach := (Reaches.step hpoll).trans (.step ((step_engine_cons _ _ rfl).trans he))
      exact .of_reaches (before := []) hreach nofun
        (ih u.rank (hrank rfl hp) (hreach.inv h) (engineTurn_microStep he).turns_eq hu rfl)

/-- From a poll of a supplied running command to the next one, which has one gap less. -/
theorem reaches_next_poll {gaps : List Nat} {ts : List Turn} (h : Inv s) (ht : s.turns = .wait gaps :: ts)
    (hs : Supplied (wordsIn (ts.takeWhile Turn.betweenPolls)) s) (hp : s.pc ≠ .idle) :
    ∃ t before after, Reaches s t ∧ ts = before ++ after ∧ (∀ u ∈ before, u.betweenPolls = true) ∧
      t.turns = .wait gaps.tail :: after ∧ Supplied (wordsIn (after.takeWhile Turn.betweenPolls)) t ∧
      (gaps = [] → after.takeWhile Turn.betweenPolls = []) := by
  obtain ⟨before, after, rfl, hall, hagain⟩ := pollAgain_cases gaps ts
  have hpoll := step_busy_poll ht (h.busy_of_running hp)
  have hinv := everyStepKeepsInvariants _ _ h hpoll
  rw [List.takeWhile_append_of_pos hall, wordsIn_append] at hs
  rcases hagain with ⟨n, more, rfl, -, hturns⟩ | ⟨rfl, htake, hturns⟩
  · obtain ⟨t, hreach, hrest, hs'⟩ := reaches_after_between before (.wait more :: after) hall hinv hturns hs
    exact ⟨t, before, after, (Reaches.step hpoll).trans hreach, rfl, hall, hrest, hs', nofun⟩
  · have hnone : after.takeWhile Turn.betweenPolls = [] := by
      rwa [List.takeWhile_append_of_pos hall, List.self_eq_append_right] at htake
    have hall' : ∀ u ∈ before ++ [Turn.engine], u.betweenPolls = true := by
      intro u hu
      rcases List.mem_append.mp hu with hu | hu
      · exact hall u hu
      · rw [List.mem_singleton.mp hu, Turn.betweenPolls]
    have hwords : wordsIn (before ++ [.engine]) = wordsIn before := by rw [wordsIn_append, wordsIn_engine_cons]; rfl
    obtain ⟨t, hreach, hrest, hs'⟩ := reaches_after_between (before ++ [.engine]) (.wait [] :: after) hall' hinv
      (by simpa using hturns) (by rwa [hwords])
    exact ⟨t, before, after, (Reaches.step hpoll).trans hreach, rfl, hall, hrest, hs', fun _ => hnone⟩

/-- Every WAIT on a supplied command ends: by induction on the gaps, and `waitEnds_of_engine_turns` after the last. -/
theorem waitEnds_of_supplied (gaps : List Nat) {ts : List Turn} (h : Inv s) (ht : s.turns = .wait gaps :: ts)
    (hs : Supplied (wordsIn (ts.takeWhile Turn.betweenPolls)) s) : WaitEnds s ts := by
  induction gaps generalizing s ts with
  | nil =>
    by_cases hp : s.pc = .idle
    · exact .of_completed ht (hs.resolve_right fun hrun => hrun.1 hp)
    · obtain ⟨t, before, after, hreach, rfl, hall, hturns, hs', hnone⟩ := reaches_next_poll h ht hs hp
      rw [hnone rfl] at hs'
      exact .of_reaches hreach hall (waitEnds_of_engine_turns (hnone rfl) (hreach.inv h) hturns hs')
  | cons n gaps ih =>
    by_cases hp : s.pc = .idle
    · exact .of_completed ht (hs.resolve_right fun hrun => hrun.1 hp)
    · obtain ⟨t, before, after, hreach, rfl, hall, hturns, hs', -⟩ := reaches_next_poll h ht hs hp
      exact .of_reaches hreach hall (ih (hreach.inv h) hturns hs')

/-- Settles O58: the words on offer and those still to be offered supply the command. -/
theorem waitEndsAtCompletion : Obligations.WaitEndsAtCompletion := by
  intro s gaps ts h ht hp hwords
  obtain ⟨t, before, ⟨k, hrun⟩, hend⟩ :=
    waitEnds_of_supplied gaps h ht (.inr ⟨hp, (wordsNeeded_le_rounds h).trans hwords⟩)
  exact ⟨k, t, before, hrun, hend⟩

end Sys2Proof.Machine
end

section
/-! The end of a well-formed host program (spec/70_reset_and_hazards.md R241): what is left to perform awaits every
command that runs or may be issued, and every step keeps that. -/

namespace Sys2Proof.Machine

/-- Every write to CMD in the list is followed by a WAIT, and so is a command already issued, if `pending`. -/
def awaited : Bool → List Turn → Bool
  | pending, [] => !pending
  | _, .wait _ :: ts => awaited false ts
  | pending, .write a _ :: ts => awaited (pending || a == 0x0008) ts
  | pending, .engine :: ts | pending, .read _ :: ts | pending, .offer _ :: ts | pending, .reset :: ts =>
    awaited pending ts

/-- What a schedule adds to a program does not matter (notes/assumptions/18.md). -/
theorem awaited_filterMap_inProgram (pending : Bool) (ts : List Turn) :
    awaited pending (ts.filterMap Turn.inProgram) = awaited pending ts := by
  induction ts generalizing pending with
  | nil => rfl
  | cons u ts ih => cases u <;> simp [List.filterMap_cons, Turn.inProgram, awaited, ih]

theorem awaited_between_append {before : List Turn} (hall : ∀ u ∈ before, u.betweenPolls = true) (pending : Bool)
    (ts : List Turn) : awaited pending (before ++ ts) = awaited pending ts := by
  induction before with
  | nil => rfl
  | cons u before ih =>
    obtain ⟨hu, hrest⟩ := List.forall_mem_cons.mp hall
    cases u with
    | engine | offer => exact ih hrest
    | read | write | reset | wait => simp [Turn.betweenPolls] at hu

/-- The reads of a GET. -/
theorem awaited_reads_append (pending : Bool) (is : List Nat) (f : Nat → Addr) (ts : List Turn) :
    awaited pending (is.map (fun i => .read (f i)) ++ ts) = awaited pending ts := by
  induction is with
  | nil => rfl
  | cons i is ih => exact ih

/-- The writes of an LD, none of which is to CMD. -/
theorem awaited_writes_append (pending : Bool) (is : List Nat) (f : Nat → Addr) (v : Nat → Word) (ts : List Turn)
    (hf : ∀ i ∈ is, f i ≠ 0x0008) :
    awaited pending (is.map (fun i => .write (f i) (v i)) ++ ts) = awaited pending ts := by
  induction is with
  | nil => rfl
  | cons i is ih =>
    obtain ⟨hi, hrest⟩ := List.forall_mem_cons.mp hf
    have hcmd : (f i == 0x0008) = false := by simpa using hi
    rw [List.map_cons, List.cons_append, awaited, hcmd, Bool.or_false]
    exact ih hrest

theorem operandAddr_ne_cmd (q : OperandReg) {i : Nat} (hi : i < 1024) : q.wide.addr i ≠ 0x0008 := by
  intro h
  have hnat : (q.wide.addr i).toNat = 8 := congrArg BitVec.toNat h
  cases q with
  | opa =>
    rw [OperandReg.wide_opa, opaAddr_eq, bankAddr_toNat 1 i (by decide) hi] at hnat
    omega
  | opb =>
    rw [OperandReg.wide_opb, opbAddr_eq, bankAddr_toNat 2 i (by decide) hi] at hnat
    omega
  | opm =>
    rw [OperandReg.wide_opm, opmAddr_eq, bankAddr_toNat 3 i (by decide) hi] at hnat
    omega

/-- A line as a list of turns: a WAIT awaits what is pending, and a line that writes CMD makes a command pending. -/
theorem awaited_line_append {nw : Nat} (hnw : nw ≤ 1024) (l : Line) (pending : Bool) (ts : List Turn) :
    awaited pending (l.turns nw ++ ts) =
      if l.isWait then awaited false ts else awaited (pending || l.issues) ts := by
  cases l with
  | wr | wrErr | rd | rdErr | cmd | rnd | rst | ldk | wait | ack =>
    simp [Line.turns, Line.isWait, Line.issues, awaited]
  | ld q value =>
    have haddr : ∀ i ∈ List.range nw, q.wide.addr i ≠ 0x0008 :=
      fun i hi => operandAddr_ne_cmd q ((List.mem_range.mp hi).trans_le hnw)
    rw [Line.isWait, if_neg Bool.false_ne_true, Line.issues, Bool.or_false]
    exact awaited_writes_append pending _ _ (getWord value) ts haddr
  | get q value =>
    rw [Line.isWait, if_neg Bool.false_ne_true, Line.issues, Bool.or_false]
    exact awaited_reads_append pending _ q.wide.addr ts

/-- R241's condition gives the turns of a well-formed program their WAITs. -/
theorem awaited_of_wellFormedFrom {nw : Nat} (hnw : nw ≤ 1024) (p : List Line) {pending : Bool}
    (h : wellFormedFrom nw pending p = true) : awaited pending (programTurns nw p) = true := by
  induction p generalizing pending with
  | nil => exact h
  | cons l p ih =>
    rw [programTurns_cons, awaited_line_append hnw]
    rw [wellFormedFrom] at h
    split
    next hw =>
      rw [if_pos hw] at h
      exact ih h
    next hw =>
      rw [if_neg hw, Bool.and_eq_true] at h
      exact ih h.2

/-- The turns left to perform await the command that runs, if one does, and every command they issue. -/
def Awaits (s : State) : Prop :=
  ∃ pending, awaited pending s.turns = true ∧ (s.busy = true → pending = true)

variable {s t : State}

theorem MicroStep.busy_of_busy (h : MicroStep s t) (hb : t.busy = true) : s.busy = true := by
  cases h with
  | succeeds r => simp at hb
  | fails e => simp at hb
  | continues k os p => exact hb

/-- A write that starts a command is to CMD. -/
theorem busWrite_busy_cases (s : State) (a : Addr) (v : Word) :
    (busWrite s a v).busy = s.busy ∨ a = 0x0008 := by
  rcases busWrite_cases s a v with ⟨-, heq, -⟩ | ⟨r, hr, heq, -⟩
  · exact .inl (by rw [heq])
  · obtain ⟨-, -, hro, -⟩ := writeTarget_some hr
    rw [heq]
    rcases writeReg_cases s r v hro with
      ⟨i, -, hw⟩ | ⟨i, -, hw⟩ | ⟨i, -, hw⟩ | ⟨-, hw⟩ | ⟨-, hw⟩ | ⟨-, hw⟩ | ⟨rfl, -⟩
    iterate 6 exact .inl (by rw [hw])
    exact .inr (by simpa using writeTarget_addr hr)

theorem writeReg_turns (s : State) (r : RegWord) (v : Word) : (writeReg s r v).turns = s.turns := by
  cases r <;> simp [writeReg]

theorem hostWrite_turns (s : State) (a : Addr) (v : Word) : (hostWrite s a v).turns = s.turns := by
  show (busWrite s a v).turns = s.turns
  rcases busWrite_cases s a v with ⟨-, heq, -⟩ | ⟨r, -, heq, -⟩
  · rw [heq]
  · rw [heq, writeReg_turns]

theorem Awaits.engine (h : Awaits s) (he : engineTurn s = .next t) : Awaits t := by
  obtain ⟨pending, hw, hb⟩ := h
  have hmicro := engineTurn_microStep he
  exact ⟨pending, by rwa [hmicro.turns_eq], fun hbusy => hb (hmicro.busy_of_busy hbusy)⟩

/-- A poll that shows `BUSY = 1` keeps its WAIT before everything the host does next. -/
theorem awaited_pollAgain (gaps : List Nat) (ts : List Turn) (pending : Bool) :
    awaited pending (pollAgain gaps ts) = awaited false ts := by
  obtain ⟨before, after, rfl, hall, ⟨n, more, -, -, hturns⟩ | ⟨-, -, hturns⟩⟩ := pollAgain_cases gaps ts
  · rw [hturns, awaited_between_append hall, awaited_between_append hall, awaited]
  · rw [hturns, awaited_between_append hall, awaited_between_append hall, awaited, awaited]

theorem Awaits.wait {gaps : List Nat} {ts : List Turn} (h : Awaits s) (ht : s.turns = .wait gaps :: ts) :
    Awaits (hostWait { s with turns := ts } gaps) := by
  obtain ⟨pending, hw, -⟩ := h
  rw [ht, awaited] at hw
  by_cases hb : s.busy = true
  · rw [hostWait_busy { s with turns := ts } gaps hb]
    exact ⟨true, (awaited_pollAgain gaps ts true).trans hw, fun _ => rfl⟩
  · rw [hostWait_idle { s with turns := ts } gaps (by simpa using hb)]
    exact ⟨false, hw, fun hbusy => absurd hbusy hb⟩

theorem Awaits.write {a : Addr} {v : Word} {ts : List Turn} (h : Awaits s) (ht : s.turns = .write a v :: ts) :
    Awaits (hostWrite { s with turns := ts } a v) := by
  obtain ⟨pending, hw, hb⟩ := h
  rw [ht, awaited] at hw
  refine ⟨_, by rwa [hostWrite_turns], fun hbusy => ?_⟩
  rcases busWrite_busy_cases { s with turns := ts } a v with hsame | rfl
  · rw [hb (hsame.symm.trans hbusy), Bool.true_or]
  · simp

/-- A turn taken off the list, where it is neither a WAIT nor a write. -/
theorem Awaits.tail {u : Turn} {ts : List Turn} (h : Awaits s) (ht : s.turns = u :: ts)
    (hu : ∀ pending, awaited pending (u :: ts) = awaited pending ts) : Awaits { s with turns := ts } := by
  obtain ⟨pending, hw, hb⟩ := h
  exact ⟨pending, by rwa [ht, hu] at hw, hb⟩

theorem step_awaits (h : Awaits s) (hstep : step s = .next t) : Awaits t := by
  rcases step_cases hstep with ⟨-, he⟩ |
    ⟨ts, ⟨ht, he⟩ | ⟨a, ht, rfl⟩ | ⟨a, v, ht, rfl⟩ | ⟨r, ht, rfl⟩ | ⟨ht, rfl⟩ | ⟨gaps, ht, rfl⟩⟩
  · exact h.engine he
  · exact (h.tail ht fun _ => rfl).engine he
  · exact h.tail ht fun _ => rfl
  · exact h.write ht
  · exact h.tail ht fun _ => rfl
  · obtain ⟨pending, hw, -⟩ := h.tail ht fun _ => rfl
    exact ⟨pending, hw, nofun⟩
  · exact h.wait ht

theorem run_awaits (k : Nat) (h : Awaits s) (hrun : run k s = .next t) : Awaits t := by
  induction k generalizing s with
  | zero =>
    rw [run_zero] at hrun
    cases hrun
    exact h
  | succ k ih =>
    obtain ⟨u, hstep, hrest⟩ := run_succ_cases k hrun
    exact ih (step_awaits h hstep) hrest

/-- Settles O59: with no turn left nothing is pending, so no command runs. -/
theorem wellFormedProgramEndsIdle : Obligations.WellFormedProgramEndsIdle := by
  intro s t p k hidle hsched hwf hrun hend
  have hstart : awaited false s.turns = true := by
    rw [← awaited_filterMap_inProgram, hsched]
    exact awaited_of_wellFormedFrom (nw_le s) p hwf
  obtain ⟨pending, hw, hb⟩ := run_awaits k ⟨false, hstart, fun hbusy => by simp [hidle] at hbusy⟩ hrun
  have hturns : t.turns = [] := by simpa [State.runEnded] using hend
  have hbusy : t.busy = false := by
    rw [hturns, awaited] at hw
    by_contra hne
    simp [hb (by simpa using hne)] at hw
  exact ⟨hbusy, fun h => (run_inv k h hrun).pc_idle hbusy⟩

end Sys2Proof.Machine
end

section
/-! What a micro-step does not depend on: the host's record (spec/20_memory.md R74, R75) and the working registers
that its phase has not written (spec/10_state.md R42). -/

namespace Sys2Proof.Machine

/-- An answer with its next state, if it has one, changed by `f`. -/
def onNext (f : State → State) : Answer → Answer
  | .next t => .next (f t)
  | .fault r => .fault r
  | .refused r => .refused r

theorem onNext_next (f : State → State) (t : State) : onNext f (.next t) = .next (f t) := rfl

/-- The engine's turn in a phase other than IDLE where LASTCMD is no command. -/
theorem engineTurn_undecoded (s : State) (e : DecodeError) (h : s.pc ≠ .idle) (hd : decode s.lastcmd = .error e) :
    engineTurn s = illegalCommand s := by
  unfold engineTurn fetchDecode
  split
  · contradiction
  · simp [hd]

/-- The state with another list of turns to come and another record of answers. -/
def withRecord (ts : List Turn) (as : List BusAnswer) (s : State) : State :=
  { s with turns := ts, answers := as }

section Record

variable (ts : List Turn) (as : List BusAnswer) (s : State)

theorem startModexp_withRecord : startModexp (withRecord ts as s) = withRecord ts as (startModexp s) := by
  simp only [startModexp, apply_ite (withRecord ts as)]
  rfl

theorem meLoop_withRecord : meLoop (withRecord ts as s) = withRecord ts as (meLoop s) := by
  simp only [meLoop, apply_ite (withRecord ts as)]
  rfl

theorem startMrtest_withRecord : startMrtest (withRecord ts as s) = withRecord ts as (startMrtest s) := by
  simp only [startMrtest, apply_ite (withRecord ts as)]
  rfl

theorem mrDecomp_withRecord : mrDecomp (withRecord ts as s) = withRecord ts as (mrDecomp s) := by
  simp only [mrDecomp, apply_ite (withRecord ts as)]
  rfl

theorem mrDraw_withRecord : mrDraw (withRecord ts as s) = withRecord ts as (mrDraw s) := by
  have ho : (withRecord ts as s).offers = s.offers := rfl
  simp only [mrDraw, apply_ite (withRecord ts as), ho]
  cases s.offers <;> rfl

theorem mrPow_withRecord : mrPow (withRecord ts as s) = withRecord ts as (mrPow s) := by
  simp only [mrPow, apply_ite (withRecord ts as)]
  rfl

theorem mrCheck_withRecord : mrCheck (withRecord ts as s) = withRecord ts as (mrCheck s) := by
  simp only [mrCheck, apply_ite (withRecord ts as)]
  rfl

theorem startModinv_withRecord : startModinv (withRecord ts as s) = withRecord ts as (startModinv s) := by
  simp only [startModinv, apply_ite (withRecord ts as)]
  rfl

theorem euDoneInv_withRecord : euDoneInv (withRecord ts as s) = withRecord ts as (euDoneInv s) := by
  simp only [euDoneInv, apply_ite (withRecord ts as)]
  rfl

theorem euLoop_withRecord : euLoop (withRecord ts as s) = onNext (withRecord ts as) (euLoop s) := by
  have hc : (withRecord ts as s).lastcmd = s.lastcmd := rfl
  simp only [euLoop, apply_ite (onNext (withRecord ts as)), hc]
  cases euclidDone s.lastcmd <;> rfl

theorem exec_withRecord (i : Instr) : exec i (withRecord ts as s) = onNext (withRecord ts as) (exec i s) := by
  have hp : (withRecord ts as s).pc = s.pc := rfl
  cases i with
  | modexp =>
    simp only [exec, execModexp, hp]
    split
    · exact congrArg _ (startModexp_withRecord ts as s)
    · exact congrArg _ (meLoop_withRecord ts as s)
    · rfl
  | mrtest =>
    simp only [exec, execMrtest, hp]
    split
    · exact congrArg _ (startMrtest_withRecord ts as s)
    · exact congrArg _ (mrDecomp_withRecord ts as s)
    · exact congrArg _ (mrDraw_withRecord ts as s)
    · exact congrArg _ (mrPow_withRecord ts as s)
    · exact congrArg _ (mrCheck_withRecord ts as s)
    · rfl
  | modinv =>
    simp only [exec, execModinv, hp]
    split
    · exact congrArg _ (startModinv_withRecord ts as s)
    · exact euLoop_withRecord ts as s
    · exact congrArg _ (euDoneInv_withRecord ts as s)
    · rfl
  | egcd =>
    simp only [exec, execEgcd, hp]
    split
    · rfl
    · exact euLoop_withRecord ts as s
    · rfl
    · rfl
  | gcd =>
    simp only [exec, execGcd, hp]
    split
    · rfl
    · exact euLoop_withRecord ts as s
    · rfl
    · rfl

theorem engineTurn_withRecord : engineTurn (withRecord ts as s) = onNext (withRecord ts as) (engineTurn s) := by
  have hpc : (withRecord ts as s).pc = s.pc := rfl
  have hc : (withRecord ts as s).lastcmd = s.lastcmd := rfl
  by_cases hp : s.pc = .idle
  · rw [engineTurn_idle s hp, engineTurn_idle (withRecord ts as s) hp]
    rfl
  cases hd : decode s.lastcmd with
  | ok i => rw [engineTurn_command s i hp hd, engineTurn_command (withRecord ts as s) i hp hd, exec_withRecord]
  | error e =>
    rw [engineTurn_undecoded s e hp hd, engineTurn_undecoded (withRecord ts as s) e hp hd]
    simp only [illegalCommand, hpc]
    split <;> rfl

end Record

/-- Settles O7: the micro-steps commute with a change of the record. -/
theorem engineIgnoresHostRecord : Obligations.EngineIgnoresHostRecord := by
  intro s ts as
  refine (engineTurn_withRecord ts as s).trans ?_
  cases engineTurn s <;> rfl

variable {s t : State}

/-- The working registers that phase `p` of the command in `c` may still read; the others set to 0. -/
def liveWork (c : Word) (p : Phase) (k : Working) : Working :=
  match p with
  | .idle => k
  | .start => Working.cleared
  | .meLoop => { Working.cleared with tM := k.tM, tR := k.tR, tB := k.tB, tE := k.tE }
  | .mrDecomp | .mrDraw => { Working.cleared with tM := k.tM, tD := k.tD, tS := k.tS, tK := k.tK, tJ := k.tJ }
  | .mrPow =>
    { Working.cleared with
      tM := k.tM, tD := k.tD, tS := k.tS, tK := k.tK, tJ := k.tJ, tR := k.tR, tB := k.tB, tE := k.tE }
  | .mrCheck =>
    { Working.cleared with tM := k.tM, tD := k.tD, tS := k.tS, tK := k.tK, tJ := k.tJ, tX := k.tX, tT := k.tT }
  | .euLoop | .euDoneEgcd | .euDoneInv | .euDoneGcd =>
    { Working.cleared with
      tM := if opField c = 3 then k.tM else 0
      eA := k.eA, eB := k.eB, uA := k.uA, vA := k.vA, uB := k.uB, vB := k.vB }

/-- The state without what its phase cannot read; of a block in IDLE nothing is erased. -/
def erase (s : State) : State :=
  { s with work := liveWork s.lastcmd s.pc s.work }

theorem erase_start (hp : s.pc = .start) (w : Working) : erase { s with work := w } = erase s := by
  simp only [erase, hp, liveWork]

/-! Each micro-step reads live registers only: erasing the others before it changes nothing that is not erased after
it. -/

theorem startModexp_erase : erase (startModexp (erase s)) = erase (startModexp s) := by
  simp only [startModexp, apply_ite erase]
  rfl

theorem meLoop_erase (hp : s.pc = .meLoop) : erase (meLoop (erase s)) = erase (meLoop s) := by
  cases s
  cases hp
  simp only [meLoop, apply_ite erase]
  rfl

theorem startMrtest_erase : erase (startMrtest (erase s)) = erase (startMrtest s) := by
  simp only [startMrtest, apply_ite erase]
  rfl

theorem mrDecomp_erase (hp : s.pc = .mrDecomp) : erase (mrDecomp (erase s)) = erase (mrDecomp s) := by
  cases s
  cases hp
  simp only [mrDecomp, apply_ite erase]
  rfl

theorem mrDraw_erase (hp : s.pc = .mrDraw) : erase (mrDraw (erase s)) = erase (mrDraw s) := by
  cases s with
  | mk _ _ _ _ _ _ _ _ _ _ _ _ _ _ _ _ _ _ _ _ _ _ _ offers _ =>
    cases hp
    simp only [mrDraw, apply_ite erase]
    cases offers <;> rfl

theorem mrPow_erase (hp : s.pc = .mrPow) : erase (mrPow (erase s)) = erase (mrPow s) := by
  cases s
  cases hp
  simp only [mrPow, apply_ite erase]
  rfl

theorem mrCheck_erase (hp : s.pc = .mrCheck) : erase (mrCheck (erase s)) = erase (mrCheck s) := by
  cases s
  cases hp
  simp only [mrCheck, apply_ite erase]
  rfl

theorem startModinv_erase : erase (startModinv (erase s)) = erase (startModinv s) := by
  simp only [startModinv, apply_ite erase]
  rfl

theorem euDoneInv_erase (hp : s.pc = .euDoneInv) (hc : s.lastcmd = encode .modinv) :
    erase (euDoneInv (erase s)) = erase (euDoneInv s) := by
  cases s
  cases hp
  cases hc
  simp only [euDoneInv, apply_ite erase]
  rfl

theorem startEgcd_erase (h3 : opField s.lastcmd ≠ 3) : erase (startEgcd (erase s)) = erase (startEgcd s) := by
  simp [startEgcd, euclidStart, erase, liveWork, h3]

theorem euDoneEgcd_erase (hp : s.pc = .euDoneEgcd) : erase (euDoneEgcd (erase s)) = erase (euDoneEgcd s) := by
  cases s
  cases hp
  rfl

theorem euDoneGcd_erase (hp : s.pc = .euDoneGcd) : erase (euDoneGcd (erase s)) = erase (euDoneGcd s) := by
  cases s
  cases hp
  rfl

theorem euLoop_erase {i : Instr} (hp : s.pc = .euLoop) (hc : s.lastcmd = encode i) :
    onNext erase (euLoop (erase s)) = onNext erase (euLoop s) := by
  have hA : (erase s).work.eA = s.work.eA := by simp only [erase, liveWork, hp]
  have hc' : (erase s).lastcmd = s.lastcmd := rfl
  by_cases h0 : s.work.eA = 0
  · cases hdone : euclidDone s.lastcmd with
    | none => simp only [euLoop, hA, hc', hdone, if_pos h0]
    | some p =>
      rw [euLoop_of_eA_eq_zero h0 hdone, euLoop_of_eA_eq_zero (hA.trans h0) hdone]
      rw [hc] at hdone
      obtain ⟨-, rfl | rfl | rfl⟩ := euclidDone_encode hdone <;>
        by_cases h3 : opField s.lastcmd = 3 <;> simp [onNext, erase, liveWork, hp, h3]
  · rw [euLoop_of_eA_ne_zero h0, euLoop_of_eA_ne_zero (by rwa [hA])]
    by_cases h3 : opField s.lastcmd = 3 <;> simp [onNext, erase, liveWork, euclidDivide, hp, h3]

theorem exec_erase {i : Instr} (hc : s.lastcmd = encode i) :
    onNext erase (exec i (erase s)) = onNext erase (exec i s) := by
  have hpc : (erase s).pc = s.pc := rfl
  cases i with
  | modexp =>
    simp only [exec, execModexp, hpc]
    split
    · exact congrArg Host.Outcome.next startModexp_erase
    next hp => exact congrArg Host.Outcome.next (meLoop_erase hp)
    · rfl
  | mrtest =>
    simp only [exec, execMrtest, hpc]
    split
    · exact congrArg Host.Outcome.next startMrtest_erase
    next hp => exact congrArg Host.Outcome.next (mrDecomp_erase hp)
    next hp => exact congrArg Host.Outcome.next (mrDraw_erase hp)
    next hp => exact congrArg Host.Outcome.next (mrPow_erase hp)
    next hp => exact congrArg Host.Outcome.next (mrCheck_erase hp)
    · rfl
  | modinv =>
    simp only [exec, execModinv, hpc]
    split
    · exact congrArg Host.Outcome.next startModinv_erase
    next hp => exact euLoop_erase hp hc
    next hp => exact congrArg Host.Outcome.next (euDoneInv_erase hp hc)
    · rfl
  | egcd =>
    simp only [exec, execEgcd, hpc]
    split
    · exact congrArg Host.Outcome.next (startEgcd_erase (by rw [hc]; decide))
    next hp => exact euLoop_erase hp hc
    next hp => exact congrArg Host.Outcome.next (euDoneEgcd_erase hp)
    · rfl
  | gcd =>
    simp only [exec, execGcd, hpc]
    split
    · exact congrArg Host.Outcome.next (startEgcd_erase (by rw [hc]; decide))
    next hp => exact euLoop_erase hp hc
    next hp => exact congrArg Host.Outcome.next (euDoneGcd_erase hp)
    · rfl

theorem engineTurn_erase : onNext erase (engineTurn (erase s)) = onNext erase (engineTurn s) := by
  have hpc : (erase s).pc = s.pc := rfl
  by_cases hp : s.pc = .idle
  · rw [engineTurn_idle s hp, engineTurn_idle (erase s) hp]
    simp only [onNext, erase, hp, liveWork]
  cases hd : decode s.lastcmd with
  | ok i =>
    rw [engineTurn_command s i hp hd, engineTurn_command (erase s) i hp hd]
    exact exec_erase (eq_encode_of_decode hd)
  | error e =>
    rw [engineTurn_undecoded s e hp hd, engineTurn_undecoded (erase s) e hp hd]
    simp only [illegalCommand, hpc]
    split <;> rfl

theorem exists_of_onNext_eq {f : State → State} {o : Answer} {t : State} (h : onNext f o = .next t) :
    ∃ u, o = .next u ∧ f u = t := by
  cases o with
  | next u => exact ⟨u, rfl, by simpa [onNext] using h⟩
  | fault r => cases h
  | refused r => cases h

/-- Two blocks that agree on what their phase can read take steps that agree again. -/
theorem run_of_erase_eq {u : State} (k : Nat) (ht : s.turns = []) (heq : erase s = erase u) (hrun : run k s = .next t) :
    ∃ v, run k u = .next v ∧ erase t = erase v := by
  induction k generalizing s u with
  | zero =>
    rw [run_zero] at hrun
    cases hrun
    exact ⟨u, run_zero u, heq⟩
  | succ k ih =>
    obtain ⟨s', hstep, hrest⟩ := run_succ_cases k hrun
    rw [step_engine_nil s ht] at hstep
    have hu : u.turns = [] := (congrArg State.turns heq).symm.trans ht
    have hanswer : onNext erase (engineTurn u) = .next (erase s') := by
      rw [← engineTurn_erase, ← heq, engineTurn_erase, hstep, onNext_next]
    obtain ⟨u', hu', heq'⟩ := exists_of_onNext_eq hanswer
    obtain ⟨v, hv, hlast⟩ := ih ((engineTurn_microStep hstep).turns_eq.trans ht) heq'.symm hrest
    exact ⟨v, (run_succ_next k ((step_engine_nil u hu).trans hu')).trans hv, hlast⟩

theorem erase_of_idle (hp : s.pc = .idle) : erase s = s := by
  cases s
  cases hp
  rfl

/-- Settles O60: in START nothing is live, in IDLE nothing is erased. -/
theorem leftoversNeverMatter : Obligations.LeftoversNeverMatter := by
  intro s t w k hp ht hrun hidle
  obtain ⟨v, hv, heq⟩ := run_of_erase_eq k ht (erase_start hp w).symm hrun
  have hv_idle : v.pc = .idle := (congrArg State.pc heq).symm.trans hidle
  rw [erase_of_idle hidle, erase_of_idle hv_idle] at heq
  rw [hv, heq]

end Sys2Proof.Machine
end

section
/-! The edges of the phase graph (spec/40_common.md R121): the phase each micro-step leads to. -/

namespace Sys2Proof.Machine

variable {s t : State}

theorem startModexp_pc (s : State) : (startModexp s).pc ∈ nextPhases .start := by
  unfold startModexp
  split <;> simp [nextPhases]

theorem meLoop_pc (hp : s.pc = .meLoop) : (meLoop s).pc ∈ nextPhases .meLoop := by
  unfold meLoop
  split <;> simp [nextPhases, hp]

theorem startMrtest_pc (s : State) : (startMrtest s).pc ∈ nextPhases .start := by
  unfold startMrtest
  split
  · simp [nextPhases]
  split
  · simp [nextPhases]
  split <;> simp [nextPhases]

theorem mrDecomp_pc (hp : s.pc = .mrDecomp) : (mrDecomp s).pc ∈ nextPhases .mrDecomp := by
  unfold mrDecomp
  split <;> simp [nextPhases, hp]

/-- MR_DRAW is kept only by the hold (spec/20_memory.md R79). -/
theorem mrDraw_pc (s : State) : (mrDraw s).pc ∈ nextPhases .mrDraw ∨ s.offers = [] ∧ mrDraw s = s := by
  unfold mrDraw
  split
  · exact .inl (by simp [nextPhases])
  split
  next ho => exact .inr ⟨ho, rfl⟩
  next r rest ho => exact .inl (by simp [nextPhases, mrTake])

theorem mrPow_pc (hp : s.pc = .mrPow) : (mrPow s).pc ∈ nextPhases .mrPow := by
  unfold mrPow
  split
  · simp [nextPhases, hp]
  split <;> simp [nextPhases]

theorem mrCheck_pc (hp : s.pc = .mrCheck) : (mrCheck s).pc ∈ nextPhases .mrCheck := by
  unfold mrCheck
  split
  · simp [nextPhases]
  split <;> simp [nextPhases, hp]

theorem startModinv_pc (s : State) : (startModinv s).pc ∈ nextPhases .start := by
  unfold startModinv
  split <;> simp [nextPhases]

theorem euDoneInv_pc (s : State) : (euDoneInv s).pc ∈ nextPhases .euDoneInv := by
  unfold euDoneInv
  split <;> simp [nextPhases]

theorem euclidDone_mem_nextPhases {c : Word} {p : Phase} (h : euclidDone c = some p) : p ∈ nextPhases .euLoop := by
  unfold euclidDone at h
  split at h <;> cases h <;> decide

theorem euLoop_pc (hp : s.pc = .euLoop) (h : euLoop s = .next t) : t.pc ∈ nextPhases .euLoop := by
  rcases euLoop_cases h with ⟨-, p, hdone, rfl⟩ | ⟨-, rfl⟩
  · exact euclidDone_mem_nextPhases hdone
  · simp [nextPhases, hp]

theorem exec_pc {i : Instr} (h : exec i s = .next t) :
    t.pc ∈ nextPhases s.pc ∨ s.pc = .mrDraw ∧ s.offers = [] ∧ t = s := by
  cases i with
  | modexp =>
    rcases execModexp_cases h with ⟨hp, rfl⟩ | ⟨hp, rfl⟩ <;> rw [hp]
    · exact .inl (startModexp_pc s)
    · exact .inl (meLoop_pc hp)
  | mrtest =>
    rcases execMrtest_cases h with ⟨hp, rfl⟩ | ⟨hp, rfl⟩ | ⟨hp, rfl⟩ | ⟨hp, rfl⟩ | ⟨hp, rfl⟩ <;> rw [hp]
    · exact .inl (startMrtest_pc s)
    · exact .inl (mrDecomp_pc hp)
    · exact (mrDraw_pc s).imp_right fun hold => ⟨rfl, hold⟩
    · exact .inl (mrPow_pc hp)
    · exact .inl (mrCheck_pc hp)
  | modinv =>
    rcases execModinv_cases h with ⟨hp, rfl⟩ | ⟨hp, hl⟩ | ⟨hp, rfl⟩ <;> rw [hp]
    · exact .inl (startModinv_pc s)
    · exact .inl (euLoop_pc hp hl)
    · exact .inl (euDoneInv_pc s)
  | egcd =>
    rcases execEgcd_cases h with ⟨hp, rfl⟩ | ⟨hp, hl⟩ | ⟨hp, rfl⟩ <;> rw [hp]
    · exact .inl (by simp [nextPhases, startEgcd])
    · exact .inl (euLoop_pc hp hl)
    · exact .inl (by simp [nextPhases, euDoneEgcd])
  | gcd =>
    rcases execGcd_cases h with ⟨hp, rfl⟩ | ⟨hp, hl⟩ | ⟨hp, rfl⟩ <;> rw [hp]
    · exact .inl (by simp [nextPhases, startGcd])
    · exact .inl (euLoop_pc hp hl)
    · exact .inl (by simp [nextPhases, euDoneGcd])

/-- Settles O6: `exec_pc`, and in START an illegal word's error completion. -/
theorem phaseGraph : Obligations.PhaseGraph := by
  intro s t h
  rcases engineTurn_cases h with ⟨hp, rfl⟩ | ⟨-, i, -, hexec⟩ | ⟨hp, -, rfl⟩
  · exact .inl (by simp [hp, nextPhases])
  · exact exec_pc hexec
  · exact .inl (by simp [hp, nextPhases])

end Sys2Proof.Machine
end

section
/-! The words of a register, assembled and loaded (spec/00_scope.md R10, spec/30_encoding.md R99). -/

namespace Sys2Proof.Machine

theorem getWord_zero_toNat (q : Nat) : (getWord q 0).toNat = q % 2 ^ 32 := by
  rw [getWord_toNat, Nat.mul_zero, pow_zero, Nat.div_one]

theorem getWord_succ (q i : Nat) : getWord q (i + 1) = getWord (q / 2 ^ 32) i := by
  rw [getWord, getWord, Nat.div_div_eq_div_mul, ← pow_add]
  congr 3
  ring

theorem wordsOf_succ (nw q : Nat) : wordsOf (nw + 1) q = getWord q 0 :: wordsOf nw (q / 2 ^ 32) := by
  simp only [wordsOf, List.range_succ_eq_map, List.map_cons, List.map_map, Function.comp_def,
    getWord_succ, Nat.succ_eq_add_one]

/-- Settles O19: word 0 is the remainder by `2 ^ 32`, the words above it are those of the quotient. -/
theorem wordsAssembleToValue : Obligations.WordsAssembleToValue := by
  intro nw
  induction nw with
  | zero =>
    intro q hq
    obtain rfl : q = 0 := by simpa using hq
    rfl
  | succ nw ih =>
    intro q hq
    have hquot : q / 2 ^ 32 < 2 ^ (32 * nw) := by
      rw [Nat.div_lt_iff_lt_mul (Nat.two_pow_pos 32), ← pow_add]
      exact hq
    rw [wordsOf_succ, assemble_cons, ih _ hquot, getWord_zero_toNat, Nat.mod_add_div]

/-- A W-bit register has no word beyond its last. -/
theorem getWord_of_le {nw q i : Nat} (hq : q < 2 ^ (32 * nw)) (hi : nw ≤ i) : getWord q i = 0 := by
  have hlt : q < 2 ^ (32 * i) := lt_of_lt_of_le hq (Nat.pow_le_pow_right (by decide) (by omega))
  rw [getWord, Nat.div_eq_of_lt hlt]
  rfl

/-- A register after the words of `value` at the places in `is` have been written to it. -/
def loadWords (value : Nat) : List Nat → Nat → Nat
  | [], q => q
  | i :: is, q => loadWords value is (setWord q i (getWord value i))

theorem getWord_loadWords (value : Nat) (is : List Nat) (q j : Nat) :
    getWord (loadWords value is q) j = if j ∈ is then getWord value j else getWord q j := by
  induction is generalizing q with
  | nil => simp [loadWords]
  | cons i is ih =>
    rw [loadWords, ih]
    by_cases hj : j ∈ is
    · simp [hj]
    · by_cases hi : j = i
      · subst hi
        simp [hj, getWord_setWord_same]
      · simp [hj, hi, getWord_setWord_other _ _ _ _ hi]

theorem loadWords_range {nw value q : Nat} (hv : value < 2 ^ (32 * nw)) (hq : q < 2 ^ (32 * nw)) :
    loadWords value (List.range nw) q = value := by
  apply eq_of_getWord_eq
  intro j
  rw [getWord_loadWords]
  split
  · rfl
  next hj =>
    rw [List.mem_range, not_lt] at hj
    rw [getWord_of_le hq hj, getWord_of_le hv hj]

/-- The operand register that an LD line names. -/
def State.operand (s : State) : OperandReg → Nat
  | .opa => s.opa
  | .opb => s.opb
  | .opm => s.opm

/-- The block with another value in that register. -/
def State.withOperand (s : State) (q : OperandReg) (value : Nat) : State :=
  match q with
  | .opa => { s with opa := value }
  | .opb => { s with opb := value }
  | .opm => { s with opm := value }

/-- The step that writes one word of an LD line on an idle block (spec/30_encoding.md R99). -/
theorem step_ld {s : State} {q : OperandReg} {i : Nat} {v : Word} {ts : List Turn}
    (ht : s.turns = .write (q.wide.addr i) v :: ts) (hb : s.busy = false) (hi : i < s.nw) :
    step s = .next { s.withOperand q (setWord (s.operand q) i v) with turns := ts, answers := .ok :: s.answers } := by
  cases q with
  | opa =>
    simp only [State.withOperand, State.operand]
    exact step_ld_opa s i v ts ht hb hi
  | opb =>
    simp only [State.withOperand, State.operand]
    exact step_ld_opb s i v ts ht hb hi
  | opm =>
    simp only [State.withOperand, State.operand]
    exact step_ld_opm s i v ts ht hb hi

/-- The writes of an LD line, word by word. -/
theorem run_ld (q : OperandReg) (value : Nat) (is : List Nat) {s : State} (hb : s.busy = false)
    (his : ∀ i ∈ is, i < s.nw) (ht : s.turns = is.map fun i => .write (q.wide.addr i) (getWord value i)) :
    run is.length s = .next { s.withOperand q (loadWords value is (s.operand q)) with
      turns := [], answers := List.replicate is.length .ok ++ s.answers } := by
  induction is generalizing s with
  | nil =>
    rw [List.map_nil] at ht
    rw [List.length_nil, run_zero]
    cases s
    cases ht
    cases q <;> rfl
  | cons i is ih =>
    obtain ⟨hi, hrest⟩ := List.forall_mem_cons.mp his
    rw [List.length_cons, run_succ_next _ (step_ld ht hb hi), loadWords]
    generalize setWord (s.operand q) i (getWord value i) = x
    rw [ih, List.replicate_succ', List.append_assoc]
    · cases q <;> rfl
    · cases q <;> exact hb
    · cases q <;> exact hrest
    · rfl

/-- An LD line on an idle block, for any of the three operand registers. -/
theorem run_ld_line (q : OperandReg) {value : Nat} {s : State} (hb : s.busy = false) (hv : value < 2 ^ s.width)
    (hq : s.operand q < 2 ^ s.width) :
    run s.nw { s with turns := Line.turns s.nw (.ld q value) } =
      .next { s.withOperand q value with turns := [], answers := Line.expects s.nw (.ld q value) ++ s.answers } := by
  have hrun := run_ld q value (List.range s.nw) (s := { s with turns := Line.turns s.nw (.ld q value) }) hb
    (fun i => List.mem_range.mp) rfl
  have hload : loadWords value (List.range s.nw) (s.operand q) = value := loadWords_range hv hq
  rw [List.length_range] at hrun
  rw [hrun]
  cases q <;> simp only [State.operand] at hload <;> simp only [State.withOperand, State.operand, hload, Line.expects]

/-- Settles O18: `run_ld_line` at the three registers. -/
theorem loadLineWritesWholeOperand : Obligations.LoadLineWritesWholeOperand :=
  fun _ _ hb hv ha hb' hm => ⟨run_ld_line .opa hb hv ha, run_ld_line .opb hb hv hb', run_ld_line .opm hb hv hm⟩

end Sys2Proof.Machine
end

section
/-! What a step leaves unchanged (spec/10_state.md R46, R47, spec/20_memory.md R71, R76): the agents' turns while a
command runs, and the micro-steps of every command. -/

namespace Sys2Proof.Machine

variable {s t : State}

/-- Settles O27: reads, offers and polls leave the block alone, and a write reaches only the interrupt registers. -/
theorem hostCannotDisturbCommand : Obligations.HostCannotDisturbCommand := by
  intro s t u ts hb ht hu hr h
  rcases step_cases h with ⟨hnil, -⟩ |
    ⟨ts', ⟨ht', -⟩ | ⟨a, -, rfl⟩ | ⟨a, v, -, rfl⟩ | ⟨r, -, rfl⟩ | ⟨ht', -⟩ | ⟨gaps, -, rfl⟩⟩
  · simp [ht] at hnil
  · rw [ht] at ht'
    exact absurd (List.cons.inj ht').1 hu
  · exact ⟨rfl, rfl, rfl, rfl, rfl, rfl, rfl⟩
  · rw [hostWrite]
    rcases busWrite_busy { s with turns := ts' } a v hb with hw | hw | hw <;> rw [hw] <;>
      exact ⟨rfl, rfl, rfl, rfl, rfl, rfl, rfl⟩
  · exact ⟨rfl, rfl, rfl, rfl, rfl, rfl, rfl⟩
  · rw [ht] at ht'
    exact absurd (List.cons.inj ht').1 hr
  · rw [hostWait_busy { s with turns := ts' } gaps hb]
    exact ⟨rfl, rfl, rfl, rfl, rfl, rfl, rfl⟩

/-- An engine turn that ends a command raises exactly one interrupt bit (spec/60_exceptions.md R196). -/
theorem MicroStep.raises_one_interrupt (h : MicroStep s t) (hs : s.busy = true) (ht : t.busy = false) :
    t.done = true ∧ t.pc = .idle ∧
      ((t.err = false ∧ t.errcode = 0 ∧ t.irqStat = s.irqStat ||| 0b01) ∨
       (t.err = true ∧ t.errcode ≠ 0 ∧ t.irqStat = s.irqStat ||| 0b10 ∧
        t.res = 0 ∧ t.resx = 0 ∧ t.resy = 0 ∧ t.rcnt = 0 ∧ t.prime = false ∧ t.xneg = false ∧ t.yneg = false)) := by
  cases h with
  | succeeds r => exact ⟨rfl, rfl, .inl ⟨rfl, rfl, rfl⟩⟩
  | fails e => exact ⟨rfl, rfl, .inr ⟨rfl, e.code_ne_zero, rfl, rfl, rfl, rfl, rfl, rfl, rfl, rfl⟩⟩
  | continues k os p => simp [hs] at ht

/-- Settles O23: of the turns only the engine's and reset end a command, and the engine's is a completion then. -/
theorem completionRaisesExactlyOneInterrupt : Obligations.CompletionRaisesExactlyOneInterrupt := by
  intro s t h hs ht
  cases hturns : s.turns with
  | nil => exact .inr ((engineTurn_microStep ((step_engine_nil s hturns).symm.trans h)).raises_one_interrupt hs ht)
  | cons u ts =>
    by_cases hu : u = .engine
    · subst hu
      have he := (step_engine_cons s ts hturns).symm.trans h
      exact .inr ((engineTurn_microStep he).raises_one_interrupt hs ht)
    by_cases hr : u = .reset
    · exact .inl ⟨ts, by rw [hr]⟩
    · obtain ⟨-, -, -, -, -, -, hflags⟩ := hostCannotDisturbCommand s t u ts hs hturns hu hr h
      have hbusy : t.busy = s.busy := congrArg (·.1) hflags
      simp [hs, ht] at hbusy

/-- The registers and flags that only a completion delivers (spec/20_memory.md R76). -/
def State.delivered (s : State) : Result :=
  { res := s.res, x := s.resx, xneg := s.xneg, y := s.resy, yneg := s.yneg, prime := s.prime, rcnt := s.rcnt }

theorem delivered_busWrite (s : State) (a : Addr) (v : Word) : (busWrite s a v).delivered = s.delivered := by
  rcases busWrite_cases s a v with ⟨-, h, -⟩ | ⟨r, -, h, -⟩ <;> rw [h]
  cases r <;> simp [writeReg, State.delivered]

theorem delivered_hostWait (s : State) (gaps : List Nat) : (hostWait s gaps).delivered = s.delivered := by
  unfold hostWait
  split <;> rfl

theorem delivered_engineTurn (h : engineTurn s = .next t) :
    t.delivered = s.delivered ∨ s.pc ≠ .idle ∧ Completed t := by
  by_cases hp : s.pc = .idle
  · rw [engineTurn_idle s hp] at h
    cases h
    exact .inl rfl
  · cases engineTurn_microStep h with
    | succeeds r => exact .inr ⟨hp, completeOk_completed s r⟩
    | fails e => exact .inr ⟨hp, completeErr_completed s e⟩
    | continues k os p => exact .inl rfl

theorem delivered_step (h : step s = .next t) :
    t.delivered = s.delivered ∨ (∃ ts, s.turns = .reset :: ts) ∨ s.pc ≠ .idle ∧ Completed t := by
  rcases step_cases h with ⟨-, he⟩ |
    ⟨ts, ⟨-, he⟩ | ⟨a, -, rfl⟩ | ⟨a, v, -, rfl⟩ | ⟨r, -, rfl⟩ | ⟨ht, -⟩ | ⟨gaps, -, rfl⟩⟩
  · exact (delivered_engineTurn he).imp_right .inr
  · exact (delivered_engineTurn he).imp_right .inr
  · exact .inl rfl
  · exact .inl (delivered_busWrite _ a v)
  · exact .inl rfl
  · exact .inr (.inl ⟨ts, ht⟩)
  · exact .inl (delivered_hostWait _ gaps)

/-- Settles O24: `delivered_step`, since equal deliveries are equal registers and flags. -/
theorem resultsChangeOnlyAtCompletion : Obligations.ResultsChangeOnlyAtCompletion := by
  intro s t h hne
  rcases delivered_step h with heq | hreset | ⟨hp, hdone⟩
  · simp only [State.delivered, Result.mk.injEq] at heq
    obtain ⟨h1, h2, h3, h4, h5, h6, h7⟩ := heq
    simp [h1, h2, h3, h4, h5, h6, h7] at hne
  · exact .inl hreset
  · exact .inr ⟨hp, hdone⟩

/-! The words on offer: MR_DRAW alone takes one (spec/20_memory.md R79). -/

theorem startModexp_offers (s : State) : (startModexp s).offers = s.offers := by
  unfold startModexp
  split <;> rfl

theorem meLoop_offers (s : State) : (meLoop s).offers = s.offers := by
  unfold meLoop
  split <;> rfl

theorem startMrtest_offers (s : State) : (startMrtest s).offers = s.offers := by
  unfold startMrtest
  split
  · rfl
  split
  · rfl
  split <;> rfl

theorem mrDecomp_offers (s : State) : (mrDecomp s).offers = s.offers := by
  unfold mrDecomp
  split <;> rfl

theorem mrPow_offers (s : State) : (mrPow s).offers = s.offers := by
  unfold mrPow
  split
  · rfl
  split <;> rfl

theorem mrCheck_offers (s : State) : (mrCheck s).offers = s.offers := by
  unfold mrCheck
  split
  · rfl
  split <;> rfl

/-- A word leaves the port only to begin a round (spec/42_miller_rabin.md R153). -/
theorem mrDraw_offers (s : State) : (mrDraw s).offers = s.offers ∨
    s.work.tJ ≠ s.work.tK ∧ ∃ r rest, s.offers = r :: rest ∧ mrDraw s = mrTake s r rest := by
  unfold mrDraw
  split
  · exact .inl rfl
  next hj =>
  split
  · exact .inl rfl
  next r rest ho => exact .inr ⟨hj, r, rest, ho, rfl⟩

theorem startModinv_offers (s : State) : (startModinv s).offers = s.offers := by
  unfold startModinv
  split <;> rfl

theorem euDoneInv_offers (s : State) : (euDoneInv s).offers = s.offers := by
  unfold euDoneInv
  split <;> rfl

theorem euLoop_offers (h : euLoop s = .next t) : t.offers = s.offers := by
  rcases euLoop_cases h with ⟨-, p, -, rfl⟩ | ⟨-, rfl⟩ <;> rfl

/-- The words on offer under any micro-step. -/
theorem exec_offers {i : Instr} (h : exec i s = .next t) : t.offers = s.offers ∨
    i = .mrtest ∧ s.pc = .mrDraw ∧ s.work.tJ ≠ s.work.tK ∧ ∃ r rest, s.offers = r :: rest ∧ t = mrTake s r rest := by
  cases i with
  | modexp =>
    rcases execModexp_cases h with ⟨-, rfl⟩ | ⟨-, rfl⟩
    · exact .inl (startModexp_offers s)
    · exact .inl (meLoop_offers s)
  | mrtest =>
    rcases execMrtest_cases h with ⟨-, rfl⟩ | ⟨-, rfl⟩ | ⟨hp, rfl⟩ | ⟨-, rfl⟩ | ⟨-, rfl⟩
    · exact .inl (startMrtest_offers s)
    · exact .inl (mrDecomp_offers s)
    · exact (mrDraw_offers s).imp_right fun htake => ⟨rfl, hp, htake⟩
    · exact .inl (mrPow_offers s)
    · exact .inl (mrCheck_offers s)
  | modinv =>
    rcases execModinv_cases h with ⟨-, rfl⟩ | ⟨-, hl⟩ | ⟨-, rfl⟩
    · exact .inl (startModinv_offers s)
    · exact .inl (euLoop_offers hl)
    · exact .inl (euDoneInv_offers s)
  | egcd =>
    rcases execEgcd_cases h with ⟨-, rfl⟩ | ⟨-, hl⟩ | ⟨-, rfl⟩
    · exact .inl rfl
    · exact .inl (euLoop_offers hl)
    · exact .inl rfl
  | gcd =>
    rcases execGcd_cases h with ⟨-, rfl⟩ | ⟨-, hl⟩ | ⟨-, rfl⟩
    · exact .inl rfl
    · exact .inl (euLoop_offers hl)
    · exact .inl rfl

theorem MicroStep.frame (h : MicroStep s t) : t.opa = s.opa ∧ t.opb = s.opb ∧ t.opm = s.opm ∧ t.rounds = s.rounds ∧
    t.irqEn = s.irqEn ∧ t.lastcmd = s.lastcmd ∧ t.size = s.size ∧ t.turns = s.turns ∧ t.answers = s.answers := by
  cases h <;> exact ⟨rfl, rfl, rfl, rfl, rfl, rfl, rfl, rfl, rfl⟩

/-- A micro-step that is no completion leaves what the host can read (spec/10_state.md R47). -/
theorem MicroStep.visible_eq (h : MicroStep s t) (hp : t.pc ≠ .idle) :
    t.visible = s.visible ∧ t.freeCount = s.freeCount := by
  cases h with
  | succeeds r => exact absurd rfl hp
  | fails e => exact absurd rfl hp
  | continues k os p => exact ⟨rfl, rfl⟩

/-- Settles O25: the shape of a micro-step, and `exec_offers` for the words on offer. -/
theorem commandFrame : Obligations.CommandFrame := by
  intro i s t h
  have hmicro := exec_microStep h
  refine ⟨hmicro.frame, hmicro.visible_eq, (exec_offers h).imp_right ?_⟩
  rintro ⟨hi, hp, -, r, rest, ho, rfl⟩
  exact ⟨hi, hp, r, ho⟩

/-- The witness of a round that a step begins, in a state that meets the invariants (spec/42_miller_rabin.md R153,
R156). -/
theorem taken_when_ready (h : Inv s) (he : engineTurn s = .next t) (hne : t.offers ≠ s.offers) :
    s.rndReady = true ∧ t.pc = .mrPow ∧ t.work.tJ = s.work.tJ + 1 ∧ ∃ r, s.offers = r :: t.offers ∧
      t.work.tA = 2 + r % (s.work.tM - 2) := by
  rcases engineTurn_cases he with ⟨-, rfl⟩ | ⟨-, i, -, hexec⟩ | ⟨-, -, rfl⟩
  · exact absurd rfl hne
  · rcases exec_offers hexec with hsame | ⟨-, hp, hj, r, rest, ho, rfl⟩
    · exact absurd hsame hne
    · have hsplit := (workInv_mrDraw hp).mp h.work
      have hlt : s.work.tJ < s.work.tK := lt_of_le_of_ne hsplit.started hj
      have hlarge : 3 ≤ s.work.tM := hsplit.modulus ▸ hsplit.large
      exact ⟨by simp [State.rndReady, hp, hlt], rfl, rfl, r, ho, witness_eq _ r hlarge⟩
  · exact absurd rfl hne

theorem busWrite_offers (s : State) (a : Addr) (v : Word) : (busWrite s a v).offers = s.offers := by
  rcases busWrite_cases s a v with ⟨-, h, -⟩ | ⟨r, -, h, -⟩ <;> rw [h]
  cases r <;> simp [writeReg]

theorem hostWait_offers (s : State) (gaps : List Nat) : (hostWait s gaps).offers = s.offers := by
  unfold hostWait
  split <;> rfl

/-- Settles O41: of the turns only the engine's and an offer change the words on offer. -/
theorem witnessTakenOnlyWhenReady : Obligations.WitnessTakenOnlyWhenReady := by
  intro s t h hstep hne
  rcases step_cases hstep with ⟨-, he⟩ |
    ⟨ts, ⟨ht, he⟩ | ⟨a, -, rfl⟩ | ⟨a, v, -, rfl⟩ | ⟨r, ht, rfl⟩ | ⟨-, rfl⟩ | ⟨gaps, -, rfl⟩⟩
  · exact .inl (taken_when_ready h he hne)
  · exact .inl (taken_when_ready (s := { s with turns := ts }) (h.tail ht) he hne)
  · exact absurd rfl hne
  · exact absurd (busWrite_offers _ a v) hne
  · exact .inr ⟨r, ts, ht, rfl⟩
  · exact absurd rfl hne
  · exact absurd (hostWait_offers _ gaps) hne

end Sys2Proof.Machine
end

section
/-! The byte frame of the commands (spec/20_memory.md R63, spec/40_common.md R113, R114). -/

namespace Sys2Proof.Machine

variable {s t : State}

/-- The register words that a completion writes (spec/40_common.md R113, R114). -/
def RegWord.delivered : RegWord → Bool
  | .status | .irqStat | .rcnt | .res _ | .resx _ | .resy _ => true
  | .id | .param | .cmd | .rounds | .irqEn | .opa _ | .opb _ | .opm _ => false

theorem readReg_of_visible (h : t.visible = s.visible) (r : RegWord) : readReg t r = readReg s r := by
  simp only [State.visible, Visible.mk.injEq, Prod.mk.injEq] at h
  cases r <;> simp [readReg, State.paramWord, State.width, State.nw, State.statusWord, h]

theorem MicroStep.readReg_eq (h : MicroStep s t) {r : RegWord} (hr : r.delivered = false) :
    readReg t r = readReg s r := by
  cases h with
  | succeeds _ | fails _ =>
    cases r with
    | status | irqStat | rcnt | res | resx | resy => cases hr
    | id | param | cmd | rounds | irqEn | opa | opb | opm => rfl
  | continues k os p => exact readReg_of_visible rfl r

theorem controlWord_delivered {i : Nat} {r : RegWord} (h : controlWord i = some r) (hr : r.delivered = true) :
    i = 3 ∨ i = 6 ∨ i = 7 := by
  unfold controlWord at h
  split at h <;> cases h <;> simp [RegWord.delivered] at hr ⊢

theorem bankWord_delivered {b i : Nat} {r : RegWord} (h : bankWord b i = some r) (hr : r.delivered = true) :
    b = 4 ∨ b = 5 ∨ b = 6 := by
  unfold bankWord at h
  split at h <;> cases h <;> simp [RegWord.delivered] at hr ⊢

theorem wordAddr_toNat (a : Addr) : (BitVec.ofNat 15 (a.toNat / 4 * 4)).toNat = a.toNat / 4 * 4 := by
  have := a.isLt
  rw [BitVec.toNat_ofNat]
  exact Nat.mod_eq_of_lt (by omega)

/-- The bytes of the words that a completion writes (spec/20_memory.md R61). -/
theorem resultByte_of_delivered {nw : Nat} {a : Addr} {r : RegWord} (hn : nw ≤ 1024)
    (hreg : regAt nw (BitVec.ofNat 15 (a.toNat / 4 * 4)) = some r) (hr : r.delivered = true) : resultByte a.toNat := by
  have hword := wordAddr_toNat a
  have ha : aligned (BitVec.ofNat 15 (a.toNat / 4 * 4)) = true := by simp [aligned, hword]
  rcases regAt_some_cases ha hreg with ⟨i, haddr, hw⟩ | ⟨b, i, hi, haddr, hw⟩
  · have hi := controlWord_delivered hw hr
    rw [haddr, BitVec.toNat_ofNat] at hword
    omega
  · have hb := bankWord_delivered hw hr
    rw [haddr, bankAddr_toNat b i (by omega) (by omega)] at hword
    omega

/-- A byte is kept where its word is. -/
theorem byteAt_eq {a : Addr} (hsize : t.size = s.size)
    (h : ∀ r, regAt s.nw (BitVec.ofNat 15 (a.toNat / 4 * 4)) = some r → readReg t r = readReg s r) :
    byteAt t a = byteAt s a := by
  have hnw : t.nw = s.nw := by rw [State.nw, hsize, ← State.nw]
  have hread : busRead t (BitVec.ofNat 15 (a.toNat / 4 * 4)) = busRead s (BitVec.ofNat 15 (a.toNat / 4 * 4)) := by
    unfold busRead
    rw [hnw]
    cases hreg : regAt s.nw (BitVec.ofNat 15 (a.toNat / 4 * 4)) with
    | none => rfl
    | some r => simp only [h r hreg]
  rw [byteAt, hread, ← byteAt]

/-- Settles O26: outside a completion every word reads as before, and a completion writes only words whose bytes are
listed. -/
theorem commandByteFrame : Obligations.CommandByteFrame := by
  intro i s t a hexec hkept
  have hmicro := exec_microStep hexec
  refine byteAt_eq hmicro.size_eq fun r hreg => ?_
  rcases hkept with hp | hbyte
  · exact readReg_of_visible (hmicro.visible_eq hp).1 r
  · cases hr : r.delivered with
    | false => exact hmicro.readReg_eq hr
    | true => exact absurd (resultByte_of_delivered (nw_le s) hreg hr) hbyte

end Sys2Proof.Machine
end

section
/-! The witnesses of MRTEST (spec/42_miller_rabin.md R156, R157 (f)). -/

namespace Sys2Proof.Machine

theorem witness_sub_two {n a : Nat} (hlow : 2 ≤ a) (hhigh : a ≤ n - 1) : witness n (a - 2) = a := by
  rw [witness_eq n _ (by omega), Nat.mod_eq_of_lt (by omega)]
  omega

/-- An odd power of `-1` is `-1`. -/
theorem pred_pow_odd_mod {n d : Nat} (hn : 1 ≤ n) (hd : d % 2 = 1) : (n - 1) ^ d % n = n - 1 := by
  have hpred : ((n - 1 : Nat) : ZMod n) = -1 := by simp [Nat.cast_sub hn]
  have hpow : (((n - 1) ^ d : Nat) : ZMod n) = ((n - 1 : Nat) : ZMod n) := by
    rw [Nat.cast_pow, hpred, (Nat.odd_iff.mpr hd).neg_one_pow]
  have hmod : (n - 1) ^ d % n = (n - 1) % n := (ZMod.natCast_eq_natCast_iff _ _ _).mp hpow
  rw [hmod, Nat.mod_eq_of_lt (by omega)]

/-- Settles O40: the witness `n - 1` meets `x_0 = n - 1`. -/
theorem witnessRangeAndTopLiar : Obligations.WitnessRangeAndTopLiar := by
  refine fun n e d hn => ⟨fun r => ?_, fun a => witness_sub_two, fun _ hd he => ?_⟩
  · obtain ⟨hlow, hhigh⟩ := witness_range n r hn
    exact ⟨hlow, Nat.le_sub_one_of_lt hhigh⟩
  · rw [roundPasses_iff (by omega), pred_pow_odd_mod (by omega) hd]
    exact .inr ⟨0, he, by rw [squares]; omega⟩

end Sys2Proof.Machine
end

section
/-! The bounds on R170's coefficients (spec/43_euclid.md R180), read off the registers of the loop that computes them.
-/

namespace Sys2Proof.Machine

/-- The loop's end keeps the invariant that every division keeps. -/
theorem exists_euclidEnd {a b : Nat} {k : Working} (h : EuclidInv a b k) :
    ∃ k', EuclidEnd k k' ∧ EuclidInv a b k' := by
  induction hA : k.eA using Nat.strong_induction_on generalizing k with
  | _ n ih =>
    by_cases h0 : k.eA = 0
    · exact ⟨k, .of_eA_eq_zero h0, h⟩
    · have hlt : (euclidDivide k).eA < n := hA ▸ Nat.mod_lt k.eB (Nat.pos_of_ne_zero h0)
      obtain ⟨k', hend, hinv⟩ := ih _ hlt (euclidDivide_keeps h h0) rfl
      exact ⟨k', hend.of_divide h0, hinv⟩

theorem egcd_coefficients_le (a b : Nat) :
    (egcd a b).2.1.natAbs ≤ max b 1 ∧ (egcd a b).2.2.natAbs ≤ max a 1 := by
  obtain ⟨k, hend, hinv⟩ := exists_euclidEnd (euclidStart_inv Working.cleared a b)
  obtain ⟨-, hu, hv⟩ := hend.values_of_start
  exact ⟨hu ▸ hinv.boundUB, hv ▸ hinv.boundVB⟩

/-- Settles O45: the recursion's equations, divisor and identity, and the bounds the loop's invariant gives. -/
theorem egcdRecursionIsBezout : Obligations.EgcdRecursionIsBezout :=
  ⟨egcd_zero, egcd_pos, fun a b => ⟨egcd_fst_eq_gcd a b, egcd_bezout a b, egcd_coefficients_le a b⟩⟩

end Sys2Proof.Machine
end

section
/-! Command words, the first step and reset (spec/30_encoding.md R92, spec/40_common.md R112,
spec/70_reset_and_hazards.md R230). -/

namespace Sys2Proof.Machine

/-- Settles O1: the five words are the encodings; the others fail one of R91's two checks. -/
theorem commandWordsDecode : Obligations.CommandWordsDecode :=
  ⟨decode_encode .modexp, decode_encode .mrtest, decode_encode .modinv, decode_encode .egcd, decode_encode .gcd,
    rfl, rfl, rfl, rfl, rfl, rfl, rfl⟩

theorem tableWord_encode (i : Instr) : tableWord 32 (encode i).toNat = encode i := by
  cases i <;> rfl

/-- Settles O4: the engine's turn, alone or at the head of the list, is the decoded command's micro-step. -/
theorem stepRunsDecodedCommand : Obligations.StepRunsDecodedCommand := by
  refine ⟨fun s i hp hd => ⟨fun ht => ?_, fun ts ht => ?_⟩, fun s i => ?_⟩
  · rw [step_engine_nil s ht, engineTurn_command s i hp hd]
  · rw [step_engine_cons s ts ht]
    exact engineTurn_command { s with turns := ts } i hp hd
  · rw [withFetchWord_eq, tableWord_encode]
    exact step_command_nil rfl rfl nofun

/-- Settles O29: the reset turn is `resetStep`, whose registers are those of `State.atReset`. -/
theorem resetFromEveryState : Obligations.ResetFromEveryState :=
  fun s ts => ⟨resetStep { s with turns := ts }, rfl, rfl, rfl, irq_of_irqEn_zero rfl, rfl, rfl, rfl⟩

end Sys2Proof.Machine
end

section
/-! The loop phases and the last phases as the spec writes them, in bits and shifts (spec/41_modexp.md R142,
spec/42_miller_rabin.md R152 to R154, spec/43_euclid.md R172, R177, R179). -/

namespace Sys2Proof.Machine

/-- R123's `powstep`: the exponent's bit 0 and its shift are the remainder and the quotient by 2. -/
theorem powstep_eq_bits (k : Working) : powstep k =
    { k with
      tR := if k.tE.testBit 0 then mulmod k.tR k.tB k.tM else k.tR
      tB := mulmod k.tB k.tB k.tM
      tE := k.tE >>> 1 } := by
  simp [powstep, Nat.testBit_zero, Nat.shiftRight_one]

/-- Settles O31: the two arms of `meLoop`. -/
theorem modexpLoop : Obligations.ModexpLoop := by
  refine ⟨mulmod_pos, fun s hp => ⟨fun hE => ?_, fun hE => ?_⟩⟩
  · rw [exec_modexp_meLoop hp, meLoop_of_tE_eq_zero hE]
  · rw [exec_modexp_meLoop hp, meLoop_of_tE_ne_zero hE, powstep_eq_bits]

/-- Settles O34: the two arms of `mrDecomp`, bit 0 of `T_D` being its parity. -/
theorem mrtestDecompose : Obligations.MrtestDecompose := by
  refine fun s hp => ⟨fun hb => ?_, fun hb => ?_⟩
  · rw [Nat.testBit_zero, decide_eq_false_iff_not] at hb
    rw [exec_mrtest_mrDecomp hp, mrDecomp_of_even (by omega), Nat.shiftRight_one]
  · rw [Nat.testBit_zero, decide_eq_true_iff] at hb
    rw [exec_mrtest_mrDecomp hp, mrDecomp_of_odd hb]

/-- Settles O35: the three arms of `mrDraw`. -/
theorem mrtestDraw : Obligations.MrtestDraw := by
  refine ⟨witness_eq, fun s hp => ⟨fun hj => ?_, fun r rest hj ho => ?_, fun hj ho => ?_⟩⟩
  · rw [exec_mrtest_mrDraw hp, mrDraw_of_rounds_done hj]
  · rw [exec_mrtest_mrDraw hp, mrDraw_of_offer hj ho, mrTake]
  · rw [exec_mrtest_mrDraw hp, mrDraw_of_no_offer hj ho]

/-- Settles O36: the three arms of `mrPow`. -/
theorem mrtestPower : Obligations.MrtestPower := by
  refine ⟨mulmod_pos, fun s hp => ⟨fun hE => ?_, fun hE hR => ?_, fun hE hR => ?_⟩⟩
  · rw [exec_mrtest_mrPow hp, mrPow_of_tE_ne_zero hE, powstep_eq_bits]
  · rw [exec_mrtest_mrPow hp, mrPow_of_one hE hR]
  · rw [exec_mrtest_mrPow hp, mrPow_of_ne_one hE hR]

/-- `OP` is bits 3:0 (spec/30_encoding.md R90). -/
theorem opField_eq_extractLsb' (c : Word) : opField c = (c.extractLsb' 0 4).toNat := by
  rw [BitVec.extractLsb'_toNat, Nat.shiftRight_zero, opField]

theorem exec_euLoop_end {i : Instr} {s : State} {p : Phase} (hi : i = .egcd ∨ i = .modinv ∨ i = .gcd)
    (hp : s.pc = .euLoop) (hA : s.work.eA = 0) (hdone : euclidDone s.lastcmd = some p) :
    exec i s = .next { s with pc := p } := by
  rw [exec_euLoop hi hp, euLoop_of_eA_eq_zero hA hdone]

/-- Settles O43: the division, and the last phase by `OP`. -/
theorem euclidLoop : Obligations.EuclidLoop := by
  intro i s hi hp
  have hop : ∀ v, s.lastcmd.extractLsb' 0 4 = v → opField s.lastcmd = v.toNat := by
    rintro v rfl
    exact opField_eq_extractLsb' _
  refine ⟨fun hA => ?_, fun hA hc => ?_, fun hA hc => ?_, fun hA hc => ?_⟩
  · rw [exec_euLoop hi hp, euLoop_of_eA_ne_zero hA, euclidDivide]
  · exact exec_euLoop_end hi hp hA (by simp [euclidDone, hop _ hc])
  · exact exec_euLoop_end hi hp hA (by simp [euclidDone, hop _ hc])
  · exact exec_euLoop_end hi hp hA (by simp [euclidDone, hop _ hc])

/-- A coefficient of at most the modulus is reduced by at most one addition (spec/43_euclid.md R177). -/
theorem emod_of_natAbs_le {x : Int} {m : Nat} (hm : 1 ≤ m) (hx : x.natAbs ≤ m) :
    x % (m : Int) = if x = m then 0 else if 0 ≤ x then x else x + m := by
  split
  next h => rw [h, Int.emod_self]
  next h =>
  split
  next h0 => exact Int.emod_eq_of_lt h0 (by omega)
  next h0 => rw [← Int.add_emod_right, Int.emod_eq_of_lt (by omega) (by omega)]

/-- Settles O48: the two arms of `euDoneInv`, and `emod_of_natAbs_le`. -/
theorem modinvDone : Obligations.ModinvDone := by
  refine ⟨modInt_pos, fun s hp => ⟨fun hB => ?_, fun hB => ?_, emod_of_natAbs_le⟩⟩
  · rw [exec_modinv_euDoneInv hp, euDoneInv_of_eB_ne_one hB]
  · rw [exec_modinv_euDoneInv hp, euDoneInv_of_eB_eq_one hB]

/-- Settles O50: START sets the Euclid registers as `euclidStart` does, and the last phase delivers `E_B`. -/
theorem gcdStartAndDone : Obligations.GcdStartAndDone :=
  ⟨fun s hp => ⟨euclidStart s.work s.opa s.opb, rfl, rfl, rfl, exec_gcd_start hp⟩, fun _ hp => exec_gcd_euDoneGcd hp⟩

end Sys2Proof.Machine
end
